-- ==== Sys2Proof/Config.lean ====
section
/-! DEFINITION. The parameters of the hardware (spec/00_scope.md rule R5) and its constant register (spec/10_state.md
rule R22). `W` is an argument of the model (R5, R6): the type `Width` holds the values it may take, and
`State.width` holds the one of a machine. -/

namespace Sys2Proof.Config

/-- `LIMB`, the width in bits of one host-visible word of a register (R5). -/
def LIMB : Nat := 32

/-- A legal register width `W` (R5): a multiple of 32 from 64 to 65504, given as `NLIMB = W / 32`. -/
structure Width where
  nlimb : Nat
  atLeast : 2 ≤ nlimb
  atMost : nlimb ≤ 2047
  deriving DecidableEq, Repr

/-- `W`, the width in bits of every big-integer register (R5). -/
def Width.bits (w : Width) : Nat := LIMB * w.nlimb

/-- `STRIDE = W / 8`, bytes from one register to the next in the host window (R5, R41). -/
def Width.stride (w : Width) : Nat := w.bits / 8

/-- The `W` of this hardware, 4096 (R5). -/
def thisWidth : Width := ⟨128, by decide, by decide⟩

/-- `NREG`, the number of big-integer registers (R5, R13). -/
def NREG : Nat := 16

/-- `ROUNDS_RESET`, the reset value of the Miller–Rabin round count (R5, R27). -/
def roundsReset : BitVec 32 := 5#32

/-- `BWIN`, the byte address of limb 0 of `B[0]` in the host window (R5, R41). -/
def BWIN : Nat := 0x2000

/-- The byte address where the control block ends (R41: `0x0000` to `0x0023`). -/
def ctrlEnd : Nat := 0x24

/-- The constant that `ID` always reads (R22). -/
def idWord : BitVec 32 := 0x52534101#32

end Sys2Proof.Config
end

