-- ==== Sys2Proof/Word.lean ====
section
/-! DEFINITION. The word types: a command word (spec/30_encoding.md rule R57), a random word (spec/20_memory.md rule R52)
and a register index (spec/30_encoding.md rule R58). The contents of a `W`-bit register and a byte address of the
register window are plain natural numbers (spec/00_scope.md rule R7), since their widths follow from the argument `W`
(rules R5, R39). -/

namespace Sys2Proof

/-- A 32-bit host-visible word: a limb, a control register, a command word (R21, R44, R57). -/
abbrev W32 := BitVec 32

/-- One word of the random stream (R52). -/
abbrev Rnd := BitVec 32

/-- The index of a big-integer register, a 4-bit field of the command word (R58). -/
abbrev Reg := Fin 16

end Sys2Proof
end

