-- ==== Sys2Proof/Syntax.lean ====
section
/-! DEFINITION. The 21 commands of the opcode map (spec/30_encoding.md rule R61), one constructor a row, each with the
operands of the row's "operands" column; and the assembler's second spellings (rules R67, R69, spec/10_state.md rule
R14). -/

namespace Sys2Proof

/-- A command with its operands (R61). `rd` is the destination, `ra` and `rb` the sources, `rc` the modulus (R58);
`imm16` is an unsigned number (R60), kept below 65536 by `Instr.wellFormed`. -/
inductive Instr where
  | nop
  | ldi (rd : Reg) (imm16 : Nat)
  | mov (rd ra : Reg)
  | mfhi (rd : Reg)
  | mthi (ra : Reg)
  | add (rd ra rb : Reg)
  | sub (rd ra rb : Reg)
  | cmp (ra rb : Reg)
  | mul (rd ra rb : Reg)
  | mod (rd ra rc : Reg)
  | modw (rd ra rc : Reg)
  | mulmod (rd ra rb rc : Reg)
  | modexp (rd ra rb rc : Reg)
  | gcd (rd ra rb : Reg)
  | modinv (rd ra rc : Reg)
  | mrtest (ra : Reg)
  | randbits (rd : Reg) (imm16 : Nat)
  | randrange (rd ra rb : Reg)
  | primegen (rd : Reg) (imm16 : Nat)
  | keygen (imm16 : Nat)
  | enc (rd ra rb rc : Reg)
  deriving DecidableEq, Repr

/-- The assembler's second names of registers (R14, R69). -/
inductive RegName where
  | P | Q | N | PHI | E | D
  deriving DecidableEq, Repr

/-- The register that a second name stands for (R14): `P` = `B8` up to `D` = `B13`. -/
def RegName.reg : RegName → Reg
  | .P => 8
  | .Q => 9
  | .N => 10
  | .PHI => 11
  | .E => 12
  | .D => 13

/-- The pseudo-commands, spellings without an encoding of their own (R67). -/
inductive Pseudo where
  | dec (rd ra rb rc : Reg)
  | isprime (ra : Reg)
  | sqrmod (rd ra rc : Reg)
  | clr (rd : Reg)
  deriving DecidableEq, Repr

/-- The real command that a pseudo-command expands to (R67, R123). -/
def Pseudo.expand : Pseudo → Instr
  | .dec rd ra rb rc => .modexp rd ra rb rc
  | .isprime ra => .mrtest ra
  | .sqrmod rd ra rc => .mulmod rd ra ra rc
  | .clr rd => .ldi rd 0

end Sys2Proof
end

