-- ==== Sys2Proof/WellFormed.lean ====
section
/-! DEFINITION. Which terms of `Instr` are commands: register operands are in range by their type (spec/30_encoding.md
rule R58), so the one check is that an immediate fits its 16-bit field (rules R59, R60). -/

namespace Sys2Proof

/-- `imm16` is an unsigned value 0 to 65535 (R60). -/
def immFits (imm16 : Nat) : Bool := decide (imm16 < 2 ^ 16)

/-- A command whose operands fit their fields (R58, R59, R60). -/
def Instr.wellFormed : Instr → Bool
  | .nop => true
  | .ldi _ imm16 => immFits imm16
  | .mov _ _ => true
  | .mfhi _ => true
  | .mthi _ => true
  | .add _ _ _ => true
  | .sub _ _ _ => true
  | .cmp _ _ => true
  | .mul _ _ _ => true
  | .mod _ _ _ => true
  | .modw _ _ _ => true
  | .mulmod _ _ _ _ => true
  | .modexp _ _ _ _ => true
  | .gcd _ _ _ => true
  | .modinv _ _ _ => true
  | .mrtest _ => true
  | .randbits _ imm16 => immFits imm16
  | .randrange _ _ _ => true
  | .primegen _ imm16 => immFits imm16
  | .keygen imm16 => immFits imm16
  | .enc _ _ _ _ => true

end Sys2Proof
end

