-- ==== Sys2Proof/Decode.lean ====
section
/-! DEFINITION. The decoder of spec/30_encoding.md rule R65, a table of rows with mask and match (rule R61), total on
every 32-bit word and rejecting by name (rules R62, R63); and after it the encoder, written from the formats of rules
R58 and R59 and the `op` column of rule R61. -/

namespace Sys2Proof

/-! ### Fields of a command word (R58, R59) -/

/-- `op = cmd[31:24]` (R58). -/
def opField (w : W32) : BitVec 8 := w.extractLsb' 24 8

/-- `rd = cmd[23:20]` (R58, R65). -/
def rdField (w : W32) : Reg := (w.extractLsb' 20 4).toFin

/-- `ra = cmd[19:16]` (R58, R65). -/
def raField (w : W32) : Reg := (w.extractLsb' 16 4).toFin

/-- `rb = cmd[15:12]` (R58, R65). -/
def rbField (w : W32) : Reg := (w.extractLsb' 12 4).toFin

/-- `rc = cmd[11:8]` (R58, R65). -/
def rcField (w : W32) : Reg := (w.extractLsb' 8 4).toFin

/-- `imm16 = cmd[15:0]`, unsigned (R59, R60, R65). -/
def immField (w : W32) : Nat := (w.extractLsb' 0 16).toNat

/-! ### The opcode map (R61) -/

/-- One row of the opcode map: a word is this command exactly when `cmd AND mask == match` (R61). -/
structure Row where
  mnemonic : String
  pattern : W32
  mask : W32
  build : W32 → Instr

/-- `cmd AND row.mask == row.match` (R65). -/
def Row.hits (r : Row) (w : W32) : Bool := w &&& r.mask == r.pattern

/-- The moves' rows of R61. -/
def moveRows : List Row :=
  [ ⟨"NOP",  0x00000000#32, 0xFFFFFFFF#32, fun _ => .nop⟩,
    ⟨"LDI",  0x01000000#32, 0xFF0F0000#32, fun w => .ldi (rdField w) (immField w)⟩,
    ⟨"MOV",  0x02000000#32, 0xFF00FFFF#32, fun w => .mov (rdField w) (raField w)⟩,
    ⟨"MFHI", 0x03000000#32, 0xFF0FFFFF#32, fun w => .mfhi (rdField w)⟩,
    ⟨"MTHI", 0x04000000#32, 0xFFF0FFFF#32, fun w => .mthi (raField w)⟩ ]

/-- The big-integer arithmetic rows of R61. -/
def arithRows : List Row :=
  [ ⟨"ADD",  0x10000000#32, 0xFF000FFF#32, fun w => .add (rdField w) (raField w) (rbField w)⟩,
    ⟨"SUB",  0x11000000#32, 0xFF000FFF#32, fun w => .sub (rdField w) (raField w) (rbField w)⟩,
    ⟨"CMP",  0x12000000#32, 0xFFF00FFF#32, fun w => .cmp (raField w) (rbField w)⟩,
    ⟨"MUL",  0x13000000#32, 0xFF000FFF#32, fun w => .mul (rdField w) (raField w) (rbField w)⟩,
    ⟨"MOD",  0x14000000#32, 0xFF00F0FF#32, fun w => .mod (rdField w) (raField w) (rcField w)⟩,
    ⟨"MODW", 0x15000000#32, 0xFF00F0FF#32, fun w => .modw (rdField w) (raField w) (rcField w)⟩ ]

/-- The modular and Euclidean rows of R61. -/
def modularRows : List Row :=
  [ ⟨"MULMOD", 0x20000000#32, 0xFF0000FF#32,
      fun w => .mulmod (rdField w) (raField w) (rbField w) (rcField w)⟩,
    ⟨"MODEXP", 0x21000000#32, 0xFF0000FF#32,
      fun w => .modexp (rdField w) (raField w) (rbField w) (rcField w)⟩,
    ⟨"GCD",    0x30000000#32, 0xFF000FFF#32, fun w => .gcd (rdField w) (raField w) (rbField w)⟩,
    ⟨"MODINV", 0x31000000#32, 0xFF00F0FF#32, fun w => .modinv (rdField w) (raField w) (rcField w)⟩ ]

/-- The randomness and primality rows and the macro-commands' rows of R61. -/
def macroRows : List Row :=
  [ ⟨"MRTEST",    0x40000000#32, 0xFFF0FFFF#32, fun w => .mrtest (raField w)⟩,
    ⟨"RANDBITS",  0x41000000#32, 0xFF0F0000#32, fun w => .randbits (rdField w) (immField w)⟩,
    ⟨"RANDRANGE", 0x42000000#32, 0xFF000FFF#32,
      fun w => .randrange (rdField w) (raField w) (rbField w)⟩,
    ⟨"PRIMEGEN",  0x43000000#32, 0xFF0F0000#32, fun w => .primegen (rdField w) (immField w)⟩,
    ⟨"KEYGEN",    0x50000000#32, 0xFFFF0000#32, fun w => .keygen (immField w)⟩,
    ⟨"ENC",       0x51000000#32, 0xFF0000FF#32,
      fun w => .enc (rdField w) (raField w) (rbField w) (rcField w)⟩ ]

/-- The 21 rows of R61, in table order. -/
def rows : List Row := moveRows ++ (arithRows ++ (modularRows ++ macroRows))

/-! ### Decoding (R65) -/

/-- Why a word is ILLEGAL (R63): the two kinds the rule names. Both end in the one fault ILLCMD, so the name is the
model's only (notes/assumptions/15.md). -/
inductive Illegal where
  /-- The `op` field holds one of the 235 unassigned values (R63). -/
  | unassignedOp
  /-- The `op` is assigned and a must-be-zero field is not zero (R62, R63). -/
  | nonzeroField
  deriving DecidableEq, Repr

/-- The `op` field of the word is some row's (R63). -/
def opAssigned (w : W32) : Bool := rows.any fun r => opField w == opField r.pattern

/-- `decode(cmd)` (R65): the first row that matches, its operands taken from their fields; otherwise ILLEGAL. -/
def decode (w : W32) : Except Illegal Instr :=
  match rows.find? (fun r => r.hits w) with
  | some r => .ok (r.build w)
  | none => .error (if opAssigned w then .nonzeroField else .unassignedOp)

/-- The command that the decoder reads from an instruction of `nbits` bits with value `w`, numbered as
spec/opcode_table.json numbers them. A command is one 32-bit word (R57), bit 31 its most significant. -/
def decodeTableWord (nbits w : Nat) : Option Instr :=
  if nbits ≤ 32 then
    match decode (BitVec.ofNat 32 (w % 2 ^ nbits)) with
    | .ok i => some i
    | .error _ => none
  else none

/-! ### Encoding (R58, R59, R61, R66) -/

/-- A register index as its 4-bit field (R58). -/
def regBits (r : Reg) : BitVec 4 := BitVec.ofFin r

/-- A field's bits at a place of the word. -/
def place {n : Nat} (field : BitVec n) (lo : Nat) : W32 := field.setWidth 32 <<< lo

/-- Format R: `op` at 31:24, `rd` at 23:20, `ra` at 19:16, `rb` at 15:12, `rc` at 11:8, zero at 7:0 (R58). -/
def formatR (op : BitVec 8) (rd ra rb rc : Reg) : W32 :=
  place op 24 ||| place (regBits rd) 20 ||| place (regBits ra) 16 ||| place (regBits rb) 12 |||
    place (regBits rc) 8

/-- Format I: `op` at 31:24, `rd` at 23:20, zero at 19:16, `imm16` at 15:0 (R59). -/
def formatI (op : BitVec 8) (rd : Reg) (imm16 : Nat) : W32 :=
  place op 24 ||| place (regBits rd) 20 ||| place (BitVec.ofNat 16 imm16) 0

/-- The word of a command: each operand in the field of its name and 0 in every other field (R61, R66). -/
def encode : Instr → W32
  | .nop => formatR 0x00#8 0 0 0 0
  | .ldi rd imm16 => formatI 0x01#8 rd imm16
  | .mov rd ra => formatR 0x02#8 rd ra 0 0
  | .mfhi rd => formatR 0x03#8 rd 0 0 0
  | .mthi ra => formatR 0x04#8 0 ra 0 0
  | .add rd ra rb => formatR 0x10#8 rd ra rb 0
  | .sub rd ra rb => formatR 0x11#8 rd ra rb 0
  | .cmp ra rb => formatR 0x12#8 0 ra rb 0
  | .mul rd ra rb => formatR 0x13#8 rd ra rb 0
  | .mod rd ra rc => formatR 0x14#8 rd ra 0 rc
  | .modw rd ra rc => formatR 0x15#8 rd ra 0 rc
  | .mulmod rd ra rb rc => formatR 0x20#8 rd ra rb rc
  | .modexp rd ra rb rc => formatR 0x21#8 rd ra rb rc
  | .gcd rd ra rb => formatR 0x30#8 rd ra rb 0
  | .modinv rd ra rc => formatR 0x31#8 rd ra 0 rc
  | .mrtest ra => formatR 0x40#8 0 ra 0 0
  | .randbits rd imm16 => formatI 0x41#8 rd imm16
  | .randrange rd ra rb => formatR 0x42#8 rd ra rb 0
  | .primegen rd imm16 => formatI 0x43#8 rd imm16
  | .keygen imm16 => formatI 0x50#8 0 imm16
  | .enc rd ra rb rc => formatR 0x51#8 rd ra rb rc

end Sys2Proof
end

