-- ==== Sys2Proof/Machine/State.lean ====
section
/-! DEFINITION. The state of the machine, all of spec/10_state.md, as plain data; the reasons a step can stop; and the
state right after reset (spec/10_state.md rule R35). -/

namespace Sys2Proof.Machine

/-- Why the MODEL stops with a fault: never. The spec's own faults (spec/60_exceptions.md rule R132) are next states in
which a cause is recorded (rule R133: "the engine is idle and waits for the next command"), so no constructor is needed
and no meaning can raise one (notes/assumptions/13.md). -/
inductive Fault : Type
  deriving DecidableEq, Repr

/-- Why the MODEL refuses an instruction. -/
inductive Refusal where
  /-- An instruction without a meaning, raised by an arm of `exec` and by nothing else; safe. No arm raises it: every
  command has its meaning. -/
  | notModelled (mnemonic : String)
  deriving DecidableEq, Repr

/-- The sequencing state (R20): `IDLE`, or `BUSY(cmd, k)` with the accepted command word and the round count latched
with it. -/
inductive Phase where
  | idle
  | busy (cmd : W32) (k : W32)
  deriving DecidableEq, Repr

/-- The six fault causes (R132). -/
inductive Cause where
  /-- ENC: the symbol code is not below the modulus (R138). -/
  | precond
  /-- A modulus register holds 0 (R139). -/
  | modzero
  /-- MODINV: the argument has no inverse (R140). -/
  | noinv
  /-- A parameter is out of its range (R141). -/
  | badparam
  /-- The command word matches no row of the opcode map (R142). -/
  | illcmd
  /-- A refused host access (R143). -/
  | access
  deriving DecidableEq, Repr

/-- What the environment does in one step (R6, R10): the moves of the host and of the random source, and the steps it
leaves to the engine. The list of them is the model's input (notes/assumptions/2.md). -/
inductive Event where
  /-- The engine takes a step (R6, R70). -/
  | turn
  /-- `MemRead(addr, 4)` (R42). -/
  | hostRead (addr : Nat)
  /-- `MemWrite(addr, 4, v)` (R43). -/
  | hostWrite (addr : Nat) (v : W32)
  /-- The host writes `v` to `ERR` in the very step in which the engine takes its own (R28, last but two sentence;
  notes/assumptions/8.md). -/
  | ackWithTurn (v : W32)
  /-- The random source offers the next word of its stream (R52). -/
  | offer (w : Rnd)
  /-- The input `rst` takes this level at a rising clock edge (R151). -/
  | rst (level : Bool)
  deriving DecidableEq, Repr

/-- The state of the machine. -/
structure State where
  /-- The parameter `W` (R5), an input of the model as `env` is (R6, R34): no step changes it (notes/assumptions/1.md). -/
  width : Config.Width
  /-- `B[0]` … `B[15]`, each below `2^W` (R7, R13). -/
  b : Vector Nat 16
  /-- `HI`, below `2^W` (R7, R16). -/
  hi : Nat
  /-- Flag `Z` (R17). -/
  z : Bool
  /-- Flag `C` (R17). -/
  c : Bool
  /-- Flag `P` (R17). -/
  p : Bool
  /-- The phase (R20); `STATUS.BUSY` is its view. -/
  phase : Phase
  /-- `CTRL.IE` (R24). -/
  ie : Bool
  /-- `STATUS.DONE` (R25). -/
  done : Bool
  /-- `CMD`, the last accepted command word (R26). -/
  cmd : W32
  /-- `ROUNDS` (R27). -/
  rounds : W32
  /-- `ERR` (R28). -/
  err : W32
  /-- `ECAUSE` (R29). -/
  ecause : W32
  /-- `EINFO` (R30). -/
  einfo : W32
  /-- How many random words the engine has consumed (R33). -/
  rpos : Nat
  /-- The words of the random stream that the source has offered and the engine has not taken, the next one first
  (R52, R53; notes/assumptions/3.md). -/
  offered : List Rnd
  /-- Scratch (R32 (b)): the words that the command now running has taken so far, the first one first
  (notes/assumptions/4.md). -/
  drawn : List Rnd
  /-- The level of the input `rst` (R39, R151, R152; notes/assumptions/7.md). -/
  rst : Bool
  /-- `h_rdata`: the word that the latest host read returned (R39, R42; notes/assumptions/6.md). -/
  rdata : W32
  /-- What the environment does next, the model's own input (notes/assumptions/2.md). -/
  env : List Event
  deriving DecidableEq, Repr

/-- The machine right after reset (R35, R155). The fields that R35 does not name (`width`, `rpos`, `offered`,
`rst`, `rdata`, `env`) have the values of notes/assumptions/1.md, 2.md, 3.md, 6.md and 7.md. -/
def State.reset : State where
  width := Config.thisWidth
  b := Vector.replicate 16 0
  hi := 0
  z := false
  c := false
  p := false
  phase := .idle
  ie := false
  done := false
  cmd := 0#32
  rounds := Config.roundsReset
  err := 0#32
  ecause := 0#32
  einfo := 0#32
  rpos := 0
  offered := []
  drawn := []
  rst := false
  rdata := 0#32
  env := []

end Sys2Proof.Machine
end

