-- ==== Sys2Proof/Machine/Flags.lean ====
section
/-! DEFINITION. Every flag computation of spec/10_state.md rule R18, and the writes of the three flags (rule R17). -/

namespace Sys2Proof.Machine

/-- `Z <- v` (R8). -/
def State.setZ (s : State) (v : Bool) : State := { s with z := v }

/-- `C <- v` (R8). -/
def State.setC (s : State) (v : Bool) : State := { s with c := v }

/-- `P <- v` (R8). -/
def State.setP (s : State) (v : Bool) : State := { s with p := v }

/-- `Z` of a result: 1 if it is 0 (R18). For MUL the result is the full 2W-bit product (R80). -/
def zeroFlag (result : Nat) : Bool := result == 0

/-- `C` of ADD: `s div 2^W` of the exact sum, 0 or 1 (R77). -/
def carryFlag (w : Config.Width) (sum : Nat) : Bool := sum / 2 ^ w.bits != 0

/-- `C` of SUB: the borrow, 1 if `a < b` (R78). -/
def borrowFlag (a b : Nat) : Bool := decide (a < b)

/-- `C` of MUL: the product does not fit in `W` bits (R80). -/
def wideFlag (w : Config.Width) (product : Nat) : Bool := product / 2 ^ w.bits != 0

/-- `Z` of CMP: equal (R79). -/
def equalFlag (a b : Nat) : Bool := a == b

/-- `C` of CMP: less, unsigned (R79). -/
def lessFlag (a b : Nat) : Bool := decide (a < b)

end Sys2Proof.Machine
end

