-- ==== Sys2Proof/Machine/Operands.lean ====
section
/-! DEFINITION. Every operand form: a register operand (spec/30_encoding.md rule R58), the immediate (rule R60), the
wide dividend of MODW (spec/40_bigint.md rule R82), and what the phase holds of the running command (spec/10_state.md
rule R20). Operands are read as natural numbers, computed with exactly, and narrowed when written. -/

namespace Sys2Proof.Machine

/-- `B[r]`, an unsigned integer below `2^W` (R8, R13): a register shows `W` bits of its field, which are all of it in
every state that meets the invariant. -/
def State.val (s : State) (r : Reg) : Nat := s.b[r.val] % 2 ^ s.width.bits

/-- `HI`, an unsigned integer below `2^W` (R8, R16). -/
def State.hiVal (s : State) : Nat := s.hi % 2 ^ s.width.bits

/-- `HI · 2^W + B[r]`, the 2W-bit dividend of MODW (R82). -/
def State.wideVal (s : State) (r : Reg) : Nat := s.hiVal * 2 ^ s.width.bits + s.val r

/-- `zext_W(imm16)`, the immediate of LDI (R60, R73). -/
def zextImm (imm16 : Nat) : Nat := imm16

/-- `bits = imm16`, the immediate as a bit count (R60). -/
def bitCount (imm16 : Nat) : Nat := imm16

/-- The engine is executing a command: `STATUS.BUSY` (R20, R25). -/
def State.busy (s : State) : Bool :=
  match s.phase with
  | .idle => false
  | .busy _ _ => true

/-- The command word of the phase (R20). A meaning runs only in phase BUSY (R70), so the value for IDLE is never read
by a step (notes/assumptions/10.md). -/
def State.acceptedCmd (s : State) : W32 :=
  match s.phase with
  | .idle => s.cmd
  | .busy cmd _ => cmd

/-- The round count latched with the command (R20, R27). The value for IDLE is never read by a step
(notes/assumptions/10.md). -/
def State.latchedRounds (s : State) : Nat :=
  match s.phase with
  | .idle => s.rounds.toNat
  | .busy _ k => k.toNat

end Sys2Proof.Machine
end

