-- ==== Sys2Proof/Machine/Ops.lean ====
section
/-! DEFINITION. The named operations that the meanings share: register writes, the completion step (spec/30_encoding.md
rule R70), fault entry and its acknowledgement (spec/60_exceptions.md rules R133, R134), acceptance of a command
(spec/30_encoding.md rule R70), the taking of random words (spec/20_memory.md rules R52, R53), and reset
(spec/70_reset_and_hazards.md rules R151 to R154). -/

namespace Sys2Proof.Machine

/-! ### Register writes -/

/-- `B[r] <- v`, narrowed to `W` bits (R8). -/
def State.setReg (s : State) (r : Reg) (v : Nat) : State :=
  { s with b := s.b.set r.val (v % 2 ^ s.width.bits) r.isLt }

/-- `HI <- v`, narrowed to `W` bits (R8). -/
def State.setHi (s : State) (v : Nat) : State := { s with hi := v % 2 ^ s.width.bits }

/-! ### The completion step (R70) -/

/-- What every command's end does beside its own writes: `BUSY <- 0`, `DONE <- 1`, phase IDLE (R70, R133). The words
taken by the command are scratch and are dropped (R32). -/
def State.finish (s : State) : State := { s with phase := .idle, done := true, drawn := [] }

/-- The command completes, with the results already written in `s` (R10, R70). -/
def complete (s : State) : Host.Outcome State Fault Refusal := .next s.finish

/-! ### Fault entry and acknowledgement -/

/-- The code of a cause: its bit number in `ERR` and its value in `ECAUSE` (R132). -/
def Cause.code : Cause → Nat
  | .precond => 1
  | .modzero => 2
  | .noinv => 3
  | .badparam => 4
  | .illcmd => 5
  | .access => 6

/-- The bit of a cause in `ERR` (R28). -/
def Cause.bit (c : Cause) : W32 := 1#32 <<< c.code

/-- Recording a fault: its `ERR` bit is set and none is cleared, `ECAUSE` and `EINFO` are overwritten (R28, R29, R30,
R135). -/
def State.record (s : State) (c : Cause) (info : W32) : State :=
  { s with err := s.err ||| c.bit, ecause := BitVec.ofNat 32 c.code, einfo := info }

/-- Fault entry of a command fault (R133): the cause and the command word are recorded, the command ends, and no
register and no flag is written. -/
def State.raise (s : State) (c : Cause) : State := (s.record c s.acceptedCmd).finish

/-- `raise <Fault>(cmd)` (R8, R133). The engine is idle afterwards: control goes nowhere. -/
def fault (c : Cause) (s : State) : Host.Outcome State Fault Refusal := .next (s.raise c)

/-- The return from a fault (R134): there is no instruction for it; the host writes 1 to the cause's bit of `ERR`
(R28: `ERR <- ERR AND NOT v` on bits 1 to 6). -/
def State.clearErr (s : State) (v : W32) : State :=
  { s with err := s.err &&& ~~~(v &&& 0x7E#32) }

/-! ### Acceptance (R70) -/

/-- A host write of `v` to `CMD` while IDLE: the last accepted command is `v`, the current `ROUNDS` is latched,
`BUSY <- 1`, `DONE <- 0` (R26, R70). -/
def State.accept (s : State) (v : W32) : State :=
  { s with cmd := v, phase := .busy v s.rounds, done := false, drawn := [] }

/-! ### Random words (R52, R53) -/

/-- A draw procedure over the words on hand: the value and the words left, or nothing when it asks for a word more than
there are. -/
abbrev Draw (α : Type) := List Rnd → Option (α × List Rnd)

/-- The source offers a word: it is last in line (R52). -/
def State.offerWord (s : State) (w : Rnd) : State := { s with offered := s.offered ++ [w] }

/-- The words on hand for the running command: those it has taken, then those on offer (R52, R53). -/
def State.onHand (s : State) : List Rnd := s.drawn ++ s.offered

/-- The engine waits inside `RndWord()`: it has taken every word on offer, the command stays BUSY and nothing else
happens (R53, R160). -/
def State.hold (s : State) : State :=
  { s with drawn := s.drawn ++ s.offered, offered := [], rpos := s.rpos + s.offered.length }

/-- How many of the words on offer a draw has taken that leaves `rest` of the words on hand. -/
def State.fresh (s : State) (rest : List Rnd) : Nat :=
  s.onHand.length - rest.length - s.drawn.length

/-- The words that a completed draw has taken are consumed: `rpos` counts them and a word not taken stays first in line
(R33, R52). -/
def State.consume (s : State) (rest : List Rnd) : State :=
  { s with offered := s.offered.drop (s.fresh rest), rpos := s.rpos + s.fresh rest }

/-- A command whose evaluation draws: it completes with `write` applied to the drawn value, or holds (R53, R70). -/
def drawThen {α : Type} (s : State) (d : Draw α) (write : α → State → State) :
    Host.Outcome State Fault Refusal :=
  match d s.onHand with
  | some (a, rest) => complete (write a (s.consume rest))
  | none => .next s.hold

/-! ### Reset (R151 to R154) -/

/-- Reset: every piece of architectural state takes its value of R35 and the running command is abandoned (R152, R153);
the random stream and the position in it are left alone (R154), and so are the model's own inputs. -/
def State.applyReset (s : State) : State :=
  { State.reset with
    width := s.width, rpos := s.rpos, offered := s.offered, rst := s.rst, rdata := s.rdata, env := s.env }

/-- A rising clock edge with `rst` at this level (R151): 1 resets the engine and holds it in reset, 0 releases it. -/
def State.setRst (s : State) (level : Bool) : State :=
  if level then { s.applyReset with rst := true } else { s with rst := false }

/-! ### Outputs -/

/-- The interrupt output: `irq = CTRL.IE AND STATUS.DONE` (R145). -/
def State.irq (s : State) : Bool := s.ie && s.done

/-- `rnd_valid`: the source offers a word (R39). -/
def State.rndValid (s : State) : Bool := !s.offered.isEmpty

/-- `rnd_data`: the offered word (R39). -/
def State.rndData (s : State) : Option Rnd := s.offered.head?

end Sys2Proof.Machine
end

