-- ==== Sys2Proof/Machine/Bigint.lean ====
section
/-! DEFINITION. Moves, adder, multiplier and reducer: NOP LDI MOV MFHI MTHI ADD SUB CMP MUL MOD MODW
(spec/40_bigint.md). -/

namespace Sys2Proof.Machine

/-! ### Moves (R72 to R76) -/

/-- NOP (R72). -/
def execNop (s : State) : Host.Outcome State Fault Refusal := complete s

/-- LDI: `B[rd] <- zext_W(imm16)`, no flag (R73). -/
def execLdi (rd : Reg) (imm16 : Nat) (s : State) : Host.Outcome State Fault Refusal :=
  complete (s.setReg rd (zextImm imm16))

/-- MOV: `B[rd] <- B[ra]`, no flag (R74). -/
def execMov (rd ra : Reg) (s : State) : Host.Outcome State Fault Refusal :=
  complete (s.setReg rd (s.val ra))

/-- MFHI: `B[rd] <- HI`, no flag (R75). -/
def execMfhi (rd : Reg) (s : State) : Host.Outcome State Fault Refusal :=
  complete (s.setReg rd s.hiVal)

/-- MTHI: `HI <- B[ra]`, no flag (R76). -/
def execMthi (ra : Reg) (s : State) : Host.Outcome State Fault Refusal :=
  complete (s.setHi (s.val ra))

/-! ### Add, subtract, compare (R77 to R79) -/

/-- The sum modulo `2^W` (R77). -/
def addResult (w : Config.Width) (a b : Nat) : Nat := (a + b) % 2 ^ w.bits

/-- The difference, plus `2^W` on a borrow (R78). -/
def subResult (w : Config.Width) (a b : Nat) : Nat := if b ≤ a then a - b else a + 2 ^ w.bits - b

/-- ADD (R77). -/
def execAdd (rd ra rb : Reg) (s : State) : Host.Outcome State Fault Refusal :=
  complete (((s.setReg rd (addResult s.width (s.val ra) (s.val rb))).setC
    (carryFlag s.width (s.val ra + s.val rb))).setZ (zeroFlag (addResult s.width (s.val ra) (s.val rb))))

/-- SUB (R78). -/
def execSub (rd ra rb : Reg) (s : State) : Host.Outcome State Fault Refusal :=
  complete (((s.setReg rd (subResult s.width (s.val ra) (s.val rb))).setC
    (borrowFlag (s.val ra) (s.val rb))).setZ (zeroFlag (subResult s.width (s.val ra) (s.val rb))))

/-- CMP: no register is written (R79). -/
def execCmp (ra rb : Reg) (s : State) : Host.Outcome State Fault Refusal :=
  complete ((s.setZ (equalFlag (s.val ra) (s.val rb))).setC (lessFlag (s.val ra) (s.val rb)))

/-! ### The multiplier (R80) -/

/-- MUL: the exact 2W-bit product, its lower half in `B[rd]`, its upper half in `HI` (R80). -/
def execMul (rd ra rb : Reg) (s : State) : Host.Outcome State Fault Refusal :=
  complete ((((s.setReg rd (s.val ra * s.val rb % 2 ^ s.width.bits)).setHi
    (s.val ra * s.val rb / 2 ^ s.width.bits)).setZ (zeroFlag (s.val ra * s.val rb))).setC
    (wideFlag s.width (s.val ra * s.val rb)))

/-! ### The reducer (R81, R82) -/

/-- The common end of the commands whose one result goes to `B[rd]` with `Z` from it (R18). -/
def State.result (s : State) (rd : Reg) (r : Nat) : State := (s.setReg rd r).setZ (zeroFlag r)

/-- MOD: MODZERO for a zero modulus (R81). -/
def execMod (rd ra rc : Reg) (s : State) : Host.Outcome State Fault Refusal :=
  if s.val rc = 0 then fault .modzero s
  else complete (s.result rd (s.val ra % s.val rc))

/-- MODW: the dividend is `HI · 2^W + B[ra]`; `HI` is not changed (R82). -/
def execModw (rd ra rc : Reg) (s : State) : Host.Outcome State Fault Refusal :=
  if s.val rc = 0 then fault .modzero s
  else complete (s.result rd (s.wideVal ra % s.val rc))

end Sys2Proof.Machine
end

