-- ==== Sys2Proof/Machine/Euclid.lean ====
section
/-! DEFINITION. The Euclidean unit: GCD MODINV (spec/44_euclid.md). -/

namespace Sys2Proof.Machine

/-- The loop of R107: while `b != 0`, replace `(a, b)` with `(b, a mod b)`. The first argument counts the passes on
hand; `b` of them are enough, since `b` strictly decreases. -/
def gcdLoop : Nat → Nat → Nat → Nat
  | 0, a, _ => a
  | n + 1, a, b => if b = 0 then a else gcdLoop n b (a % b)

/-- `Gcd(a, b)` (R107). -/
def gcdOf (a b : Nat) : Nat := gcdLoop b a b

/-- The loop of R111 on `(a, m)` and the signed coefficients `(x, y)`: none where it raises NOINV, otherwise the `a`
and `x` it ends with. The first argument counts the passes on hand; `m + 1` of them are enough, since `m` strictly
decreases. -/
def bezoutLoop : Nat → Nat → Nat → Int → Int → Option (Nat × Int)
  | 0, _, _, _, _ => none
  | n + 1, a, m, x, y =>
    if a ≤ 1 then some (a, x)
    else if m = 0 then none
    else bezoutLoop n m (a % m) y (x - (a / m : Nat) * y)

/-- The reference sequence of R111 for `m >= 1`: none where it raises NOINV. -/
def modInvSeq (a m : Nat) : Option Nat :=
  if m = 1 then some 0
  else match bezoutLoop (m + 2) a m 1 0 with
    | none => none
    | some (a', x) =>
      if a' = 0 then none
      else some (if x < 0 then x + m else x).toNat

/-- `ModInv(a, m)` (R109, R110). It is used only where the inverse exists: MODINV has faulted before (R112) and KEYGEN
inverts only an `e` coprime to `φ` (R117), so the 0 of the other case is never read (notes/assumptions/11.md). -/
def modInv (a m : Nat) : Nat := (modInvSeq a m).getD 0

/-- GCD: no fault for any operands (R108). -/
def execGcd (rd ra rb : Reg) (s : State) : Host.Outcome State Fault Refusal :=
  complete (s.result rd (gcdOf (s.val ra) (s.val rb)))

/-- MODINV: MODZERO is tested first, then NOINV (R112). -/
def execModinv (rd ra rc : Reg) (s : State) : Host.Outcome State Fault Refusal :=
  if s.val rc = 0 then fault .modzero s
  else if s.val rc = 1 then complete (s.result rd 0)
  else if gcdOf (s.val ra) (s.val rc) ≠ 1 then fault .noinv s
  else complete (s.result rd (modInv (s.val ra) (s.val rc)))

end Sys2Proof.Machine
end

