-- ==== Sys2Proof/Machine/Modexp.lean ====
section
/-! DEFINITION. The modular-exponentiation engine: MULMOD MODEXP (spec/41_modexp.md). -/

namespace Sys2Proof.Machine

/-- `bitlen(v)`: the number of significant bits, `bitlen(0) = 0` (R8). -/
def bitlen (v : Nat) : Nat := if v = 0 then 0 else Nat.log2 v + 1

/-- The loop of R86 on `r`, `s`, `e`: while `e > 0`, multiply `r` by `s` at a 1 bit, halve `e`, square `s`, all modulo
`m`. The first argument counts the passes on hand; `bitlen(e)` of them are enough. -/
def modExpLoop (m : Nat) : Nat → Nat → Nat → Nat → Nat
  | 0, r, _, _ => r
  | n + 1, r, s, e =>
    if e = 0 then r
    else modExpLoop m n (if e % 2 = 1 then r * s % m else r) (s * s % m) (e / 2)

/-- `ModExp(b, e, m)` for `m > 0`, by right-to-left square-and-multiply (R85, R86). -/
def modExp (b e m : Nat) : Nat := modExpLoop m (bitlen e) (1 % m) (b % m) e

/-- MULMOD: the product is exact over 2W bits, then reduced; `HI` is not written (R87). -/
def execMulmod (rd ra rb rc : Reg) (s : State) : Host.Outcome State Fault Refusal :=
  if s.val rc = 0 then fault .modzero s
  else complete (s.result rd (s.val ra * s.val rb % s.val rc))

/-- MODEXP: base `B[ra]`, exponent `B[rb]`, modulus `B[rc]` (R89). -/
def execModexp (rd ra rb rc : Reg) (s : State) : Host.Outcome State Fault Refusal :=
  if s.val rc = 0 then fault .modzero s
  else complete (s.result rd (modExp (s.val ra) (s.val rb) (s.val rc)))

end Sys2Proof.Machine
end

