-- ==== Sys2Proof/Machine/Primality.lean ====
section
/-! DEFINITION. Random draws and the Miller–Rabin tester: RANDBITS RANDRANGE MRTEST (spec/42_primality.md). A draw is a
function of the words on hand that answers nothing when it needs a word more (spec/20_memory.md rule R53). -/

namespace Sys2Proof.Machine

/-! ### Draw procedures (R91, R92) -/

/-- The words of a `DrawBits(L)`: `(L + 31) div 32` (R91). -/
def wordCount (bits : Nat) : Nat := (bits + 31) / 32

/-- The integer of a list of words, the first one least significant (R91). -/
def wordsValue : List Rnd → Nat
  | [] => 0
  | w :: ws => w.toNat + 2 ^ 32 * wordsValue ws

/-- `DrawBits(L)`: the excess high bits of the last word are dropped (R91). -/
def drawBits (bits : Nat) : Draw Nat := fun ws =>
  if ws.length < wordCount bits then none
  else some (wordsValue (ws.take (wordCount bits)) % 2 ^ bits, ws.drop (wordCount bits))

/-- The loop of `DrawRange`: a value above `span` is rejected and a fresh one is drawn (R92). The first argument counts
the passes on hand; one more than the words on hand are enough, since a rejected pass takes at least one word, so no
pass is ever cut off (notes/assumptions/18.md). -/
def rangeLoop (lo span : Nat) : Nat → Draw Nat
  | 0, _ => none
  | n + 1, ws =>
    match drawBits (bitlen span) ws with
    | none => none
    | some (r, rest) => if r ≤ span then some (lo + r, rest) else rangeLoop lo span n rest

/-- `DrawRange(lo, hi)` for `lo <= hi` (R92). -/
def drawRange (lo hi : Nat) : Draw Nat := fun ws => rangeLoop lo (hi - lo) (ws.length + 1) ws

/-! ### The test (R95 to R97) -/

/-- Repeated halving of `d`, counted in `s` (R96). The first argument counts the halvings on hand. -/
def halve : Nat → Nat → Nat → Nat × Nat
  | 0, s, d => (s, d)
  | n + 1, s, d => if d % 2 = 0 then halve n (s + 1) (d / 2) else (s, d)

/-- `n − 1 = 2^s · d` with `d` odd: the pair `(s, d)` (R96). -/
def factorPred (n : Nat) : Nat × Nat := halve (n - 1) 0 (n - 1)

/-- At most `count` squarings of `x` modulo `n`: some square was `n − 1` (R97). -/
def squaresToMinusOne (n : Nat) : Nat → Nat → Bool
  | 0, _ => false
  | count + 1, x => if x * x % n = n - 1 then true else squaresToMinusOne n count (x * x % n)

/-- One round with witness `a`: it passes (R97). -/
def roundPasses (n s d a : Nat) : Bool :=
  if modExp a d n = 1 ∨ modExp a d n = n - 1 then true
  else squaresToMinusOne n (s - 1) (modExp a d n)

/-- `repeat k times` (R97): one witness a round, drawn at the start of the round; the first failing round ends the test
and draws no further witness. -/
def mrRounds (n s d : Nat) : Nat → Draw Bool
  | 0, ws => some (true, ws)
  | k + 1, ws =>
    match drawRange 2 (n - 2) ws with
    | none => none
    | some (a, rest) => if roundPasses n s d a then mrRounds n s d k rest else some (false, rest)

/-- `MillerRabin(n, k)` (R95, R97): the fast paths in their order, then the rounds. -/
def millerRabin (n k : Nat) : Draw Bool := fun ws =>
  if n ≤ 1 ∨ n = 4 then some (false, ws)
  else if n = 2 ∨ n = 3 then some (true, ws)
  else if n % 2 = 0 then some (false, ws)
  else mrRounds n (factorPred n).1 (factorPred n).2 k ws

/-! ### Commands -/

/-- RANDBITS: BADPARAM before any draw (R93). -/
def execRandbits (rd : Reg) (imm16 : Nat) (s : State) : Host.Outcome State Fault Refusal :=
  if s.width.bits < bitCount imm16 then fault .badparam s
  else drawThen s (drawBits (bitCount imm16)) fun r t => t.result rd r

/-- RANDRANGE: BADPARAM before any draw (R94). -/
def execRandrange (rd ra rb : Reg) (s : State) : Host.Outcome State Fault Refusal :=
  if s.val rb < s.val ra then fault .badparam s
  else drawThen s (drawRange (s.val ra) (s.val rb)) fun r t => t.result rd r

/-- MRTEST: only `P` is written; the round count is the latched one (R99). -/
def execMrtest (ra : Reg) (s : State) : Host.Outcome State Fault Refusal :=
  drawThen s (millerRabin (s.val ra) s.latchedRounds) fun v t => t.setP v

end Sys2Proof.Machine
end

