-- ==== Sys2Proof/Machine/Primegen.lean ====
section
/-! DEFINITION. The probable-prime generator: PRIMEGEN (spec/43_primegen.md). -/

namespace Sys2Proof.Machine

/-- `c OR 2^(bits − 1) OR 1`: top bit and bottom bit forced to 1 (R102). -/
def forceEnds (bits c : Nat) : Nat := (c ||| 2 ^ (bits - 1)) ||| 1

/-- The loop of `PrimeGen` (R102): a candidate, its test, and again until one passes. The first argument counts the
candidates on hand; one more than the words on hand are enough, since a candidate of at least one bit takes at least one
word, so the loop has no cap (R105, notes/assumptions/18.md). -/
def primeLoop (bits k : Nat) : Nat → Draw Nat
  | 0, _ => none
  | n + 1, ws =>
    match drawBits bits ws with
    | none => none
    | some (c, rest) =>
      match millerRabin (forceEnds bits c) k rest with
      | none => none
      | some (true, rest') => some (forceEnds bits c, rest')
      | some (false, rest') => primeLoop bits k n rest'

/-- `PrimeGen(bits, k)` for `bits >= 2` (R102). -/
def primeGen (bits k : Nat) : Draw Nat := fun ws => primeLoop bits k (ws.length + 1) ws

/-- PRIMEGEN: BADPARAM before any draw; `P <- 1` (R103, R104). -/
def execPrimegen (rd : Reg) (imm16 : Nat) (s : State) : Host.Outcome State Fault Refusal :=
  if bitCount imm16 < 2 ∨ s.width.bits < bitCount imm16 then fault .badparam s
  else drawThen s (primeGen (bitCount imm16) s.latchedRounds) fun c t => (t.setReg rd c).setP true

end Sys2Proof.Machine
end

