-- ==== Sys2Proof/Machine/Keypair.lean ====
section
/-! DEFINITION. Key generation and the symbol cipher: KEYGEN ENC (spec/45_keypair_cipher.md). -/

namespace Sys2Proof.Machine

/-- `q`: `PrimeGen(h, k)` again until it differs from `p` (R114). The first argument counts the primes on hand; one more
than the words on hand are enough (notes/assumptions/18.md). -/
def otherPrimeLoop (h k p : Nat) : Nat → Draw Nat
  | 0, _ => none
  | n + 1, ws =>
    match primeGen h k ws with
    | none => none
    | some (q, rest) => if q = p then otherPrimeLoop h k p n rest else some (q, rest)

/-- The second prime of R114. -/
def otherPrime (h k p : Nat) : Draw Nat := fun ws => otherPrimeLoop h k p (ws.length + 1) ws

/-- `e`: a draw in `[2, φ−1]` again until it is coprime to `φ` (R116). The first argument counts the draws on hand; one
more than the words on hand are enough for `φ > 3` (notes/assumptions/18.md). -/
def exponentLoop (phi : Nat) : Nat → Draw Nat
  | 0, _ => none
  | n + 1, ws =>
    match drawRange 2 (phi - 1) ws with
    | none => none
    | some (e, rest) => if gcdOf e phi = 1 then some (e, rest) else exponentLoop phi n rest

/-- The public exponent of R116. -/
def publicExponent (phi : Nat) : Draw Nat := fun ws => exponentLoop phi (ws.length + 1) ws

/-- What KEYGEN computes (R118). -/
structure Keys where
  p : Nat
  q : Nat
  n : Nat
  phi : Nat
  e : Nat
  d : Nat
  deriving DecidableEq, Repr

/-- The keys of two primes and a public exponent (R115, R117). -/
def keysOf (p q e : Nat) : Keys where
  p := p
  q := q
  n := p * q
  phi := (p - 1) * (q - 1)
  e := e
  d := modInv e ((p - 1) * (q - 1))

/-- The draws of KEYGEN in their order: `p`, `q`, `e` (R114, R116, R120). -/
def keyGen (h k : Nat) : Draw Keys := fun ws =>
  match primeGen h k ws with
  | none => none
  | some (p, ws1) =>
    match otherPrime h k p ws1 with
    | none => none
    | some (q, ws2) =>
      match publicExponent ((p - 1) * (q - 1)) ws2 with
      | none => none
      | some (e, ws3) => some (keysOf p q e, ws3)

/-- The six registers of KEYGEN (R118, R14). -/
def State.setKeys (s : State) (y : Keys) : State :=
  (((((s.setReg 8 y.p).setReg 9 y.q).setReg 10 y.n).setReg 11 y.phi).setReg 12 y.e).setReg 13 y.d

/-- `h = bits div 2`, rounded down (R119). -/
def halfBits (imm16 : Nat) : Nat := bitCount imm16 / 2

/-- KEYGEN: BADPARAM before any draw; six registers and `P <- 1` in the completion step (R118, R119). -/
def execKeygen (imm16 : Nat) (s : State) : Host.Outcome State Fault Refusal :=
  if halfBits imm16 < 3 ∨ s.width.bits < 2 * halfBits imm16 then fault .badparam s
  else drawThen s (keyGen (halfBits imm16) s.latchedRounds) fun y t => (t.setKeys y).setP true

/-- ENC: PRECOND is checked before any computation, also for `n = 0` (R122). -/
def execEnc (rd ra rb rc : Reg) (s : State) : Host.Outcome State Fault Refusal :=
  if s.val rc ≤ s.val ra then fault .precond s
  else complete (s.result rd (modExp (s.val ra) (s.val rb) (s.val rc)))

end Sys2Proof.Machine
end

