-- ==== Sys2Proof/Machine/Dispatch.lean ====
section
/-! DEFINITION. One arm a command: the meaning of every constructor of Instr (spec/30_encoding.md rule R61, column
"semantics"). -/

namespace Sys2Proof.Machine

def exec (i : Instr) (s : State) : Host.Outcome State Fault Refusal :=
  match i with
  | .nop => Sys2Proof.Machine.execNop s
  | .ldi rd imm16 => Sys2Proof.Machine.execLdi rd imm16 s
  | .mov rd ra => Sys2Proof.Machine.execMov rd ra s
  | .mfhi rd => Sys2Proof.Machine.execMfhi rd s
  | .mthi ra => Sys2Proof.Machine.execMthi ra s
  | .add rd ra rb => Sys2Proof.Machine.execAdd rd ra rb s
  | .sub rd ra rb => Sys2Proof.Machine.execSub rd ra rb s
  | .cmp ra rb => Sys2Proof.Machine.execCmp ra rb s
  | .mul rd ra rb => Sys2Proof.Machine.execMul rd ra rb s
  | .mod rd ra rc => Sys2Proof.Machine.execMod rd ra rc s
  | .modw rd ra rc => Sys2Proof.Machine.execModw rd ra rc s
  | .mulmod rd ra rb rc => Sys2Proof.Machine.execMulmod rd ra rb rc s
  | .modexp rd ra rb rc => Sys2Proof.Machine.execModexp rd ra rb rc s
  | .gcd rd ra rb => Sys2Proof.Machine.execGcd rd ra rb s
  | .modinv rd ra rc => Sys2Proof.Machine.execModinv rd ra rc s
  | .mrtest ra => Sys2Proof.Machine.execMrtest ra s
  | .randbits rd imm16 => Sys2Proof.Machine.execRandbits rd imm16 s
  | .randrange rd ra rb => Sys2Proof.Machine.execRandrange rd ra rb s
  | .primegen rd imm16 => Sys2Proof.Machine.execPrimegen rd imm16 s
  | .keygen imm16 => Sys2Proof.Machine.execKeygen imm16 s
  | .enc rd ra rb rc => Sys2Proof.Machine.execEnc rd ra rb rc s

end Sys2Proof.Machine
end

