-- ==== Sys2Proof/Machine/HostPort.lean ====
section
/-! DEFINITION. The host register window: its map (spec/20_memory.md rule R41), the read and write primitives (rules R42,
R43), refused accesses (rules R46, R47), and the control block's registers (spec/10_state.md rules R21 to R31). -/

namespace Sys2Proof.Machine

/-! ### The parameter `W` at the window (R23, R39) -/

/-- `PARAM`: `W` in bits 15..0, `NREG` in 23..16, `LIMB` in 31..24 (R23). -/
def paramWord (w : Config.Width) : W32 :=
  BitVec.ofNat 32 (w.bits + Config.NREG * 2 ^ 16 + Config.LIMB * 2 ^ 24)

/-- The bits of an address of the window: `bitlen(0x2000 + 17·W/8 − 1)`, 15 for `W = 4096` (R39). -/
def addrBits (w : Config.Width) : Nat := bitlen (Config.BWIN + 17 * w.stride - 1)

/-- What the address lines `h_addr` carry of an address (R39; notes/assumptions/16.md). -/
def State.portAddr (s : State) (a : Nat) : Nat := a % 2 ^ addrBits s.width

/-! ### The map (R21, R41) -/

/-- The nine registers of the control block (R21). -/
inductive CtrlReg where
  | id | param | ctrl | status | cmd | rounds | err | ecause | einfo
  deriving DecidableEq, Repr

/-- A `W`-bit register of the window: `B[i]`, or `HI` at index 16 (R41). -/
inductive WideReg where
  | b (i : Reg)
  | hi
  deriving DecidableEq, Repr

/-- What an address of the window names: a control register, or limb `j` of a `W`-bit register (R41). -/
inductive Loc where
  | ctrl (r : CtrlReg)
  | limb (r : WideReg) (j : Nat)
  deriving DecidableEq, Repr

/-- The control register at a word offset (R21). -/
def ctrlAt : Nat → Option CtrlReg
  | 0 => some .id
  | 1 => some .param
  | 2 => some .ctrl
  | 3 => some .status
  | 4 => some .cmd
  | 5 => some .rounds
  | 6 => some .err
  | 7 => some .ecause
  | 8 => some .einfo
  | _ => none

/-- The `W`-bit register of an index (R41). -/
def wideAt (i : Nat) : Option WideReg :=
  if h : i < 16 then some (.b ⟨i, h⟩) else if i = 16 then some .hi else none

/-- The location at a byte address that is a multiple of 4; none where R41 says unmapped. -/
def locate (w : Config.Width) (a : Nat) : Option Loc :=
  if a < Config.ctrlEnd then (ctrlAt (a / 4)).map .ctrl
  else if a < Config.BWIN then none
  else (wideAt ((a - Config.BWIN) / w.stride)).map fun r =>
    .limb r ((a - Config.BWIN) % w.stride / 4)

/-! ### Refused accesses (R46, R47) -/

/-- While BUSY the host may not read or write a limb, nor write `CMD` (R47 (c)). -/
def Loc.closedWhileBusy (isWrite : Bool) : Loc → Bool
  | .limb _ _ => true
  | .ctrl .cmd => isWrite
  | .ctrl _ => false

/-- An access is refused when it is misaligned, unmapped, or to a location closed while BUSY, tested in this order
(R47). -/
def State.refuses (s : State) (isWrite : Bool) (a : Nat) : Bool :=
  if a % 4 ≠ 0 then true
  else match locate s.width a with
    | none => true
    | some l => s.busy && l.closedWhileBusy isWrite

/-- The ACCESS fault of a refused access, recorded in the access's own step; `BUSY`, `DONE` and the running command are
not affected (R47, R143). -/
def State.refuse (s : State) (a : Nat) : State := s.record .access (BitVec.ofNat 32 a)

/-! ### Limbs (R42, R43, R44) -/

/-- Limb `j` of a register's contents: bits `32j+31..32j` (R42, R44). -/
def getLimb (x : Nat) (j : Nat) : W32 := BitVec.ofNat 32 (x / 2 ^ (32 * j))

/-- `x − x[32j+31:32j]·2^(32j) + v·2^(32j)`: bits `32j+31..32j` replaced by `v`, all other bits kept (R43). -/
def setLimb (x : Nat) (j : Nat) (v : W32) : Nat :=
  x - (getLimb x j).toNat * 2 ^ (32 * j) + v.toNat * 2 ^ (32 * j)

/-- The contents of a `W`-bit register (R13, R16). -/
def State.wide (s : State) : WideReg → Nat
  | .b i => s.val i
  | .hi => s.hiVal

/-- The contents of a `W`-bit register replaced (R43). -/
def State.setWide (s : State) (r : WideReg) (x : Nat) : State :=
  match r with
  | .b i => s.setReg i x
  | .hi => s.setHi x

/-! ### The control block (R21 to R31) -/

/-- One bit at a place of a 32-bit word. -/
def bitAt (v : Bool) (i : Nat) : W32 := (BitVec.ofBool v).setWidth 32 <<< i

/-- `CTRL` as read: bit 0 `IE`, the rest 0 (R24, R31). -/
def State.ctrlWord (s : State) : W32 := bitAt s.ie 0

/-- `STATUS` as read: `BUSY`, `DONE`, `Z`, `C`, `P` at bits 0, 1, 8, 9, 10, the rest 0 (R25). -/
def State.statusWord (s : State) : W32 :=
  bitAt s.busy 0 ||| bitAt s.done 1 ||| bitAt s.z 8 ||| bitAt s.c 9 ||| bitAt s.p 10

/-- A control register as read (R22 to R30). -/
def State.ctrlRead (s : State) : CtrlReg → W32
  | .id => Config.idWord
  | .param => paramWord s.width
  | .ctrl => s.ctrlWord
  | .status => s.statusWord
  | .cmd => s.cmd
  | .rounds => s.rounds
  | .err => s.err
  | .ecause => s.ecause
  | .einfo => s.einfo

/-- A host write to a control register that is not refused (R43): the read-only registers ignore it, `CMD` issues the
command, `STATUS` and `ERR` are write-1-to-clear. -/
def State.ctrlWrite (s : State) (r : CtrlReg) (v : W32) : State :=
  match r with
  | .id => s
  | .param => s
  | .ctrl => { s with ie := v.getLsbD 0 }
  | .status => { s with done := s.done && !v.getLsbD 1 }
  | .cmd => s.accept v
  | .rounds => { s with rounds := v }
  | .err => s.clearErr v
  | .ecause => s
  | .einfo => s

/-! ### The two primitives (R42, R43) -/

/-- The word at a location (R42). -/
def State.locRead (s : State) : Loc → W32
  | .ctrl r => s.ctrlRead r
  | .limb r j => getLimb (s.wide r) j

/-- The word written at a location (R43). -/
def State.locWrite (s : State) (l : Loc) (v : W32) : State :=
  match l with
  | .ctrl r => s.ctrlWrite r v
  | .limb r j => s.setWide r (setLimb (s.wide r) j v)

/-- The word at an address of the window, 0 where nothing is mapped; no access is made (R42). -/
def State.windowWord (s : State) (a : Nat) : W32 :=
  match locate s.width a with
  | none => 0#32
  | some l => s.locRead l

/-- What `MemRead(addr, 4)` returns (R42): 0 if the access is refused or `rst` is held (R47, R152). -/
def State.memRead (s : State) (a : Nat) : W32 :=
  if s.rst then 0#32 else if s.refuses false a then 0#32 else s.windowWord a

/-- A host read (R42): the state changes only by a refused read's ACCESS fault (R47), and `rdata` shows the word
returned. While `rst` is held no fault is recorded (R152). -/
def State.hostRead (s : State) (a : Nat) : State :=
  let t := if s.rst then s else if s.refuses false a then s.refuse a else s
  { t with rdata := s.memRead a }

/-- A host write `MemWrite(addr, 4, v)` (R43): refused writes record ACCESS and write nothing (R47); while `rst` is held
writes have no effect (R152). -/
def State.hostWrite (s : State) (a : Nat) (v : W32) : State :=
  if s.rst then s
  else if s.refuses true a then s.refuse a
  else match locate s.width a with
    | none => s
    | some l => s.locWrite l v

/-! ### Host scripts (R68) -/

/-- The byte address of limb `j` of `B[i]`, of `HI` for `i = 16`: `0x2000 + i·STRIDE + 4j` (R41, R68). -/
def limbAddr (w : Config.Width) (i j : Nat) : Nat := Config.BWIN + i * w.stride + 4 * j

/-- `SETB Bi, v`: one write for each limb, limb 0 first (R68). -/
def setBScript (w : Config.Width) (i : Reg) (v : Nat) : List Event :=
  (List.range w.nlimb).map fun j => .hostWrite (limbAddr w i.val j) (getLimb v j)

/-- `GETB Bi`: one read for each limb, limb 0 first (R68). -/
def getBScript (w : Config.Width) (i : Reg) : List Event :=
  (List.range w.nlimb).map fun j => .hostRead (limbAddr w i.val j)

/-- `CMD <assembler line>`: a write of the command's word to `CMD` (R68). -/
def cmdScript (i : Instr) : List Event := [.hostWrite 0x010 (encode i)]

/-- `WAIT` with this many polls of `STATUS` (R68). The list of host accesses is fixed beforehand
(notes/assumptions/2.md), so the number of polls is an argument; the engine takes a step before each. -/
def waitScript (polls : Nat) : List Event :=
  (List.replicate polls [Event.turn, .hostRead 0x00C]).flatten

end Sys2Proof.Machine
end

