-- ==== Sys2Proof/Machine/Engine.lean ====
section
/-! DEFINITION. The engine's own step (spec/30_encoding.md rule R70) and one step of the environment (spec/00_scope.md
rule R6). -/

namespace Sys2Proof.Machine

/-- Execution of a command word (R70): an illegal word ends at once in ILLCMD, its fields not interpreted (R63, R142);
a legal one has its meaning. -/
def runWord (w : W32) (s : State) : Host.Outcome State Fault Refusal :=
  match decode w with
  | .ok i => exec i s
  | .error _ => fault .illcmd s

/-- The engine takes a step: nothing while `rst` is held (R152) or while IDLE (R149); otherwise the whole evaluation and
the completion step of the accepted command (R70, D33), or a hold on a missing random word (R53). -/
def engineTurn (s : State) : Host.Outcome State Fault Refusal :=
  if s.rst then .next s
  else match s.phase with
    | .idle => .next s
    | .busy w _ => runWord w s

/-- The host's W1C write of `ERR` in the same step as the engine's own: a fault recorded in that step ends set (R28).
While `rst` is held the write has no effect (R152). -/
def ackTurn (v : W32) (s : State) : Host.Outcome State Fault Refusal :=
  engineTurn (if s.rst then s else s.clearErr v)

/-- One move of the environment (R6, R10). A host access has the address that the lines carry (R39). -/
def perform (e : Event) (s : State) : Host.Outcome State Fault Refusal :=
  match e with
  | .turn => engineTurn s
  | .hostRead a => .next (s.hostRead (s.portAddr a))
  | .hostWrite a v => .next (s.hostWrite (s.portAddr a) v)
  | .ackWithTurn v => ackTurn v s
  | .offer w => .next (s.offerWord w)
  | .rst level => .next (s.setRst level)

/-- `rnd_req` (R39): the engine, with no word on offer, would take a step and stay BUSY: it wants a random word. -/
def State.rndReq (s : State) : Bool :=
  match engineTurn { s with offered := [] } with
  | .next t => !s.rst && t.busy
  | _ => false

/-- Issue of a command by other means than the window: acceptance of `v` (R70), and the next step is the engine's. -/
def State.issue (s : State) (v : W32) : State :=
  { s.accept v with rst := false, env := if s.env.isEmpty then [] else .turn :: s.env }

end Sys2Proof.Machine
end

