-- ==== Sys2Proof/Machine/Step.lean ====
section
/-! DEFINITION. One step of the machine: the environment's next move, or the engine's step when the environment has none
left (spec/00_scope.md rule R6, notes/assumptions/2.md). -/

namespace Sys2Proof.Machine

/-- One step: the head of `env` is performed; with `env` empty the engine takes every step (R164). -/
def step (s : State) : Host.Outcome State Fault Refusal :=
  match s.env with
  | [] => engineTurn s
  | e :: rest => perform e { s with env := rest }

/-- `s` just after the acceptance of the command with bits `w` (R70), so that the very next step runs it. The engine
fetches no instruction (R20); the phase holds the command that the next engine step executes
(notes/assumptions/9.md). -/
def State.withFetchWord (s : State) (nbits w : Nat) : State := s.issue (BitVec.ofNat 32 (w % 2 ^ nbits))

end Sys2Proof.Machine
end

