-- ==== Sys2Proof/Safety.lean ====
section
/-! DEFINITION. The terms that claims use: the invariant of the machine (spec/10_state.md rule R37), what a command may
write (rules R15, R16, R18), how a command ends (spec/30_encoding.md rule R70, spec/60_exceptions.md rule R133,
spec/20_memory.md rule R53), and the draw procedures of spec/42_primality.md, 43_primegen.md and 45_keypair_cipher.md as
relations between words, values and words left, written from the rules and not from the machine. -/

namespace Sys2Proof

/-! ### What a command may write (R15, R16, R18) -/

/-- The registers that a command writes when it completes: its destination field, or KEYGEN's six (R15, R118). -/
def Instr.dests : Instr → List Reg
  | .nop => []
  | .ldi rd _ => [rd]
  | .mov rd _ => [rd]
  | .mfhi rd => [rd]
  | .mthi _ => []
  | .add rd _ _ => [rd]
  | .sub rd _ _ => [rd]
  | .cmp _ _ => []
  | .mul rd _ _ => [rd]
  | .mod rd _ _ => [rd]
  | .modw rd _ _ => [rd]
  | .mulmod rd _ _ _ => [rd]
  | .modexp rd _ _ _ => [rd]
  | .gcd rd _ _ => [rd]
  | .modinv rd _ _ => [rd]
  | .mrtest _ => []
  | .randbits rd _ => [rd]
  | .randrange rd _ _ => [rd]
  | .primegen rd _ => [rd]
  | .keygen _ => [8, 9, 10, 11, 12, 13]
  | .enc rd _ _ _ => [rd]

/-- MUL and MTHI write `HI`; no other command does (R16). -/
def Instr.writesHi : Instr → Bool
  | .mul _ _ _ => true
  | .mthi _ => true
  | .nop | .ldi _ _ | .mov _ _ | .mfhi _ | .add _ _ _ | .sub _ _ _ | .cmp _ _ | .mod _ _ _
  | .modw _ _ _ | .mulmod _ _ _ _ | .modexp _ _ _ _ | .gcd _ _ _ | .modinv _ _ _ | .mrtest _
  | .randbits _ _ | .randrange _ _ _ | .primegen _ _ | .keygen _ | .enc _ _ _ _ => false

/-- The commands whose row of R18 writes `Z`. -/
def Instr.writesZ : Instr → Bool
  | .add _ _ _ | .sub _ _ _ | .cmp _ _ | .mul _ _ _ => true
  | .mod _ _ _ | .modw _ _ _ | .mulmod _ _ _ _ | .modexp _ _ _ _ => true
  | .gcd _ _ _ | .modinv _ _ _ | .enc _ _ _ _ => true
  | .randbits _ _ | .randrange _ _ _ => true
  | .nop | .ldi _ _ | .mov _ _ | .mfhi _ | .mthi _ | .mrtest _ | .primegen _ _ | .keygen _ => false

/-- The commands whose row of R18 writes `C`. -/
def Instr.writesC : Instr → Bool
  | .add _ _ _ | .sub _ _ _ | .cmp _ _ | .mul _ _ _ => true
  | .nop | .ldi _ _ | .mov _ _ | .mfhi _ | .mthi _ | .mod _ _ _ | .modw _ _ _ | .mulmod _ _ _ _
  | .modexp _ _ _ _ | .gcd _ _ _ | .modinv _ _ _ | .mrtest _ | .randbits _ _ | .randrange _ _ _
  | .primegen _ _ | .keygen _ | .enc _ _ _ _ => false

/-- The commands whose row of R18 writes `P`. -/
def Instr.writesP : Instr → Bool
  | .mrtest _ | .primegen _ _ | .keygen _ => true
  | .nop | .ldi _ _ | .mov _ _ | .mfhi _ | .mthi _ | .add _ _ _ | .sub _ _ _ | .cmp _ _ | .mul _ _ _
  | .mod _ _ _ | .modw _ _ _ | .mulmod _ _ _ _ | .modexp _ _ _ _ | .gcd _ _ _ | .modinv _ _ _
  | .randbits _ _ | .randrange _ _ _ | .enc _ _ _ _ => false

/-- The commands that draw random words (R52). -/
def Instr.draws : Instr → Bool
  | .randbits _ _ | .randrange _ _ _ | .mrtest _ | .primegen _ _ | .keygen _ => true
  | .nop | .ldi _ _ | .mov _ _ | .mfhi _ | .mthi _ | .add _ _ _ | .sub _ _ _ | .cmp _ _ | .mul _ _ _
  | .mod _ _ _ | .modw _ _ _ | .mulmod _ _ _ _ | .modexp _ _ _ _ | .gcd _ _ _ | .modinv _ _ _
  | .enc _ _ _ _ => false

/-- The commands that raise no fault for any operand values (R132, last sentence but one). -/
def Instr.neverFaults : Instr → Bool
  | .nop | .ldi _ _ | .mov _ _ | .mfhi _ | .mthi _ => true
  | .add _ _ _ | .sub _ _ _ | .cmp _ _ | .mul _ _ _ | .gcd _ _ _ | .mrtest _ => true
  | .mod _ _ _ | .modw _ _ _ | .mulmod _ _ _ _ | .modexp _ _ _ _ | .modinv _ _ _ | .randbits _ _
  | .randrange _ _ _ | .primegen _ _ | .keygen _ | .enc _ _ _ _ => false

end Sys2Proof

namespace Sys2Proof.Machine

/-! ### The invariant (R37) -/

/-- What every step keeps: each `B[i]` and `HI` is below `2^W`, `BUSY AND DONE = 0`, `CMD` is the running command, no
scratch while IDLE, the reserved bits of `ERR` read 0, `ECAUSE <= 6`, no fault is on record while `ECAUSE = 0`, and a
machine held in reset is IDLE (R13, R25, R26, R32, R37, R152). -/
structure State.Inv (s : State) : Prop where
  regs_fit : ∀ r : Reg, s.b[r.val] < 2 ^ s.width.bits
  hi_fits : s.hi < 2 ^ s.width.bits
  busy_not_done : s.busy = true → s.done = false
  cmd_is_running : ∀ w k, s.phase = .busy w k → s.cmd = w
  idle_no_scratch : s.phase = .idle → s.drawn = []
  err_reserved : s.err &&& 0xFFFFFF81#32 = 0#32
  ecause_legal : s.ecause.toNat ≤ 6
  no_cause_no_fault : s.ecause = 0#32 → s.err = 0#32 ∧ s.einfo = 0#32
  reset_idle : s.rst = true → s.phase = .idle

/-- No fault is on record: what a host makes sure of by clearing `ERR` first and checking it last (R135). -/
def State.NoFault (s : State) : Prop := s.err = 0#32

/-! ### How a command ends -/

/-- No command writes these: `CTRL`, `ROUNDS`, `CMD`, the parameter `W`, the input `rst`, and the host's own side (R5,
R15, R21, R26, R27). -/
structure SameControl (s t : State) : Prop where
  width : t.width = s.width
  ie : t.ie = s.ie
  rounds : t.rounds = s.rounds
  cmd : t.cmd = s.cmd
  rst : t.rst = s.rst
  rdata : t.rdata = s.rdata
  env : t.env = s.env

/-- The fault registers are unchanged. -/
structure SameFaults (s t : State) : Prop where
  err : t.err = s.err
  ecause : t.ecause = s.ecause
  einfo : t.einfo = s.einfo

/-- The three flags are unchanged. -/
structure SameFlags (s t : State) : Prop where
  z : t.z = s.z
  c : t.c = s.c
  p : t.p = s.p

/-- No random word is taken. -/
structure SameWords (s t : State) : Prop where
  rpos : t.rpos = s.rpos
  offered : t.offered = s.offered

/-- The words taken are those before `rest`: `rest` stays on offer and `rpos` counts the others (R33, R52). -/
structure TookUpTo (s t : State) (rest : List Rnd) : Prop where
  offered : t.offered = rest
  rpos : t.rpos + rest.length = s.rpos + s.offered.length

/-- Every register but those listed is unchanged. -/
def SameRegsBut (s t : State) (rs : List Reg) : Prop := ∀ r : Reg, r ∉ rs → t.val r = s.val r

/-- The command is over: phase IDLE, `DONE = 1`, no scratch (R70). -/
structure Ended (t : State) : Prop where
  idle : t.phase = .idle
  done : t.done = true
  scratch : t.drawn = []

/-- The command completed: it is over, and neither the control registers nor the fault registers are written (R70). -/
structure Completed (s t : State) : Prop where
  ended : Ended t
  control : SameControl s t
  faults : SameFaults s t

/-- The command `w` ended in the fault with this code: the fault is recorded and nothing else is written (R133). -/
structure FaultedWith (s t : State) (code : Nat) (w : W32) : Prop where
  ended : Ended t
  control : SameControl s t
  flags : SameFlags s t
  words : SameWords s t
  regs : SameRegsBut s t []
  hi : t.hi = s.hi
  err : t.err = s.err ||| BitVec.ofNat 32 (2 ^ code)
  ecause : t.ecause = BitVec.ofNat 32 code
  einfo : t.einfo = w

/-- The running command completes with its results (R10): it ends, and from a clear `ERR` it ends with `ERR` clear. -/
def Completes (i : Instr) (s : State) : Prop :=
  s.busy = true ∧ ∃ t, exec i { s with err := 0#32 } = .next t ∧ Ended t ∧ t.err = 0#32

/-- The engine waits for a random word: every word on offer is taken and nothing else happens (R53). -/
def Held (s t : State) : Prop :=
  t = { s with drawn := s.drawn ++ s.offered, offered := [], rpos := s.rpos + s.offered.length }

/-! ### The draw procedures as relations (R91, R92, R97, R102, R114, R116) -/

/-- `DrawBits(L)`: a group of `(L + 31) div 32` words, bit `j` of the value being bit `j mod 32` of word `j div 32` for
`j < L`, no bit above (R91). -/
structure BitsDraw (bits : Nat) (ws : List Rnd) (v : Nat) (rest : List Rnd) : Prop where
  words : ∃ group : List Rnd, group.length = (bits + 31) / 32 ∧ ws = group ++ rest ∧
    ∀ j, v.testBit j = (decide (j < bits) && (group.getD (j / 32) 0#32).getLsbD (j % 32))

/-- `L = bitlen(v)` (R8). -/
def IsBitlen (v bits : Nat) : Prop := v < 2 ^ bits ∧ ∀ b, v < 2 ^ b → bits ≤ b

/-- `DrawRange(lo, hi)`: a pass above the span is rejected, the first one not above it is accepted (R92). -/
inductive RangeDraw (lo hi : Nat) : List Rnd → Nat → List Rnd → Prop where
  | accept {bits r : Nat} {ws rest : List Rnd} (h : IsBitlen (hi - lo) bits) (d : BitsDraw bits ws r rest)
      (le : r ≤ hi - lo) : RangeDraw lo hi ws (lo + r) rest
  | reject {bits r a : Nat} {ws ws' rest : List Rnd} (h : IsBitlen (hi - lo) bits) (d : BitsDraw bits ws r ws')
      (gt : hi - lo < r) (again : RangeDraw lo hi ws' a rest) : RangeDraw lo hi ws a rest

/-- A Miller–Rabin round with witness `a` passes: `n − 1 = 2^s·d` with `d` odd, and `a^d` is 1 or one of `a^d`, its
square, …, its `(s−1)`-fold square is `n − 1`, modulo `n` (R96, R97). -/
def RoundPasses (n a : Nat) : Prop :=
  ∃ s d, n - 1 = 2 ^ s * d ∧ d % 2 = 1 ∧
    (a ^ d % n = 1 ∨ ∃ r, r < s ∧ a ^ (2 ^ r * d) % n = n - 1)

/-- The rounds of `MillerRabin(n, k)`: the first failing round ends the test (R97). -/
inductive RoundsRun (n : Nat) : Nat → List Rnd → Bool → List Rnd → Prop where
  | none {ws : List Rnd} : RoundsRun n 0 ws true ws
  | pass {k a : Nat} {ws ws' rest : List Rnd} {v : Bool} (d : RangeDraw 2 (n - 2) ws a ws')
      (ok : RoundPasses n a) (next : RoundsRun n k ws' v rest) : RoundsRun n (k + 1) ws v rest
  | fail {k a : Nat} {ws rest : List Rnd} (d : RangeDraw 2 (n - 2) ws a rest)
      (no : ¬ RoundPasses n a) : RoundsRun n (k + 1) ws false rest

/-- `MillerRabin(n, k)`: the fast paths, then the rounds (R95, R97). -/
inductive Verdict (n k : Nat) : List Rnd → Bool → List Rnd → Prop where
  | small {ws : List Rnd} (h : n ≤ 1 ∨ n = 4) : Verdict n k ws false ws
  | prime {ws : List Rnd} (h : n = 2 ∨ n = 3) : Verdict n k ws true ws
  | even {ws : List Rnd} (h : 2 < n) (e : n % 2 = 0) : Verdict n k ws false ws
  | rounds {ws rest : List Rnd} {v : Bool} (h : 5 ≤ n) (o : n % 2 = 1) (r : RoundsRun n k ws v rest) :
      Verdict n k ws v rest

/-- A candidate of `PrimeGen`: the drawn value with its top and bottom bit forced to 1 (R102). -/
def Forced (bits c c' : Nat) : Prop :=
  ∀ j, c'.testBit j = (c.testBit j || decide (j = bits - 1) || decide (j = 0))

/-- `PrimeGen(bits, k)`: candidates are drawn and tested until one passes (R102). -/
inductive PrimeRun (bits k : Nat) : List Rnd → Nat → List Rnd → Prop where
  | found {c c' : Nat} {ws ws' rest : List Rnd} (d : BitsDraw bits ws c ws') (f : Forced bits c c')
      (v : Verdict c' k ws' true rest) : PrimeRun bits k ws c' rest
  | again {c c' x : Nat} {ws ws' ws'' rest : List Rnd} (d : BitsDraw bits ws c ws') (f : Forced bits c c')
      (v : Verdict c' k ws' false ws'') (next : PrimeRun bits k ws'' x rest) : PrimeRun bits k ws x rest

/-- `q`: primes are generated until one differs from `p` (R114). -/
inductive OtherPrimeRun (h k p : Nat) : List Rnd → Nat → List Rnd → Prop where
  | found {q : Nat} {ws rest : List Rnd} (g : PrimeRun h k ws q rest) (ne : q ≠ p) :
      OtherPrimeRun h k p ws q rest
  | again {q : Nat} {ws ws' rest : List Rnd} (g : PrimeRun h k ws p ws')
      (next : OtherPrimeRun h k p ws' q rest) : OtherPrimeRun h k p ws q rest

/-- `e`: values are drawn from `[2, φ−1]` until one is coprime to `φ` (R116). -/
inductive ExponentRun (phi : Nat) : List Rnd → Nat → List Rnd → Prop where
  | found {e : Nat} {ws rest : List Rnd} (d : RangeDraw 2 (phi - 1) ws e rest) (g : Nat.gcd e phi = 1) :
      ExponentRun phi ws e rest
  | again {e e' : Nat} {ws ws' rest : List Rnd} (d : RangeDraw 2 (phi - 1) ws e' ws')
      (g : Nat.gcd e' phi ≠ 1) (next : ExponentRun phi ws' e rest) : ExponentRun phi ws e rest

/-- The draws of KEYGEN in their order (R120): `p`, then `q`, then `e`. -/
def KeyRun (h k : Nat) (ws : List Rnd) (p q e : Nat) (rest : List Rnd) : Prop :=
  ∃ ws1 ws2, PrimeRun h k ws p ws1 ∧ OtherPrimeRun h k p ws1 q ws2 ∧
    ExponentRun ((p - 1) * (q - 1)) ws2 e rest

end Sys2Proof.Machine
end

