-- ==== Sys2Proof/Certificates/Slice0/Obligations.lean ====
section
/-! DEFINITION. The statements for the provers, one `def Obligations.<Name> : Prop` each. Their terms are those of
Safety.lean. `spec` rules are cited by number. -/

open Sys2Proof Sys2Proof.Machine

/-! ### Words and commands -/

/-- A step runs the decoded command: while BUSY, and not held in reset, the engine's step is `exec` of the command that
the accepted word decodes to (R70), with whatever the step takes off `env`. -/
def Obligations.StepRunsTheDecodedCommand : Prop :=
  ∀ (s : State) (w k : W32) (i : Instr), s.rst = false → s.phase = .busy w k → decode w = .ok i →
    (s.env = [] → step s = exec i s) ∧
    (∀ rest, s.env = .turn :: rest → step s = exec i { s with env := rest }) ∧
    (∀ v rest, s.env = .ackWithTurn v :: rest → step s = exec i { s.clearErr v with env := rest })

/-- A placed word is accepted and is the very next thing that runs: the convention of notes/assumptions/9.md. -/
def Obligations.PlacedWordRunsNext : Prop :=
  ∀ (s : State) (w : W32) (i : Instr), decode w = .ok i →
    step (s.withFetchWord 32 w.toNat) = exec i { s.accept w with rst := false }

/-- The words of the examples of R66 decode to the commands they stand for. -/
def Obligations.ExampleWordsDecode : Prop :=
  decode 0x00000000#32 = .ok .nop ∧ decode 0x01000041#32 = .ok (.ldi 0 65) ∧
  decode 0x02210000#32 = .ok (.mov 2 1) ∧ decode 0x10312000#32 = .ok (.add 3 1 2) ∧
  decode 0x1200A000#32 = .ok (.cmp 0 10) ∧ decode 0x14430A00#32 = .ok (.mod 4 3 10) ∧
  decode 0x20412A00#32 = .ok (.mulmod 4 1 2 10) ∧ decode 0x2130CA00#32 = .ok (.modexp 3 0 12 10) ∧
  decode 0x31DC0B00#32 = .ok (.modinv 13 12 11) ∧ decode 0x40010000#32 = .ok (.mrtest 1) ∧
  decode 0x43800400#32 = .ok (.primegen 8 1024) ∧ decode 0x50000800#32 = .ok (.keygen 2048) ∧
  decode 0x5130CA00#32 = .ok (.enc 3 0 12 10)

/-- Decoding the word of a well-formed command gives the command back, for every command and every operand. -/
def Obligations.DecodeOfEncode : Prop :=
  ∀ i : Instr, i.wellFormed = true → decode (encode i) = .ok i

/-- Each word that decodes has one meaning: encoding the command gives the word back, every must-be-zero field 0 (R62),
and the command is well-formed. -/
def Obligations.EncodeOfDecode : Prop :=
  ∀ (w : W32) (i : Instr), decode w = .ok i → i.wellFormed = true ∧ encode i = w

/-- No two rows of the opcode map match the same word (R65). -/
def Obligations.NoTwoRowsMatchOneWord : Prop :=
  ∀ (w : W32) (r r' : Row), r ∈ rows → r' ∈ rows → w &&& r.mask = r.pattern → w &&& r'.mask = r'.pattern →
    r.mnemonic = r'.mnemonic

/-- The decoder calls a word ILLEGAL exactly when it matches no row (R63, R65), and the engine's step on an illegal word
is the fault ILLCMD with the word in `EINFO` and nothing else written (R142), whichever way the engine comes by the
step. The event list is the model's own (notes/assumptions/2.md, DESIGN CHOICE), and so is the order within the step of
an acknowledgement, the bits of `ERR` cleared first and the fault recorded after (notes/assumptions/8.md, DEDUCED from
R28). -/
def Obligations.IllegalWordsEndInIllcmd : Prop :=
  (∀ w : W32, (∃ why, decode w = .error why) ↔ ∀ r ∈ rows, w &&& r.mask ≠ r.pattern) ∧
  ∀ (s : State) (w k : W32) (why : Illegal), s.rst = false → s.phase = .busy w k → decode w = .error why →
    (s.env = [] → ∃ t, step s = .next t ∧ FaultedWith s t 5 w) ∧
    (∀ rest, s.env = .turn :: rest → ∃ t, step s = .next t ∧ FaultedWith { s with env := rest } t 5 w) ∧
    (∀ v rest, s.env = .ackWithTurn v :: rest →
      ∃ t, step s = .next t ∧ FaultedWith { s.clearErr v with env := rest } t 5 w)

/-! ### The whole machine -/

/-- Every step of every state answers a next state. That no rule of the spec stops the machine is the model's deduction
(notes/assumptions/13.md, DEDUCED): the spec's faults, its hold and its hang are modelled as next states. -/
def Obligations.EveryStepAnswersANextState : Prop := ∀ s : State, ∃ t, step s = .next t

/-- The state after reset meets the invariant (R37). -/
def Obligations.ResetStateMeetsTheInvariant : Prop := State.reset.Inv

/-- Every step keeps the invariant (R37), whatever the environment does and whatever the `W` of the machine, which no
step changes (R5). -/
def Obligations.StepKeepsTheInvariant : Prop :=
  ∀ s t : State, s.Inv → step s = .next t → t.Inv ∧ t.width = s.width

/-- Reset, from any state whatever: every register and flag has the value of R35, the running command is abandoned and
its results are not written (R153), and the random stream is where it was (R154). -/
def Obligations.ResetClearsEverythingButTheStream : Prop :=
  ∀ (s : State) (rest : List Event), s.env = .rst true :: rest →
    ∃ t, step s = .next t ∧ (∀ r, t.val r = 0) ∧ t.hi = 0 ∧ t.z = false ∧ t.c = false ∧
      t.p = false ∧ t.phase = .idle ∧ t.ie = false ∧ t.done = false ∧ t.cmd = 0#32 ∧ t.rounds = 5#32 ∧
      t.err = 0#32 ∧ t.ecause = 0#32 ∧ t.einfo = 0#32 ∧ t.statusWord = 0#32 ∧ t.irq = false ∧
      t.drawn = [] ∧ t.rpos = s.rpos ∧ t.offered = s.offered ∧ t.width = s.width ∧ t.env = rest

/-- While `rst` is held host accesses are ignored: writes have no effect, reads return 0, no ACCESS fault is recorded,
and no random word is taken (R152, last sentence); a word that the source offers is last in line (R52). -/
def Obligations.HostAccessesAreIgnoredInReset : Prop :=
  ∀ (s : State) (rest : List Event), s.rst = true →
    (∀ a, s.env = .hostRead a :: rest → step s = .next { s with rdata := 0#32, env := rest }) ∧
    (∀ a v, s.env = .hostWrite a v :: rest → step s = .next { s with env := rest }) ∧
    (s.env = .turn :: rest → step s = .next { s with env := rest }) ∧
    (∀ v, s.env = .ackWithTurn v :: rest → step s = .next { s with env := rest }) ∧
    (s.env = [] → step s = .next s) ∧
    (∀ w, s.env = .offer w :: rest → step s = .next { s with offered := s.offered ++ [w], env := rest })

/-! ### Whole-machine rules about commands -/

/-- A command writes only its destination registers, `HI` only if it is MUL or MTHI, and never a control register nor
anything of the host's side (R15, R16). -/
def Obligations.CommandsWriteOnlyTheirDestinations : Prop :=
  ∀ (i : Instr) (s t : State), exec i s = .next t →
    (∀ r : Reg, r ∉ i.dests → t.val r = s.val r) ∧ (i.writesHi = false → t.hi = s.hi) ∧ SameControl s t

/-- A command writes only the flags of its row of the table (R18). -/
def Obligations.CommandsWriteOnlyTheirFlags : Prop :=
  ∀ (i : Instr) (s t : State), exec i s = .next t →
    (i.writesZ = false → t.z = s.z) ∧ (i.writesC = false → t.c = s.c) ∧ (i.writesP = false → t.p = s.p)

/-- A running command either ends (phase IDLE, `DONE = 1`) or holds on a missing random word with nothing else changed
(R53, R70); a command that draws nothing always ends (R162). -/
def Obligations.CommandsEndOrHold : Prop :=
  ∀ (i : Instr) (s t : State), exec i s = .next t →
    (Ended t ∨ (i.draws = true ∧ Held s t)) ∧ (i.draws = false → SameWords s t)

/-- Faults are precise (R133): the run of an accepted word, legal or not, either leaves the fault registers alone, or
ends in one of the causes 1 to 5 with the cause and the command word recorded and nothing else written: no `B` register,
not `HI`, no flag, no random word. The commands that R132 does not name never fault. -/
def Obligations.FaultsArePrecise : Prop :=
  ∀ (s t : State) (w k : W32), s.phase = .busy w k → runWord w s = .next t →
    (SameFaults s t ∨ ∃ code, 1 ≤ code ∧ code ≤ 5 ∧ FaultedWith s t code w) ∧
    (∀ i, decode w = .ok i → i.neverFaults = true → SameFaults s t)

/-- No command reads a flag (R17): whatever the flags were, the command does the same to everything else, and when it
completes the flags that it writes (R18) come out the same too. -/
def Obligations.NoCommandReadsAFlag : Prop :=
  ∀ (i : Instr) (s t : State) (z c p : Bool), exec i s = .next t →
    ∃ u, exec i { s with z := z, c := c, p := p } = .next u ∧ { u with z := t.z, c := t.c, p := t.p } = t ∧
      (Completes i s → (i.writesZ = true → u.z = t.z) ∧ (i.writesC = true → u.c = t.c) ∧
        (i.writesP = true → u.p = t.p))

/-- The round count is latched (R159): a write of `ROUNDS` after acceptance changes nothing that the running command
does. -/
def Obligations.RoundCountIsLatched : Prop :=
  ∀ (i : Instr) (s t : State) (v : W32), s.busy = true → exec i s = .next t →
    exec i { s with rounds := v } = .next { t with rounds := v }

/-- A command that does not end has taken the words on offer, stays BUSY and does nothing else; and when more words
come it goes on as if all had been on offer at once: a hold is not a fault, not a value and not a restart. R53 gives the
wait; that the words already taken are kept and the evaluation goes on from them is the model's reading
(notes/assumptions/4.md, DESIGN CHOICE, and 5.md, DEDUCED). -/
def Obligations.HoldIsTransparent : Prop :=
  ∀ (i : Instr) (s t : State) (more : List Rnd), s.busy = true → exec i s = .next t → t.busy = true →
    Held s t ∧ exec i { t with offered := more } = exec i { s with offered := s.offered ++ more }

/-- No host access disturbs a running command (R47): after any read or write while BUSY, refused or not, the command
leaves the same registers, flags, phase and random words as without it. -/
def Obligations.HostAccessesDoNotDisturbACommand : Prop :=
  ∀ (i : Instr) (s t u : State) (a : Nat) (v : W32), s.busy = true →
    (t = s.hostRead a ∨ t = s.hostWrite a v) → exec i s = .next u →
    ∃ u', exec i t = .next u' ∧ u'.b = u.b ∧ u'.hi = u.hi ∧ SameFlags u u' ∧ u'.phase = u.phase ∧
      SameWords u u' ∧ u'.drawn = u.drawn

/-! ### Moves -/

/-- NOP, LDI, MOV, MFHI, MTHI (R72 to R76): their formats and opcodes; they complete, write their destination and
nothing else, no flag. -/
def Obligations.MovesWriteTheirDestination : Prop :=
  ∀ (s : State) (rd ra : Reg) (imm16 : Nat), imm16 < 2 ^ 16 →
    (encode .nop = 0#32 ∧ ∃ t, exec .nop s = .next t ∧ SameRegsBut s t [] ∧ t.hi = s.hi ∧ SameFlags s t ∧
      SameWords s t ∧ Completed s t) ∧
    (encode (.ldi rd imm16) = formatI 0x01#8 rd imm16 ∧ ∃ t, exec (.ldi rd imm16) s = .next t ∧
      t.val rd = imm16 ∧ SameRegsBut s t [rd] ∧ t.hi = s.hi ∧ SameFlags s t ∧ SameWords s t ∧
      Completed s t) ∧
    (encode (.mov rd ra) = formatR 0x02#8 rd ra 0 0 ∧ ∃ t, exec (.mov rd ra) s = .next t ∧
      t.val rd = s.val ra ∧ SameRegsBut s t [rd] ∧ t.hi = s.hi ∧ SameFlags s t ∧ SameWords s t ∧
      Completed s t) ∧
    (encode (.mfhi rd) = formatR 0x03#8 rd 0 0 0 ∧ ∃ t, exec (.mfhi rd) s = .next t ∧
      t.val rd = s.hiVal ∧ SameRegsBut s t [rd] ∧ t.hi = s.hi ∧ SameFlags s t ∧ SameWords s t ∧
      Completed s t) ∧
    (encode (.mthi ra) = formatR 0x04#8 0 ra 0 0 ∧ ∃ t, exec (.mthi ra) s = .next t ∧
      t.hiVal = s.val ra ∧ SameRegsBut s t [] ∧ SameFlags s t ∧ SameWords s t ∧ Completed s t)

/-! ### Add, subtract, compare, multiply, reduce -/

/-- ADD (R77), format R with `op = 0x10`: the sum modulo `2^W`, the carry in `C`, `Z` of the written value, and its frame. -/
def Obligations.AddWrapsAndReportsCarry : Prop :=
  ∀ (s : State) (rd ra rb : Reg), encode (.add rd ra rb) = formatR 0x10#8 rd ra rb 0 ∧
    ∃ t, exec (.add rd ra rb) s = .next t ∧
    t.val rd = (s.val ra + s.val rb) % 2 ^ s.width.bits ∧ (t.c = true ↔ 2 ^ s.width.bits ≤ s.val ra + s.val rb) ∧
    (t.z = true ↔ t.val rd = 0) ∧ t.p = s.p ∧ t.hi = s.hi ∧ SameRegsBut s t [rd] ∧ SameWords s t ∧
    Completed s t

/-- SUB (R78), format R with `op = 0x11`: the difference modulo `2^W`, the borrow in `C`, `Z` of the written value, and its frame. -/
def Obligations.SubWrapsAndReportsBorrow : Prop :=
  ∀ (s : State) (rd ra rb : Reg), encode (.sub rd ra rb) = formatR 0x11#8 rd ra rb 0 ∧
    ∃ t, exec (.sub rd ra rb) s = .next t ∧
    (s.val rb ≤ s.val ra → t.val rd = s.val ra - s.val rb ∧ t.c = false) ∧
    (s.val ra < s.val rb → t.val rd + s.val rb = s.val ra + 2 ^ s.width.bits ∧ t.c = true) ∧
    (t.z = true ↔ t.val rd = 0) ∧ t.p = s.p ∧ t.hi = s.hi ∧ SameRegsBut s t [rd] ∧ SameWords s t ∧
    Completed s t

/-- CMP (R79), format R with `op = 0x12`: `Z` for equal, `C` for less, never both, and no register is written. -/
def Obligations.CmpOrdersUnsigned : Prop :=
  ∀ (s : State) (ra rb : Reg), encode (.cmp ra rb) = formatR 0x12#8 0 ra rb 0 ∧
    ∃ t, exec (.cmp ra rb) s = .next t ∧
    (t.z = true ↔ s.val ra = s.val rb) ∧ (t.c = true ↔ s.val ra < s.val rb) ∧ ¬ (t.z = true ∧ t.c = true) ∧
    t.p = s.p ∧ t.hi = s.hi ∧ SameRegsBut s t [] ∧ SameWords s t ∧ Completed s t

/-- MUL (R80), format R with `op = 0x13`: `HI · 2^W + B[rd]` is the exact product, `Z` of the whole product, `C` exactly when `HI` is not 0. -/
def Obligations.MulIsExactOverTwoRegisters : Prop :=
  ∀ (s : State) (rd ra rb : Reg), encode (.mul rd ra rb) = formatR 0x13#8 rd ra rb 0 ∧
    ∃ t, exec (.mul rd ra rb) s = .next t ∧
    t.hiVal * 2 ^ s.width.bits + t.val rd = s.val ra * s.val rb ∧ (t.z = true ↔ s.val ra * s.val rb = 0) ∧
    (t.c = true ↔ t.hiVal ≠ 0) ∧ t.p = s.p ∧ SameRegsBut s t [rd] ∧ SameWords s t ∧ Completed s t

/-- MOD and MODW with a modulus that is not 0 (R81, R82): the remainder of `B[ra]`, and of `HI · 2^W + B[ra]`. -/
def Obligations.ReducersLeaveTheRemainder : Prop :=
  ∀ (s : State) (rd ra rc : Reg), s.val rc ≠ 0 →
    (∃ t, exec (.mod rd ra rc) s = .next t ∧ t.val rd = s.val ra % s.val rc ∧ (t.z = true ↔ t.val rd = 0) ∧
      t.c = s.c ∧ t.p = s.p ∧ t.hi = s.hi ∧ SameRegsBut s t [rd] ∧ SameWords s t ∧ Completed s t) ∧
    (∃ t, exec (.modw rd ra rc) s = .next t ∧
      t.val rd = (s.hiVal * 2 ^ s.width.bits + s.val ra) % s.val rc ∧ (t.z = true ↔ t.val rd = 0) ∧
      t.c = s.c ∧ t.p = s.p ∧ t.hi = s.hi ∧ SameRegsBut s t [rd] ∧ SameWords s t ∧ Completed s t)

/-- MUL then MODW is MULMOD (R82): the wide reduce of the split product is the modular product. -/
def Obligations.MulThenModwIsMulmod : Prop :=
  ∀ (s : State) (rp rd ra rb rc : Reg), rc ≠ rp → s.val rc ≠ 0 →
    ∃ t u v, exec (.mul rp ra rb) s = .next t ∧ exec (.modw rd rp rc) t = .next u ∧
      exec (.mulmod rd ra rb rc) s = .next v ∧ u.val rd = v.val rd ∧ u.z = v.z

/-! ### Modular multiplication and exponentiation -/

/-- MULMOD with a modulus that is not 0 (R87): the product is not truncated before it is reduced, and `HI` keeps its
value. -/
def Obligations.MulmodReducesTheFullProduct : Prop :=
  ∀ (s : State) (rd ra rb rc : Reg), s.val rc ≠ 0 → ∃ t, exec (.mulmod rd ra rb rc) s = .next t ∧
    t.val rd = s.val ra * s.val rb % s.val rc ∧ (t.z = true ↔ t.val rd = 0) ∧ t.c = s.c ∧ t.p = s.p ∧
    t.hi = s.hi ∧ SameRegsBut s t [rd] ∧ SameWords s t ∧ Completed s t

/-- Square-and-multiply returns `(b^e) mod m`, below `m`, for every base, exponent and positive modulus (R85), and so
MODEXP with a modulus that is not 0 leaves it in the destination, with its frame. -/
def Obligations.ModexpIsThePowerModulo : Prop :=
  (∀ b e m : Nat, 0 < m → modExp b e m = b ^ e % m ∧ modExp b e m < m) ∧
  ∀ (s : State) (rd ra rb rc : Reg), s.val rc ≠ 0 → ∃ t, exec (.modexp rd ra rb rc) s = .next t ∧
    t.val rd = s.val ra ^ s.val rb % s.val rc ∧ t.val rd < s.val rc ∧ (t.z = true ↔ t.val rd = 0) ∧
    t.c = s.c ∧ t.p = s.p ∧ t.hi = s.hi ∧ SameRegsBut s t [rd] ∧ SameWords s t ∧ Completed s t

/-- The corner values of MODEXP (R88 (a) to (e), (g)): modulus 1 gives 0, exponent 0 gives 1, base 0 gives 0, base 1
gives `1 mod m`, exponent 1 gives `b mod m`, and modulus 0 faults MODZERO with the destination unchanged. -/
def Obligations.ModexpCornerValues : Prop :=
  ∀ (s t : State) (w k : W32) (rd ra rb rc : Reg), s.phase = .busy w k → exec (.modexp rd ra rb rc) s = .next t →
    (s.val rc = 1 → t.val rd = 0) ∧ (1 < s.val rc → s.val rb = 0 → t.val rd = 1) ∧
    (s.val rc ≠ 0 → s.val ra = 0 → s.val rb ≠ 0 → t.val rd = 0) ∧
    (s.val rc ≠ 0 → s.val ra = 1 → t.val rd = 1 % s.val rc) ∧
    (s.val rc ≠ 0 → s.val rb = 1 → t.val rd = s.val ra % s.val rc) ∧
    (s.val rc = 0 → FaultedWith s t 2 w)

/-- A zero modulus register ends MOD, MODW, MULMOD, MODEXP and MODINV in MODZERO (R139). -/
def Obligations.ZeroModulusFaults : Prop :=
  ∀ (s : State) (w k : W32) (rd ra rb rc : Reg) (i : Instr), s.phase = .busy w k → s.val rc = 0 →
    i ∈ [Instr.mod rd ra rc, .modw rd ra rc, .mulmod rd ra rb rc, .modexp rd ra rb rc, .modinv rd ra rc] →
    ∃ t, exec i s = .next t ∧ FaultedWith s t 2 w

/-! ### Euclid -/

/-- Euclid's loop leaves the greatest common divisor, `gcd(0, 0) = 0`, for all numbers (R107), and GCD leaves it in the
destination, with its frame; it never faults (R108). -/
def Obligations.GcdIsTheGreatestCommonDivisor : Prop :=
  (∀ a b : Nat, gcdOf a b = Nat.gcd a b) ∧
  ∀ (s : State) (rd ra rb : Reg), encode (.gcd rd ra rb) = formatR 0x30#8 rd ra rb 0 ∧
    ∃ t, exec (.gcd rd ra rb) s = .next t ∧
    t.val rd = Nat.gcd (s.val ra) (s.val rb) ∧ (t.z = true ↔ s.val ra = 0 ∧ s.val rb = 0) ∧
    t.c = s.c ∧ t.p = s.p ∧ t.hi = s.hi ∧ SameRegsBut s t [rd] ∧ SameWords s t ∧ Completed s t

/-- MODINV where the inverse exists (R110, R112): modulus 1 gives 0, otherwise the one `d < m` with
`a·d mod m = 1`. -/
def Obligations.ModinvIsTheInverse : Prop :=
  ∀ (s : State) (rd ra rc : Reg), s.val rc ≠ 0 → (s.val rc = 1 ∨ Nat.gcd (s.val ra) (s.val rc) = 1) →
    ∃ t, exec (.modinv rd ra rc) s = .next t ∧ t.val rd < s.val rc ∧
      (1 < s.val rc → s.val ra * t.val rd % s.val rc = 1) ∧ (t.z = true ↔ s.val rc = 1) ∧
      t.c = s.c ∧ t.p = s.p ∧ t.hi = s.hi ∧ SameRegsBut s t [rd] ∧ SameWords s t ∧ Completed s t

/-- MODINV of an argument without inverse ends in NOINV, writes nothing and leaves the flags (R113, R140). -/
def Obligations.ModinvWithoutInverseFaults : Prop :=
  ∀ (s : State) (w k : W32) (rd ra rc : Reg), s.phase = .busy w k → 1 < s.val rc →
    Nat.gcd (s.val ra) (s.val rc) ≠ 1 → ∃ t, exec (.modinv rd ra rc) s = .next t ∧ FaultedWith s t 3 w

/-- The reference sequence of R111 returns the inverse of R109, the one `d < m` with `(a·d) mod m = 1 mod m`, exactly
where there is one, and raises NOINV exactly where there is none; modulus 1 gives 0 for every `a` and no fault (R110). -/
def Obligations.InverterSequenceMeetsItsDefinition : Prop :=
  ∀ a m : Nat, 1 ≤ m →
    (modInvSeq a m = none ↔ 1 < m ∧ Nat.gcd a m ≠ 1) ∧
    (∀ d, modInvSeq a m = some d →
      d < m ∧ a * d % m = 1 % m ∧ ∀ d', d' < m → a * d' % m = 1 % m → d' = d) ∧
    modInvSeq a 1 = some 0

/-! ### Random draws and primality -/

/-- RANDBITS with a legal count and enough words on offer (R91, R93): bit `j` of the result is bit `j mod 32` of word
`j div 32`, bits from the count up are 0, and exactly `(bits + 31) div 32` words are taken. -/
def Obligations.RandbitsTakesLowBitsOfItsWords : Prop :=
  ∀ (s : State) (rd : Reg) (bits : Nat), bits ≤ s.width.bits → s.drawn = [] →
    (bits + 31) / 32 ≤ s.offered.length → ∃ t, exec (.randbits rd bits) s = .next t ∧
      (∀ j, (t.val rd).testBit j = (decide (j < bits) && (s.offered.getD (j / 32) 0#32).getLsbD (j % 32))) ∧
      (t.z = true ↔ t.val rd = 0) ∧ t.c = s.c ∧ t.p = s.p ∧ t.hi = s.hi ∧ SameRegsBut s t [rd] ∧
      TookUpTo s t (s.offered.drop ((bits + 31) / 32)) ∧ Completed s t

/-- RANDBITS with too few words on offer holds (R53): the words on offer are taken and nothing else happens; and a word
that the source offers next is first in line for it. -/
def Obligations.RandbitsHoldsForAMissingWord : Prop :=
  ∀ (s : State) (rd : Reg) (bits : Nat), bits ≤ s.width.bits → s.drawn = [] →
    s.offered.length < (bits + 31) / 32 → ∃ t, exec (.randbits rd bits) s = .next t ∧ Held s t ∧
      ∀ (v : Rnd) (rest : List Event),
        step { t with env := .offer v :: rest } = .next { t with offered := [v], env := rest }

/-- RANDRANGE on a legal range (R92, R94) meets the draw relation both ways: where the words on offer hold an accepted
pass it completes with that value, in the range, and takes exactly the words up to it; where they hold none it waits,
however many passes have been rejected (no cap). -/
def Obligations.RandrangeRejectsUntilInSpan : Prop :=
  ∀ (s : State) (rd ra rb : Reg), s.val ra ≤ s.val rb → s.drawn = [] →
    (∀ v rest, RangeDraw (s.val ra) (s.val rb) s.offered v rest →
      ∃ t, exec (.randrange rd ra rb) s = .next t ∧ t.val rd = v ∧ s.val ra ≤ v ∧ v ≤ s.val rb ∧
        (t.z = true ↔ v = 0) ∧ t.c = s.c ∧ t.p = s.p ∧ t.hi = s.hi ∧ SameRegsBut s t [rd] ∧
        TookUpTo s t rest ∧ Completed s t) ∧
    ((∀ v rest, ¬ RangeDraw (s.val ra) (s.val rb) s.offered v rest) →
      ∃ t, exec (.randrange rd ra rb) s = .next t ∧ Held s t)

/-- MRTEST (R95, R97, R99) meets the tester's relation both ways: where the words on offer decide the test with the
latched round count, `P` is the verdict and exactly the words drawn are taken; where they do not, it waits. -/
def Obligations.MrtestRunsItsRounds : Prop :=
  ∀ (s : State) (w k : W32) (ra : Reg), s.phase = .busy w k → s.drawn = [] →
    (∀ v rest, Verdict (s.val ra) k.toNat s.offered v rest →
      ∃ t, exec (.mrtest ra) s = .next t ∧ t.p = v ∧ t.z = s.z ∧ t.c = s.c ∧ t.hi = s.hi ∧
        SameRegsBut s t [] ∧ TookUpTo s t rest ∧ Completed s t) ∧
    ((∀ v rest, ¬ Verdict (s.val ra) k.toNat s.offered v rest) →
      ∃ t, exec (.mrtest ra) s = .next t ∧ Held s t)

/-- The fast paths of MRTEST (R95): they decide without a random word, whatever is on offer and whatever the round
count. -/
def Obligations.MrtestFastPathsTakeNoWord : Prop :=
  ∀ (s : State) (ra : Reg), (s.val ra ≤ 4 ∨ s.val ra % 2 = 0) →
    ∃ t, exec (.mrtest ra) s = .next t ∧ (t.p = true ↔ s.val ra = 2 ∨ s.val ra = 3) ∧ t.z = s.z ∧
      t.c = s.c ∧ t.hi = s.hi ∧ SameRegsBut s t [] ∧ SameWords s t ∧ Completed s t

/-- A prime is never reported composite (R98): whenever MRTEST ends on a prime, whatever the words were, `P` is 1. -/
def Obligations.PrimesAreNeverReportedComposite : Prop :=
  ∀ (s t : State) (ra : Reg), s.busy = true → (s.val ra).Prime → exec (.mrtest ra) s = .next t →
    t.busy = false → t.p = true

/-- The required verdicts (R101): with at least one round, for every random stream, the listed small primes are reported
prime and the listed composites, 1 and 0 composite. -/
def Obligations.RequiredVerdicts : Prop :=
  ∀ (s t : State) (w k : W32) (ra : Reg), s.phase = .busy w k → 1 ≤ k.toNat →
    exec (.mrtest ra) s = .next t → t.busy = false →
    (s.val ra ∈ [2, 3, 5, 7, 11, 97, 7919] → t.p = true) ∧
    (s.val ra ∈ [4, 9, 100, 7920, 1, 0] → t.p = false)

/-- PRIMEGEN with a legal count (R102, R103, R105) meets the generator's relation both ways: where the words on offer
hold a passing candidate it completes with it and `P = 1`; where they do not, it waits: the loop has no cap. -/
def Obligations.PrimegenReturnsThePassingCandidate : Prop :=
  ∀ (s : State) (w k : W32) (rd : Reg) (bits : Nat), s.phase = .busy w k → s.drawn = [] → 2 ≤ bits →
    bits ≤ s.width.bits →
    (∀ c rest, PrimeRun bits k.toNat s.offered c rest →
      ∃ t, exec (.primegen rd bits) s = .next t ∧ t.val rd = c ∧ t.p = true ∧ t.z = s.z ∧ t.c = s.c ∧
        t.hi = s.hi ∧ SameRegsBut s t [rd] ∧ TookUpTo s t rest ∧ Completed s t) ∧
    ((∀ c rest, ¬ PrimeRun bits k.toNat s.offered c rest) →
      ∃ t, exec (.primegen rd bits) s = .next t ∧ Held s t)

/-- The result of a completed PRIMEGEN has exactly the requested bit length and is odd (R106). -/
def Obligations.PrimegenResultIsOddOfExactLength : Prop :=
  ∀ (s t : State) (rd : Reg) (bits : Nat), s.busy = true → 2 ≤ bits → bits ≤ s.width.bits →
    exec (.primegen rd bits) s = .next t → t.busy = false →
    2 ^ (bits - 1) ≤ t.val rd ∧ t.val rd < 2 ^ bits ∧ t.val rd % 2 = 1 ∧ t.p = true

/-- A parameter outside its range ends RANDBITS, RANDRANGE, PRIMEGEN and KEYGEN in BADPARAM before any draw (R141). -/
def Obligations.BadParametersFaultBeforeAnyDraw : Prop :=
  ∀ (s : State) (w k : W32) (rd ra rb : Reg) (bits : Nat), s.phase = .busy w k →
    (s.width.bits < bits → ∃ t, exec (.randbits rd bits) s = .next t ∧ FaultedWith s t 4 w) ∧
    (s.val rb < s.val ra → ∃ t, exec (.randrange rd ra rb) s = .next t ∧ FaultedWith s t 4 w) ∧
    (bits < 2 ∨ s.width.bits < bits → ∃ t, exec (.primegen rd bits) s = .next t ∧ FaultedWith s t 4 w) ∧
    (bits / 2 < 3 ∨ s.width.bits < 2 * (bits / 2) →
      ∃ t, exec (.keygen bits) s = .next t ∧ FaultedWith s t 4 w)

/-! ### Key generation and the cipher -/

/-- KEYGEN with a legal count (R114 to R118, R120) meets the relation of its draws both ways: where the words on offer
hold a run it completes with `p`, `q`, `n = p·q`, `φ = (p−1)(q−1)`, `e` and the inverse of `e` modulo `φ` in `B8` to
`B13` and `P = 1`; where they do not, it waits with the registers unchanged. -/
def Obligations.KeygenRunsItsSteps : Prop :=
  ∀ (s : State) (w k : W32) (bits : Nat), s.phase = .busy w k → s.drawn = [] → 3 ≤ bits / 2 →
    2 * (bits / 2) ≤ s.width.bits →
    (∀ p q e rest, KeyRun (bits / 2) k.toNat s.offered p q e rest →
      ∃ t, exec (.keygen bits) s = .next t ∧ t.val 8 = p ∧ t.val 9 = q ∧ t.val 10 = p * q ∧
        t.val 11 = (p - 1) * (q - 1) ∧ t.val 12 = e ∧ t.val 13 < (p - 1) * (q - 1) ∧
        e * t.val 13 % ((p - 1) * (q - 1)) = 1 ∧ t.p = true ∧ t.z = s.z ∧ t.c = s.c ∧ t.hi = s.hi ∧
        SameRegsBut s t [8, 9, 10, 11, 12, 13] ∧ TookUpTo s t rest ∧ Completed s t) ∧
    ((∀ p q e rest, ¬ KeyRun (bits / 2) k.toNat s.offered p q e rest) →
      ∃ t, exec (.keygen bits) s = .next t ∧ Held s t)

/-- The keys of every completed KEYGEN (R121, first part): the primes differ, have exactly `h` bits and are odd, `n` and
`φ` are their formulas, `1 < e < φ` is coprime to `φ`, and `e·d mod φ = 1`; for every random stream. -/
def Obligations.KeygenKeysAreConsistent : Prop :=
  ∀ (s t : State) (bits : Nat), s.busy = true → 3 ≤ bits / 2 → 2 * (bits / 2) ≤ s.width.bits →
    exec (.keygen bits) s = .next t → t.busy = false →
    t.val 8 ≠ t.val 9 ∧ t.val 10 = t.val 8 * t.val 9 ∧ t.val 11 = (t.val 8 - 1) * (t.val 9 - 1) ∧
    (∀ r ∈ [(8 : Reg), 9], 2 ^ (bits / 2 - 1) ≤ t.val r ∧ t.val r < 2 ^ (bits / 2) ∧ t.val r % 2 = 1) ∧
    1 < t.val 12 ∧ t.val 12 < t.val 11 ∧ Nat.gcd (t.val 12) (t.val 11) = 1 ∧
    t.val 12 * t.val 13 % t.val 11 = 1 ∧ t.p = true

/-- ENC (R122): a code below the modulus gives `code^e mod n`, below `n`, and takes no random word. -/
def Obligations.EncIsThePowerOfTheCode : Prop :=
  ∀ (s : State) (rd ra rb rc : Reg), s.val ra < s.val rc → ∃ t, exec (.enc rd ra rb rc) s = .next t ∧
    t.val rd = s.val ra ^ s.val rb % s.val rc ∧ t.val rd < s.val rc ∧ (t.z = true ↔ t.val rd = 0) ∧
    t.c = s.c ∧ t.p = s.p ∧ t.hi = s.hi ∧ SameRegsBut s t [rd] ∧ SameWords s t ∧ Completed s t

/-- ENC of a code not below the modulus ends in PRECOND with the destination unchanged, also for modulus 0 (R122, R136,
R138). -/
def Obligations.EncOfALargeCodeFaults : Prop :=
  ∀ (s : State) (w k : W32) (rd ra rb rc : Reg), s.phase = .busy w k → s.val rc ≤ s.val ra →
    ∃ t, exec (.enc rd ra rb rc) s = .next t ∧ FaultedWith s t 1 w

/-- The round trip (R121, second part), under the hypothesis that the two primes are prime: for a modulus that is the
product of two different primes and exponents inverse modulo `φ`, ENC gives a ciphertext from which DEC (MODEXP) returns
the symbol code: in any state that holds the ciphertext and the private key, wherever they stand, and so in the state
that ENC leaves unless its destination overwrote the key. -/
def Obligations.EncThenDecReturnsTheCode : Prop :=
  ∀ (s : State) (p q : Nat) (rx ry rm re rd rn : Reg), p.Prime → q.Prime → p ≠ q → s.val rn = p * q →
    s.val re * s.val rd % ((p - 1) * (q - 1)) = 1 → s.val rm < s.val rn →
    ∃ t, exec (.enc rx rm re rn) s = .next t ∧
      (rx ≠ rn → rx ≠ rd → ∃ u, exec (.modexp ry rx rd rn) t = .next u ∧ u.val ry = s.val rm) ∧
      ∀ (s' : State) (rx' rd' rn' : Reg), s'.val rx' = t.val rx → s'.val rd' = s.val rd →
        s'.val rn' = s.val rn → ∃ u, exec (.modexp ry rx' rd' rn') s' = .next u ∧ u.val ry = s.val rm

/-! ### The host window -/

/-- Refused accesses (R46, R47, R143), by the map of R41: a misaligned address, an unmapped address, and, while BUSY, a
limb or a write of `CMD`. The step of the access records ACCESS with its address, a read returns 0, and nothing else
changes. -/
def Obligations.RefusedAccessesRecordAccess : Prop :=
  ∀ (s : State) (a : Nat) (v : W32) (rest : List Event), s.rst = false → a < 2 ^ addrBits s.width →
    (a % 4 ≠ 0 ∨ (0x24 ≤ a ∧ a < 0x2000) ∨ 0x2000 + 17 * s.width.stride ≤ a ∨
      (s.busy = true ∧ 0x2000 ≤ a ∧ a < 0x2000 + 17 * s.width.stride) →
      s.env = .hostRead a :: rest →
      step s = .next { s with err := s.err ||| 0x40#32, ecause := 6#32, einfo := BitVec.ofNat 32 a,
                              rdata := 0#32, env := rest }) ∧
    (a % 4 ≠ 0 ∨ (0x24 ≤ a ∧ a < 0x2000) ∨ 0x2000 + 17 * s.width.stride ≤ a ∨
      (s.busy = true ∧ (a = 0x10 ∨ 0x2000 ≤ a ∧ a < 0x2000 + 17 * s.width.stride)) →
      s.env = .hostWrite a v :: rest →
      step s = .next { s with err := s.err ||| 0x40#32, ecause := 6#32, einfo := BitVec.ofNat 32 a,
                              env := rest })

/-- The step of a read of a control register (R22 to R30, R42), at any time: the constants, `PARAM` with the machine's
`W`, `CTRL` with `IE` at bit 0, `STATUS` with its five fields, and the registers; no other state changes (R49). -/
def Obligations.ControlRegistersReadAsSpecified : Prop :=
  ∀ (s : State) (a : Nat) (rest : List Event), s.rst = false → s.env = .hostRead a :: rest →
    (a = 0x000 → step s = .next { s with rdata := 0x52534101#32, env := rest }) ∧
    (a = 0x004 → step s = .next { s with rdata := BitVec.ofNat 32 (0x20100000 + s.width.bits), env := rest }) ∧
    (a = 0x008 → step s = .next { s with rdata := if s.ie then 1#32 else 0#32, env := rest }) ∧
    (a = 0x00C → ∃ v : W32, step s = .next { s with rdata := v, env := rest } ∧ v.getLsbD 0 = s.busy ∧
      v.getLsbD 1 = s.done ∧ v.getLsbD 8 = s.z ∧ v.getLsbD 9 = s.c ∧ v.getLsbD 10 = s.p ∧
      ∀ j, j ≠ 0 → j ≠ 1 → j ≠ 8 → j ≠ 9 → j ≠ 10 → v.getLsbD j = false) ∧
    (a = 0x010 → step s = .next { s with rdata := s.cmd, env := rest }) ∧
    (a = 0x014 → step s = .next { s with rdata := s.rounds, env := rest }) ∧
    (a = 0x018 → step s = .next { s with rdata := s.err, env := rest }) ∧
    (a = 0x01C → step s = .next { s with rdata := s.ecause, env := rest }) ∧
    (a = 0x020 → step s = .next { s with rdata := s.einfo, env := rest })

/-- The step of a write of a control register (R21 to R31, R43), at any time: the read-only ones ignore it, `CTRL` takes
bit 0, `STATUS` clears `DONE` by bit 1 and nothing else, `ROUNDS` takes the word, `ERR` loses the bits written 1. -/
def Obligations.ControlRegisterWritesDoWhatTheirAccessSays : Prop :=
  ∀ (s : State) (a : Nat) (v : W32) (rest : List Event), s.rst = false → s.Inv →
    s.env = .hostWrite a v :: rest →
    (a ∈ [0x000, 0x004, 0x01C, 0x020] → step s = .next { s with env := rest }) ∧
    (a = 0x008 → step s = .next { s with ie := v.getLsbD 0, env := rest }) ∧
    (a = 0x00C → v.getLsbD 1 = true → step s = .next { s with done := false, env := rest }) ∧
    (a = 0x00C → v.getLsbD 1 = false → step s = .next { s with env := rest }) ∧
    (a = 0x014 → step s = .next { s with rounds := v, env := rest }) ∧
    (a = 0x018 → step s = .next { s with err := s.err &&& ~~~v, env := rest })

/-- A write to `CMD` while IDLE is the acceptance of the command (R26, R70): the word is the last accepted command, the
phase is BUSY with the current `ROUNDS` latched, `BUSY` is 1 and `DONE` is 0, and nothing else changes. -/
def Obligations.CmdWriteIssuesTheCommand : Prop :=
  ∀ (s : State) (v : W32) (rest : List Event), s.rst = false → s.phase = .idle → s.drawn = [] →
    s.env = .hostWrite 0x010 v :: rest →
    ∃ t, step s = .next t ∧
      t = { s with cmd := v, phase := .busy v s.rounds, done := false, env := rest } ∧
      t.statusWord.getLsbD 0 = true ∧ t.statusWord.getLsbD 1 = false

/-- The step of a read of limb `j` of register index `i` while IDLE returns bits `32j+31..32j` (R41, R42, R44), index 16
being `HI`, and changes nothing else. -/
def Obligations.LimbReadsReturnTheirBits : Prop :=
  ∀ (s : State) (i : Reg) (j : Nat) (rest : List Event), s.rst = false → s.phase = .idle → j < s.width.nlimb →
    (s.env = .hostRead (0x2000 + i.val * s.width.stride + 4 * j) :: rest →
      step s = .next { s with rdata := BitVec.ofNat 32 (s.val i / 2 ^ (32 * j)), env := rest }) ∧
    (s.env = .hostRead (0x2000 + 16 * s.width.stride + 4 * j) :: rest →
      step s = .next { s with rdata := BitVec.ofNat 32 (s.hiVal / 2 ^ (32 * j)), env := rest })

/-- The step of a write of limb `j` of register index `i` while IDLE replaces bits `32j+31..32j` by the word, keeps all
other bits, all other registers and everything else (R41, R43). -/
def Obligations.LimbWritesReplaceTheirBits : Prop :=
  ∀ (s : State) (i : Reg) (j : Nat) (v : W32) (rest : List Event), s.rst = false → s.phase = .idle →
    j < s.width.nlimb →
    (s.env = .hostWrite (0x2000 + i.val * s.width.stride + 4 * j) v :: rest → ∃ t, step s = .next t ∧
      (∀ n, (t.val i).testBit n =
        if 32 * j ≤ n ∧ n < 32 * j + 32 then v.getLsbD (n - 32 * j) else (s.val i).testBit n) ∧
      SameRegsBut s t [i] ∧ { t with b := s.b } = { s with env := rest }) ∧
    (s.env = .hostWrite (0x2000 + 16 * s.width.stride + 4 * j) v :: rest → ∃ t, step s = .next t ∧
      (∀ n, t.hiVal.testBit n =
        if 32 * j ≤ n ∧ n < 32 * j + 32 then v.getLsbD (n - 32 * j) else s.hiVal.testBit n) ∧
      { t with hi := s.hi } = { s with env := rest })

/-- The host script SETB (R68), `NLIMB` writes while IDLE, leaves exactly the value in the register and changes nothing
else. -/
def Obligations.SetbLoadsTheWholeRegister : Prop :=
  ∀ (s : State) (i : Reg) (v : Nat) (rest : List Event), s.rst = false → s.phase = .idle →
    v < 2 ^ s.width.bits → s.env = setBScript s.width i v ++ rest →
    ∃ t, Sys2Proof.core.run s.width.nlimb s = .next t ∧ t.val i = v ∧ SameRegsBut s t [i] ∧
      { t with b := s.b } = { s with env := rest }

/-- A register is all the window shows of it: a command that leaves the registers, `HI` and the flags alone but for
its destinations leaves every limb of every other register, and `HI` unless it writes it, as the window showed it. -/
def Obligations.WindowFrameOfCommands : Prop :=
  ∀ (i : Instr) (s t : State) (r : Reg) (j : Nat), s.busy = true → s.rst = false → exec i s = .next t →
    t.busy = false → j < s.width.nlimb →
    (r ∉ i.dests → t.memRead (0x2000 + r.val * s.width.stride + 4 * j) =
      BitVec.ofNat 32 (s.val r / 2 ^ (32 * j))) ∧
    (i.writesHi = false → t.memRead (0x2000 + 16 * s.width.stride + 4 * j) =
      BitVec.ofNat 32 (s.hiVal / 2 ^ (32 * j)))

/-! ### Interrupt and acknowledgement -/

/-- The interrupt (R145): `irq` is the level `IE AND DONE`; when a command ends it is `IE`; a write of `CTRL` makes it
the new `IE` and `DONE`; it falls on the W1C of `DONE`, on the next acceptance and on reset; a refused access does not
touch it. -/
def Obligations.InterruptFollowsDoneAndEnable : Prop :=
  ∀ (s : State), s.irq = (s.ie && s.done) ∧
    (∀ i t, s.busy = true → exec i s = .next t → t.busy = false → t.irq = s.ie) ∧
    (∀ v, (s.accept v).irq = false) ∧
    (∀ v : W32, s.rst = false → v.getLsbD 1 = true → (s.hostWrite 0x00C v).irq = false) ∧
    (∀ v : W32, s.rst = false → (s.hostWrite 0x008 v).irq = (v.getLsbD 0 && s.done)) ∧
    (s.setRst true).irq = false ∧ (∀ a, (s.refuse a).irq = s.irq)

/-- A fault recorded in the very step of the host's write-1-to-clear of `ERR` ends set, and every other bit written 1
ends clear (R28). `u` is the command's own step from a clear `ERR`, so its bits are the fault, if any, that the command
raises in this step; the word may be illegal. -/
def Obligations.FaultWinsOverSameStepAcknowledge : Prop :=
  ∀ (s u : State) (w k v : W32) (rest : List Event) (n : Nat), s.rst = false → s.phase = .busy w k →
    s.env = .ackWithTurn v :: rest → runWord w { s with env := rest, err := 0#32 } = .next u →
    1 ≤ n → n ≤ 6 →
    ∃ t, step s = .next t ∧ t.err.getLsbD n = (u.err.getLsbD n || (s.err.getLsbD n && !v.getLsbD n))
end

