-- ==== Sys2Proof/Laws/Arith.lean ====
section
/-! SUPPORT. What the number functions of the engine compute: `bitlen`, `ModExp` and `Gcd` (spec/41_modexp.md rule R85,
spec/44_euclid.md rule R107). -/

namespace Sys2Proof.Machine

/-! ### `bitlen` (R8) -/

theorem lt_two_pow_bitlen (v : Nat) : v < 2 ^ bitlen v := by
  unfold bitlen
  split
  · simp_all
  · exact Nat.lt_log2_self

theorem bitlen_le {v b : Nat} (h : v < 2 ^ b) : bitlen v ≤ b := by
  unfold bitlen
  split
  · exact Nat.zero_le _
  · rename_i hv; exact (Nat.log2_lt hv).2 h

/-- `bitlen v` is the length of rule R8. -/
theorem isBitlen_bitlen (v : Nat) : IsBitlen v (bitlen v) :=
  ⟨lt_two_pow_bitlen v, fun _ h => bitlen_le h⟩

theorem IsBitlen.eq_bitlen {v b : Nat} (h : IsBitlen v b) : b = bitlen v :=
  Nat.le_antisymm (h.2 _ (lt_two_pow_bitlen v)) (bitlen_le h.1)

/-! ### Square-and-multiply (R86) -/

/-- The loop invariant of R86: with enough passes on hand the loop returns `r · s^e` modulo `m`. -/
theorem modExpLoop_eq (m : Nat) : ∀ n r s e, e < 2 ^ n →
    modExpLoop m n r s e % m = r * s ^ e % m := by
  intro n
  induction n with
  | zero => intro r s e h; simp at h; subst h; simp [modExpLoop]
  | succ n ih =>
    intro r s e h
    rw [modExpLoop]
    by_cases he : e = 0
    · simp [he]
    · rw [if_neg he, ih _ _ _ (by rw [Nat.pow_succ] at h; omega)]
      have split_e : s ^ e = s ^ (e % 2) * (s * s) ^ (e / 2) := by
        rw [← pow_two, ← pow_mul, ← pow_add, Nat.mod_add_div]
      rw [split_e]
      rcases Nat.mod_two_eq_zero_or_one e with h0 | h1
      · simp only [h0]
        rw [if_neg (by decide), Nat.mul_mod, Nat.pow_mod, Nat.mod_mod, ← Nat.pow_mod, ← Nat.mul_mod]
        simp
      · simp only [h1, if_true]
        rw [Nat.mul_mod, Nat.mod_mod, Nat.pow_mod, Nat.mod_mod, ← Nat.pow_mod, ← Nat.mul_mod]
        simp [mul_assoc]

/-- The result of the loop is already reduced once `r` is. -/
theorem modExpLoop_lt {m : Nat} (hm : 0 < m) : ∀ n r s e, r < m → modExpLoop m n r s e < m := by
  intro n
  induction n with
  | zero => intro r s e h; simpa [modExpLoop] using h
  | succ n ih =>
    intro r s e h
    rw [modExpLoop]
    split
    · exact h
    · apply ih
      split
      · exact Nat.mod_lt _ hm
      · exact h

/-- `ModExp(b, e, m) = (b^e) mod m` for `m > 0` (R85). -/
theorem modExp_eq {m : Nat} (hm : 0 < m) (b e : Nat) : modExp b e m = b ^ e % m := by
  have lt : modExp b e m < m := modExpLoop_lt hm _ _ _ _ (Nat.mod_lt _ hm)
  have eq : modExp b e m % m = b ^ e % m := by
    rw [modExp, modExpLoop_eq m _ _ _ _ (lt_two_pow_bitlen e)]
    rw [Nat.mul_mod, Nat.mod_mod, ← Nat.mul_mod, one_mul, ← Nat.pow_mod]
  rwa [Nat.mod_eq_of_lt lt] at eq

/-! ### Euclid (R107) -/

theorem gcdLoop_eq : ∀ n a b, b ≤ n → gcdLoop n a b = Nat.gcd a b := by
  intro n
  induction n with
  | zero => intro a b h; simp at h; subst h; simp [gcdLoop]
  | succ n ih =>
    intro a b h
    rw [gcdLoop]
    by_cases hb : b = 0
    · simp [hb]
    · rw [if_neg hb, ih _ _ (by have := Nat.mod_lt a (Nat.pos_of_ne_zero hb); omega),
        Nat.gcd_comm b, ← Nat.gcd_rec, Nat.gcd_comm]

/-- `Gcd(a, b)` is the mathematical greatest common divisor (R107). -/
theorem gcdOf_eq (a b : Nat) : gcdOf a b = Nat.gcd a b := gcdLoop_eq b a b (Nat.le_refl b)

end Sys2Proof.Machine
end

