-- ==== Sys2Proof/Laws/State.lean ====
section
/-! SUPPORT. One lemma per field per update of the state, true by unfolding, so that no proof unfolds a record update. -/

namespace Sys2Proof.Machine

/-! ### `setReg` -/

@[simp] theorem State.setReg_width (s : State) (r : Reg) (v : Nat) : (s.setReg r v).width = s.width := rfl
@[simp] theorem State.setReg_b (s : State) (r : Reg) (v : Nat) : (s.setReg r v).b = s.b.set r.val (v % 2 ^ s.width.bits) r.isLt := rfl
@[simp] theorem State.setReg_hi (s : State) (r : Reg) (v : Nat) : (s.setReg r v).hi = s.hi := rfl
@[simp] theorem State.setReg_z (s : State) (r : Reg) (v : Nat) : (s.setReg r v).z = s.z := rfl
@[simp] theorem State.setReg_c (s : State) (r : Reg) (v : Nat) : (s.setReg r v).c = s.c := rfl
@[simp] theorem State.setReg_p (s : State) (r : Reg) (v : Nat) : (s.setReg r v).p = s.p := rfl
@[simp] theorem State.setReg_phase (s : State) (r : Reg) (v : Nat) : (s.setReg r v).phase = s.phase := rfl
@[simp] theorem State.setReg_ie (s : State) (r : Reg) (v : Nat) : (s.setReg r v).ie = s.ie := rfl
@[simp] theorem State.setReg_done (s : State) (r : Reg) (v : Nat) : (s.setReg r v).done = s.done := rfl
@[simp] theorem State.setReg_cmd (s : State) (r : Reg) (v : Nat) : (s.setReg r v).cmd = s.cmd := rfl
@[simp] theorem State.setReg_rounds (s : State) (r : Reg) (v : Nat) : (s.setReg r v).rounds = s.rounds := rfl
@[simp] theorem State.setReg_err (s : State) (r : Reg) (v : Nat) : (s.setReg r v).err = s.err := rfl
@[simp] theorem State.setReg_ecause (s : State) (r : Reg) (v : Nat) : (s.setReg r v).ecause = s.ecause := rfl
@[simp] theorem State.setReg_einfo (s : State) (r : Reg) (v : Nat) : (s.setReg r v).einfo = s.einfo := rfl
@[simp] theorem State.setReg_rpos (s : State) (r : Reg) (v : Nat) : (s.setReg r v).rpos = s.rpos := rfl
@[simp] theorem State.setReg_offered (s : State) (r : Reg) (v : Nat) : (s.setReg r v).offered = s.offered := rfl
@[simp] theorem State.setReg_drawn (s : State) (r : Reg) (v : Nat) : (s.setReg r v).drawn = s.drawn := rfl
@[simp] theorem State.setReg_rst (s : State) (r : Reg) (v : Nat) : (s.setReg r v).rst = s.rst := rfl
@[simp] theorem State.setReg_rdata (s : State) (r : Reg) (v : Nat) : (s.setReg r v).rdata = s.rdata := rfl
@[simp] theorem State.setReg_env (s : State) (r : Reg) (v : Nat) : (s.setReg r v).env = s.env := rfl

/-! ### `setHi` -/

@[simp] theorem State.setHi_width (s : State) (v : Nat) : (s.setHi v).width = s.width := rfl
@[simp] theorem State.setHi_b (s : State) (v : Nat) : (s.setHi v).b = s.b := rfl
@[simp] theorem State.setHi_hi (s : State) (v : Nat) : (s.setHi v).hi = v % 2 ^ s.width.bits := rfl
@[simp] theorem State.setHi_z (s : State) (v : Nat) : (s.setHi v).z = s.z := rfl
@[simp] theorem State.setHi_c (s : State) (v : Nat) : (s.setHi v).c = s.c := rfl
@[simp] theorem State.setHi_p (s : State) (v : Nat) : (s.setHi v).p = s.p := rfl
@[simp] theorem State.setHi_phase (s : State) (v : Nat) : (s.setHi v).phase = s.phase := rfl
@[simp] theorem State.setHi_ie (s : State) (v : Nat) : (s.setHi v).ie = s.ie := rfl
@[simp] theorem State.setHi_done (s : State) (v : Nat) : (s.setHi v).done = s.done := rfl
@[simp] theorem State.setHi_cmd (s : State) (v : Nat) : (s.setHi v).cmd = s.cmd := rfl
@[simp] theorem State.setHi_rounds (s : State) (v : Nat) : (s.setHi v).rounds = s.rounds := rfl
@[simp] theorem State.setHi_err (s : State) (v : Nat) : (s.setHi v).err = s.err := rfl
@[simp] theorem State.setHi_ecause (s : State) (v : Nat) : (s.setHi v).ecause = s.ecause := rfl
@[simp] theorem State.setHi_einfo (s : State) (v : Nat) : (s.setHi v).einfo = s.einfo := rfl
@[simp] theorem State.setHi_rpos (s : State) (v : Nat) : (s.setHi v).rpos = s.rpos := rfl
@[simp] theorem State.setHi_offered (s : State) (v : Nat) : (s.setHi v).offered = s.offered := rfl
@[simp] theorem State.setHi_drawn (s : State) (v : Nat) : (s.setHi v).drawn = s.drawn := rfl
@[simp] theorem State.setHi_rst (s : State) (v : Nat) : (s.setHi v).rst = s.rst := rfl
@[simp] theorem State.setHi_rdata (s : State) (v : Nat) : (s.setHi v).rdata = s.rdata := rfl
@[simp] theorem State.setHi_env (s : State) (v : Nat) : (s.setHi v).env = s.env := rfl

/-! ### `setZ` -/

@[simp] theorem State.setZ_width (s : State) (v : Bool) : (s.setZ v).width = s.width := rfl
@[simp] theorem State.setZ_b (s : State) (v : Bool) : (s.setZ v).b = s.b := rfl
@[simp] theorem State.setZ_hi (s : State) (v : Bool) : (s.setZ v).hi = s.hi := rfl
@[simp] theorem State.setZ_z (s : State) (v : Bool) : (s.setZ v).z = v := rfl
@[simp] theorem State.setZ_c (s : State) (v : Bool) : (s.setZ v).c = s.c := rfl
@[simp] theorem State.setZ_p (s : State) (v : Bool) : (s.setZ v).p = s.p := rfl
@[simp] theorem State.setZ_phase (s : State) (v : Bool) : (s.setZ v).phase = s.phase := rfl
@[simp] theorem State.setZ_ie (s : State) (v : Bool) : (s.setZ v).ie = s.ie := rfl
@[simp] theorem State.setZ_done (s : State) (v : Bool) : (s.setZ v).done = s.done := rfl
@[simp] theorem State.setZ_cmd (s : State) (v : Bool) : (s.setZ v).cmd = s.cmd := rfl
@[simp] theorem State.setZ_rounds (s : State) (v : Bool) : (s.setZ v).rounds = s.rounds := rfl
@[simp] theorem State.setZ_err (s : State) (v : Bool) : (s.setZ v).err = s.err := rfl
@[simp] theorem State.setZ_ecause (s : State) (v : Bool) : (s.setZ v).ecause = s.ecause := rfl
@[simp] theorem State.setZ_einfo (s : State) (v : Bool) : (s.setZ v).einfo = s.einfo := rfl
@[simp] theorem State.setZ_rpos (s : State) (v : Bool) : (s.setZ v).rpos = s.rpos := rfl
@[simp] theorem State.setZ_offered (s : State) (v : Bool) : (s.setZ v).offered = s.offered := rfl
@[simp] theorem State.setZ_drawn (s : State) (v : Bool) : (s.setZ v).drawn = s.drawn := rfl
@[simp] theorem State.setZ_rst (s : State) (v : Bool) : (s.setZ v).rst = s.rst := rfl
@[simp] theorem State.setZ_rdata (s : State) (v : Bool) : (s.setZ v).rdata = s.rdata := rfl
@[simp] theorem State.setZ_env (s : State) (v : Bool) : (s.setZ v).env = s.env := rfl

/-! ### `setC` -/

@[simp] theorem State.setC_width (s : State) (v : Bool) : (s.setC v).width = s.width := rfl
@[simp] theorem State.setC_b (s : State) (v : Bool) : (s.setC v).b = s.b := rfl
@[simp] theorem State.setC_hi (s : State) (v : Bool) : (s.setC v).hi = s.hi := rfl
@[simp] theorem State.setC_z (s : State) (v : Bool) : (s.setC v).z = s.z := rfl
@[simp] theorem State.setC_c (s : State) (v : Bool) : (s.setC v).c = v := rfl
@[simp] theorem State.setC_p (s : State) (v : Bool) : (s.setC v).p = s.p := rfl
@[simp] theorem State.setC_phase (s : State) (v : Bool) : (s.setC v).phase = s.phase := rfl
@[simp] theorem State.setC_ie (s : State) (v : Bool) : (s.setC v).ie = s.ie := rfl
@[simp] theorem State.setC_done (s : State) (v : Bool) : (s.setC v).done = s.done := rfl
@[simp] theorem State.setC_cmd (s : State) (v : Bool) : (s.setC v).cmd = s.cmd := rfl
@[simp] theorem State.setC_rounds (s : State) (v : Bool) : (s.setC v).rounds = s.rounds := rfl
@[simp] theorem State.setC_err (s : State) (v : Bool) : (s.setC v).err = s.err := rfl
@[simp] theorem State.setC_ecause (s : State) (v : Bool) : (s.setC v).ecause = s.ecause := rfl
@[simp] theorem State.setC_einfo (s : State) (v : Bool) : (s.setC v).einfo = s.einfo := rfl
@[simp] theorem State.setC_rpos (s : State) (v : Bool) : (s.setC v).rpos = s.rpos := rfl
@[simp] theorem State.setC_offered (s : State) (v : Bool) : (s.setC v).offered = s.offered := rfl
@[simp] theorem State.setC_drawn (s : State) (v : Bool) : (s.setC v).drawn = s.drawn := rfl
@[simp] theorem State.setC_rst (s : State) (v : Bool) : (s.setC v).rst = s.rst := rfl
@[simp] theorem State.setC_rdata (s : State) (v : Bool) : (s.setC v).rdata = s.rdata := rfl
@[simp] theorem State.setC_env (s : State) (v : Bool) : (s.setC v).env = s.env := rfl

/-! ### `setP` -/

@[simp] theorem State.setP_width (s : State) (v : Bool) : (s.setP v).width = s.width := rfl
@[simp] theorem State.setP_b (s : State) (v : Bool) : (s.setP v).b = s.b := rfl
@[simp] theorem State.setP_hi (s : State) (v : Bool) : (s.setP v).hi = s.hi := rfl
@[simp] theorem State.setP_z (s : State) (v : Bool) : (s.setP v).z = s.z := rfl
@[simp] theorem State.setP_c (s : State) (v : Bool) : (s.setP v).c = s.c := rfl
@[simp] theorem State.setP_p (s : State) (v : Bool) : (s.setP v).p = v := rfl
@[simp] theorem State.setP_phase (s : State) (v : Bool) : (s.setP v).phase = s.phase := rfl
@[simp] theorem State.setP_ie (s : State) (v : Bool) : (s.setP v).ie = s.ie := rfl
@[simp] theorem State.setP_done (s : State) (v : Bool) : (s.setP v).done = s.done := rfl
@[simp] theorem State.setP_cmd (s : State) (v : Bool) : (s.setP v).cmd = s.cmd := rfl
@[simp] theorem State.setP_rounds (s : State) (v : Bool) : (s.setP v).rounds = s.rounds := rfl
@[simp] theorem State.setP_err (s : State) (v : Bool) : (s.setP v).err = s.err := rfl
@[simp] theorem State.setP_ecause (s : State) (v : Bool) : (s.setP v).ecause = s.ecause := rfl
@[simp] theorem State.setP_einfo (s : State) (v : Bool) : (s.setP v).einfo = s.einfo := rfl
@[simp] theorem State.setP_rpos (s : State) (v : Bool) : (s.setP v).rpos = s.rpos := rfl
@[simp] theorem State.setP_offered (s : State) (v : Bool) : (s.setP v).offered = s.offered := rfl
@[simp] theorem State.setP_drawn (s : State) (v : Bool) : (s.setP v).drawn = s.drawn := rfl
@[simp] theorem State.setP_rst (s : State) (v : Bool) : (s.setP v).rst = s.rst := rfl
@[simp] theorem State.setP_rdata (s : State) (v : Bool) : (s.setP v).rdata = s.rdata := rfl
@[simp] theorem State.setP_env (s : State) (v : Bool) : (s.setP v).env = s.env := rfl

/-! ### `result` -/

@[simp] theorem State.result_width (s : State) (r : Reg) (v : Nat) : (s.result r v).width = s.width := rfl
@[simp] theorem State.result_b (s : State) (r : Reg) (v : Nat) : (s.result r v).b = s.b.set r.val (v % 2 ^ s.width.bits) r.isLt := rfl
@[simp] theorem State.result_hi (s : State) (r : Reg) (v : Nat) : (s.result r v).hi = s.hi := rfl
@[simp] theorem State.result_z (s : State) (r : Reg) (v : Nat) : (s.result r v).z = zeroFlag v := rfl
@[simp] theorem State.result_c (s : State) (r : Reg) (v : Nat) : (s.result r v).c = s.c := rfl
@[simp] theorem State.result_p (s : State) (r : Reg) (v : Nat) : (s.result r v).p = s.p := rfl
@[simp] theorem State.result_phase (s : State) (r : Reg) (v : Nat) : (s.result r v).phase = s.phase := rfl
@[simp] theorem State.result_ie (s : State) (r : Reg) (v : Nat) : (s.result r v).ie = s.ie := rfl
@[simp] theorem State.result_done (s : State) (r : Reg) (v : Nat) : (s.result r v).done = s.done := rfl
@[simp] theorem State.result_cmd (s : State) (r : Reg) (v : Nat) : (s.result r v).cmd = s.cmd := rfl
@[simp] theorem State.result_rounds (s : State) (r : Reg) (v : Nat) : (s.result r v).rounds = s.rounds := rfl
@[simp] theorem State.result_err (s : State) (r : Reg) (v : Nat) : (s.result r v).err = s.err := rfl
@[simp] theorem State.result_ecause (s : State) (r : Reg) (v : Nat) : (s.result r v).ecause = s.ecause := rfl
@[simp] theorem State.result_einfo (s : State) (r : Reg) (v : Nat) : (s.result r v).einfo = s.einfo := rfl
@[simp] theorem State.result_rpos (s : State) (r : Reg) (v : Nat) : (s.result r v).rpos = s.rpos := rfl
@[simp] theorem State.result_offered (s : State) (r : Reg) (v : Nat) : (s.result r v).offered = s.offered := rfl
@[simp] theorem State.result_drawn (s : State) (r : Reg) (v : Nat) : (s.result r v).drawn = s.drawn := rfl
@[simp] theorem State.result_rst (s : State) (r : Reg) (v : Nat) : (s.result r v).rst = s.rst := rfl
@[simp] theorem State.result_rdata (s : State) (r : Reg) (v : Nat) : (s.result r v).rdata = s.rdata := rfl
@[simp] theorem State.result_env (s : State) (r : Reg) (v : Nat) : (s.result r v).env = s.env := rfl

/-! ### `finish` -/

@[simp] theorem State.finish_width (s : State) : (s.finish).width = s.width := rfl
@[simp] theorem State.finish_b (s : State) : (s.finish).b = s.b := rfl
@[simp] theorem State.finish_hi (s : State) : (s.finish).hi = s.hi := rfl
@[simp] theorem State.finish_z (s : State) : (s.finish).z = s.z := rfl
@[simp] theorem State.finish_c (s : State) : (s.finish).c = s.c := rfl
@[simp] theorem State.finish_p (s : State) : (s.finish).p = s.p := rfl
@[simp] theorem State.finish_phase (s : State) : (s.finish).phase = .idle := rfl
@[simp] theorem State.finish_ie (s : State) : (s.finish).ie = s.ie := rfl
@[simp] theorem State.finish_done (s : State) : (s.finish).done = true := rfl
@[simp] theorem State.finish_cmd (s : State) : (s.finish).cmd = s.cmd := rfl
@[simp] theorem State.finish_rounds (s : State) : (s.finish).rounds = s.rounds := rfl
@[simp] theorem State.finish_err (s : State) : (s.finish).err = s.err := rfl
@[simp] theorem State.finish_ecause (s : State) : (s.finish).ecause = s.ecause := rfl
@[simp] theorem State.finish_einfo (s : State) : (s.finish).einfo = s.einfo := rfl
@[simp] theorem State.finish_rpos (s : State) : (s.finish).rpos = s.rpos := rfl
@[simp] theorem State.finish_offered (s : State) : (s.finish).offered = s.offered := rfl
@[simp] theorem State.finish_drawn (s : State) : (s.finish).drawn = [] := rfl
@[simp] theorem State.finish_rst (s : State) : (s.finish).rst = s.rst := rfl
@[simp] theorem State.finish_rdata (s : State) : (s.finish).rdata = s.rdata := rfl
@[simp] theorem State.finish_env (s : State) : (s.finish).env = s.env := rfl

/-! ### `record` -/

@[simp] theorem State.record_width (s : State) (c : Cause) (i : W32) : (s.record c i).width = s.width := rfl
@[simp] theorem State.record_b (s : State) (c : Cause) (i : W32) : (s.record c i).b = s.b := rfl
@[simp] theorem State.record_hi (s : State) (c : Cause) (i : W32) : (s.record c i).hi = s.hi := rfl
@[simp] theorem State.record_z (s : State) (c : Cause) (i : W32) : (s.record c i).z = s.z := rfl
@[simp] theorem State.record_c (s : State) (c : Cause) (i : W32) : (s.record c i).c = s.c := rfl
@[simp] theorem State.record_p (s : State) (c : Cause) (i : W32) : (s.record c i).p = s.p := rfl
@[simp] theorem State.record_phase (s : State) (c : Cause) (i : W32) : (s.record c i).phase = s.phase := rfl
@[simp] theorem State.record_ie (s : State) (c : Cause) (i : W32) : (s.record c i).ie = s.ie := rfl
@[simp] theorem State.record_done (s : State) (c : Cause) (i : W32) : (s.record c i).done = s.done := rfl
@[simp] theorem State.record_cmd (s : State) (c : Cause) (i : W32) : (s.record c i).cmd = s.cmd := rfl
@[simp] theorem State.record_rounds (s : State) (c : Cause) (i : W32) : (s.record c i).rounds = s.rounds := rfl
@[simp] theorem State.record_err (s : State) (c : Cause) (i : W32) : (s.record c i).err = s.err ||| c.bit := rfl
@[simp] theorem State.record_ecause (s : State) (c : Cause) (i : W32) : (s.record c i).ecause = BitVec.ofNat 32 c.code := rfl
@[simp] theorem State.record_einfo (s : State) (c : Cause) (i : W32) : (s.record c i).einfo = i := rfl
@[simp] theorem State.record_rpos (s : State) (c : Cause) (i : W32) : (s.record c i).rpos = s.rpos := rfl
@[simp] theorem State.record_offered (s : State) (c : Cause) (i : W32) : (s.record c i).offered = s.offered := rfl
@[simp] theorem State.record_drawn (s : State) (c : Cause) (i : W32) : (s.record c i).drawn = s.drawn := rfl
@[simp] theorem State.record_rst (s : State) (c : Cause) (i : W32) : (s.record c i).rst = s.rst := rfl
@[simp] theorem State.record_rdata (s : State) (c : Cause) (i : W32) : (s.record c i).rdata = s.rdata := rfl
@[simp] theorem State.record_env (s : State) (c : Cause) (i : W32) : (s.record c i).env = s.env := rfl

/-! ### `raise` -/

@[simp] theorem State.raise_width (s : State) (c : Cause) : (s.raise c).width = s.width := rfl
@[simp] theorem State.raise_b (s : State) (c : Cause) : (s.raise c).b = s.b := rfl
@[simp] theorem State.raise_hi (s : State) (c : Cause) : (s.raise c).hi = s.hi := rfl
@[simp] theorem State.raise_z (s : State) (c : Cause) : (s.raise c).z = s.z := rfl
@[simp] theorem State.raise_c (s : State) (c : Cause) : (s.raise c).c = s.c := rfl
@[simp] theorem State.raise_p (s : State) (c : Cause) : (s.raise c).p = s.p := rfl
@[simp] theorem State.raise_phase (s : State) (c : Cause) : (s.raise c).phase = .idle := rfl
@[simp] theorem State.raise_ie (s : State) (c : Cause) : (s.raise c).ie = s.ie := rfl
@[simp] theorem State.raise_done (s : State) (c : Cause) : (s.raise c).done = true := rfl
@[simp] theorem State.raise_cmd (s : State) (c : Cause) : (s.raise c).cmd = s.cmd := rfl
@[simp] theorem State.raise_rounds (s : State) (c : Cause) : (s.raise c).rounds = s.rounds := rfl
@[simp] theorem State.raise_err (s : State) (c : Cause) : (s.raise c).err = s.err ||| c.bit := rfl
@[simp] theorem State.raise_ecause (s : State) (c : Cause) : (s.raise c).ecause = BitVec.ofNat 32 c.code := rfl
@[simp] theorem State.raise_einfo (s : State) (c : Cause) : (s.raise c).einfo = s.acceptedCmd := rfl
@[simp] theorem State.raise_rpos (s : State) (c : Cause) : (s.raise c).rpos = s.rpos := rfl
@[simp] theorem State.raise_offered (s : State) (c : Cause) : (s.raise c).offered = s.offered := rfl
@[simp] theorem State.raise_drawn (s : State) (c : Cause) : (s.raise c).drawn = [] := rfl
@[simp] theorem State.raise_rst (s : State) (c : Cause) : (s.raise c).rst = s.rst := rfl
@[simp] theorem State.raise_rdata (s : State) (c : Cause) : (s.raise c).rdata = s.rdata := rfl
@[simp] theorem State.raise_env (s : State) (c : Cause) : (s.raise c).env = s.env := rfl

/-! ### `refuse` -/

@[simp] theorem State.refuse_width (s : State) (a : Nat) : (s.refuse a).width = s.width := rfl
@[simp] theorem State.refuse_b (s : State) (a : Nat) : (s.refuse a).b = s.b := rfl
@[simp] theorem State.refuse_hi (s : State) (a : Nat) : (s.refuse a).hi = s.hi := rfl
@[simp] theorem State.refuse_z (s : State) (a : Nat) : (s.refuse a).z = s.z := rfl
@[simp] theorem State.refuse_c (s : State) (a : Nat) : (s.refuse a).c = s.c := rfl
@[simp] theorem State.refuse_p (s : State) (a : Nat) : (s.refuse a).p = s.p := rfl
@[simp] theorem State.refuse_phase (s : State) (a : Nat) : (s.refuse a).phase = s.phase := rfl
@[simp] theorem State.refuse_ie (s : State) (a : Nat) : (s.refuse a).ie = s.ie := rfl
@[simp] theorem State.refuse_done (s : State) (a : Nat) : (s.refuse a).done = s.done := rfl
@[simp] theorem State.refuse_cmd (s : State) (a : Nat) : (s.refuse a).cmd = s.cmd := rfl
@[simp] theorem State.refuse_rounds (s : State) (a : Nat) : (s.refuse a).rounds = s.rounds := rfl
@[simp] theorem State.refuse_err (s : State) (a : Nat) : (s.refuse a).err = s.err ||| Cause.access.bit := rfl
@[simp] theorem State.refuse_ecause (s : State) (a : Nat) : (s.refuse a).ecause = BitVec.ofNat 32 Cause.access.code := rfl
@[simp] theorem State.refuse_einfo (s : State) (a : Nat) : (s.refuse a).einfo = BitVec.ofNat 32 a := rfl
@[simp] theorem State.refuse_rpos (s : State) (a : Nat) : (s.refuse a).rpos = s.rpos := rfl
@[simp] theorem State.refuse_offered (s : State) (a : Nat) : (s.refuse a).offered = s.offered := rfl
@[simp] theorem State.refuse_drawn (s : State) (a : Nat) : (s.refuse a).drawn = s.drawn := rfl
@[simp] theorem State.refuse_rst (s : State) (a : Nat) : (s.refuse a).rst = s.rst := rfl
@[simp] theorem State.refuse_rdata (s : State) (a : Nat) : (s.refuse a).rdata = s.rdata := rfl
@[simp] theorem State.refuse_env (s : State) (a : Nat) : (s.refuse a).env = s.env := rfl

/-! ### `clearErr` -/

@[simp] theorem State.clearErr_width (s : State) (v : W32) : (s.clearErr v).width = s.width := rfl
@[simp] theorem State.clearErr_b (s : State) (v : W32) : (s.clearErr v).b = s.b := rfl
@[simp] theorem State.clearErr_hi (s : State) (v : W32) : (s.clearErr v).hi = s.hi := rfl
@[simp] theorem State.clearErr_z (s : State) (v : W32) : (s.clearErr v).z = s.z := rfl
@[simp] theorem State.clearErr_c (s : State) (v : W32) : (s.clearErr v).c = s.c := rfl
@[simp] theorem State.clearErr_p (s : State) (v : W32) : (s.clearErr v).p = s.p := rfl
@[simp] theorem State.clearErr_phase (s : State) (v : W32) : (s.clearErr v).phase = s.phase := rfl
@[simp] theorem State.clearErr_ie (s : State) (v : W32) : (s.clearErr v).ie = s.ie := rfl
@[simp] theorem State.clearErr_done (s : State) (v : W32) : (s.clearErr v).done = s.done := rfl
@[simp] theorem State.clearErr_cmd (s : State) (v : W32) : (s.clearErr v).cmd = s.cmd := rfl
@[simp] theorem State.clearErr_rounds (s : State) (v : W32) : (s.clearErr v).rounds = s.rounds := rfl
@[simp] theorem State.clearErr_err (s : State) (v : W32) : (s.clearErr v).err = s.err &&& ~~~(v &&& 0x7E#32) := rfl
@[simp] theorem State.clearErr_ecause (s : State) (v : W32) : (s.clearErr v).ecause = s.ecause := rfl
@[simp] theorem State.clearErr_einfo (s : State) (v : W32) : (s.clearErr v).einfo = s.einfo := rfl
@[simp] theorem State.clearErr_rpos (s : State) (v : W32) : (s.clearErr v).rpos = s.rpos := rfl
@[simp] theorem State.clearErr_offered (s : State) (v : W32) : (s.clearErr v).offered = s.offered := rfl
@[simp] theorem State.clearErr_drawn (s : State) (v : W32) : (s.clearErr v).drawn = s.drawn := rfl
@[simp] theorem State.clearErr_rst (s : State) (v : W32) : (s.clearErr v).rst = s.rst := rfl
@[simp] theorem State.clearErr_rdata (s : State) (v : W32) : (s.clearErr v).rdata = s.rdata := rfl
@[simp] theorem State.clearErr_env (s : State) (v : W32) : (s.clearErr v).env = s.env := rfl

/-! ### `accept` -/

@[simp] theorem State.accept_width (s : State) (v : W32) : (s.accept v).width = s.width := rfl
@[simp] theorem State.accept_b (s : State) (v : W32) : (s.accept v).b = s.b := rfl
@[simp] theorem State.accept_hi (s : State) (v : W32) : (s.accept v).hi = s.hi := rfl
@[simp] theorem State.accept_z (s : State) (v : W32) : (s.accept v).z = s.z := rfl
@[simp] theorem State.accept_c (s : State) (v : W32) : (s.accept v).c = s.c := rfl
@[simp] theorem State.accept_p (s : State) (v : W32) : (s.accept v).p = s.p := rfl
@[simp] theorem State.accept_phase (s : State) (v : W32) : (s.accept v).phase = .busy v s.rounds := rfl
@[simp] theorem State.accept_ie (s : State) (v : W32) : (s.accept v).ie = s.ie := rfl
@[simp] theorem State.accept_done (s : State) (v : W32) : (s.accept v).done = false := rfl
@[simp] theorem State.accept_cmd (s : State) (v : W32) : (s.accept v).cmd = v := rfl
@[simp] theorem State.accept_rounds (s : State) (v : W32) : (s.accept v).rounds = s.rounds := rfl
@[simp] theorem State.accept_err (s : State) (v : W32) : (s.accept v).err = s.err := rfl
@[simp] theorem State.accept_ecause (s : State) (v : W32) : (s.accept v).ecause = s.ecause := rfl
@[simp] theorem State.accept_einfo (s : State) (v : W32) : (s.accept v).einfo = s.einfo := rfl
@[simp] theorem State.accept_rpos (s : State) (v : W32) : (s.accept v).rpos = s.rpos := rfl
@[simp] theorem State.accept_offered (s : State) (v : W32) : (s.accept v).offered = s.offered := rfl
@[simp] theorem State.accept_drawn (s : State) (v : W32) : (s.accept v).drawn = [] := rfl
@[simp] theorem State.accept_rst (s : State) (v : W32) : (s.accept v).rst = s.rst := rfl
@[simp] theorem State.accept_rdata (s : State) (v : W32) : (s.accept v).rdata = s.rdata := rfl
@[simp] theorem State.accept_env (s : State) (v : W32) : (s.accept v).env = s.env := rfl

/-! ### `offerWord` -/

@[simp] theorem State.offerWord_width (s : State) (w : Rnd) : (s.offerWord w).width = s.width := rfl
@[simp] theorem State.offerWord_b (s : State) (w : Rnd) : (s.offerWord w).b = s.b := rfl
@[simp] theorem State.offerWord_hi (s : State) (w : Rnd) : (s.offerWord w).hi = s.hi := rfl
@[simp] theorem State.offerWord_z (s : State) (w : Rnd) : (s.offerWord w).z = s.z := rfl
@[simp] theorem State.offerWord_c (s : State) (w : Rnd) : (s.offerWord w).c = s.c := rfl
@[simp] theorem State.offerWord_p (s : State) (w : Rnd) : (s.offerWord w).p = s.p := rfl
@[simp] theorem State.offerWord_phase (s : State) (w : Rnd) : (s.offerWord w).phase = s.phase := rfl
@[simp] theorem State.offerWord_ie (s : State) (w : Rnd) : (s.offerWord w).ie = s.ie := rfl
@[simp] theorem State.offerWord_done (s : State) (w : Rnd) : (s.offerWord w).done = s.done := rfl
@[simp] theorem State.offerWord_cmd (s : State) (w : Rnd) : (s.offerWord w).cmd = s.cmd := rfl
@[simp] theorem State.offerWord_rounds (s : State) (w : Rnd) : (s.offerWord w).rounds = s.rounds := rfl
@[simp] theorem State.offerWord_err (s : State) (w : Rnd) : (s.offerWord w).err = s.err := rfl
@[simp] theorem State.offerWord_ecause (s : State) (w : Rnd) : (s.offerWord w).ecause = s.ecause := rfl
@[simp] theorem State.offerWord_einfo (s : State) (w : Rnd) : (s.offerWord w).einfo = s.einfo := rfl
@[simp] theorem State.offerWord_rpos (s : State) (w : Rnd) : (s.offerWord w).rpos = s.rpos := rfl
@[simp] theorem State.offerWord_offered (s : State) (w : Rnd) : (s.offerWord w).offered = s.offered ++ [w] := rfl
@[simp] theorem State.offerWord_drawn (s : State) (w : Rnd) : (s.offerWord w).drawn = s.drawn := rfl
@[simp] theorem State.offerWord_rst (s : State) (w : Rnd) : (s.offerWord w).rst = s.rst := rfl
@[simp] theorem State.offerWord_rdata (s : State) (w : Rnd) : (s.offerWord w).rdata = s.rdata := rfl
@[simp] theorem State.offerWord_env (s : State) (w : Rnd) : (s.offerWord w).env = s.env := rfl

/-! ### `hold` -/

@[simp] theorem State.hold_width (s : State) : (s.hold).width = s.width := rfl
@[simp] theorem State.hold_b (s : State) : (s.hold).b = s.b := rfl
@[simp] theorem State.hold_hi (s : State) : (s.hold).hi = s.hi := rfl
@[simp] theorem State.hold_z (s : State) : (s.hold).z = s.z := rfl
@[simp] theorem State.hold_c (s : State) : (s.hold).c = s.c := rfl
@[simp] theorem State.hold_p (s : State) : (s.hold).p = s.p := rfl
@[simp] theorem State.hold_phase (s : State) : (s.hold).phase = s.phase := rfl
@[simp] theorem State.hold_ie (s : State) : (s.hold).ie = s.ie := rfl
@[simp] theorem State.hold_done (s : State) : (s.hold).done = s.done := rfl
@[simp] theorem State.hold_cmd (s : State) : (s.hold).cmd = s.cmd := rfl
@[simp] theorem State.hold_rounds (s : State) : (s.hold).rounds = s.rounds := rfl
@[simp] theorem State.hold_err (s : State) : (s.hold).err = s.err := rfl
@[simp] theorem State.hold_ecause (s : State) : (s.hold).ecause = s.ecause := rfl
@[simp] theorem State.hold_einfo (s : State) : (s.hold).einfo = s.einfo := rfl
@[simp] theorem State.hold_rpos (s : State) : (s.hold).rpos = s.rpos + s.offered.length := rfl
@[simp] theorem State.hold_offered (s : State) : (s.hold).offered = [] := rfl
@[simp] theorem State.hold_drawn (s : State) : (s.hold).drawn = s.drawn ++ s.offered := rfl
@[simp] theorem State.hold_rst (s : State) : (s.hold).rst = s.rst := rfl
@[simp] theorem State.hold_rdata (s : State) : (s.hold).rdata = s.rdata := rfl
@[simp] theorem State.hold_env (s : State) : (s.hold).env = s.env := rfl

/-! ### `consume` -/

@[simp] theorem State.consume_width (s : State) (rest : List Rnd) : (s.consume rest).width = s.width := rfl
@[simp] theorem State.consume_b (s : State) (rest : List Rnd) : (s.consume rest).b = s.b := rfl
@[simp] theorem State.consume_hi (s : State) (rest : List Rnd) : (s.consume rest).hi = s.hi := rfl
@[simp] theorem State.consume_z (s : State) (rest : List Rnd) : (s.consume rest).z = s.z := rfl
@[simp] theorem State.consume_c (s : State) (rest : List Rnd) : (s.consume rest).c = s.c := rfl
@[simp] theorem State.consume_p (s : State) (rest : List Rnd) : (s.consume rest).p = s.p := rfl
@[simp] theorem State.consume_phase (s : State) (rest : List Rnd) : (s.consume rest).phase = s.phase := rfl
@[simp] theorem State.consume_ie (s : State) (rest : List Rnd) : (s.consume rest).ie = s.ie := rfl
@[simp] theorem State.consume_done (s : State) (rest : List Rnd) : (s.consume rest).done = s.done := rfl
@[simp] theorem State.consume_cmd (s : State) (rest : List Rnd) : (s.consume rest).cmd = s.cmd := rfl
@[simp] theorem State.consume_rounds (s : State) (rest : List Rnd) : (s.consume rest).rounds = s.rounds := rfl
@[simp] theorem State.consume_err (s : State) (rest : List Rnd) : (s.consume rest).err = s.err := rfl
@[simp] theorem State.consume_ecause (s : State) (rest : List Rnd) : (s.consume rest).ecause = s.ecause := rfl
@[simp] theorem State.consume_einfo (s : State) (rest : List Rnd) : (s.consume rest).einfo = s.einfo := rfl
@[simp] theorem State.consume_rpos (s : State) (rest : List Rnd) : (s.consume rest).rpos = s.rpos + s.fresh rest := rfl
@[simp] theorem State.consume_offered (s : State) (rest : List Rnd) : (s.consume rest).offered = s.offered.drop (s.fresh rest) := rfl
@[simp] theorem State.consume_drawn (s : State) (rest : List Rnd) : (s.consume rest).drawn = s.drawn := rfl
@[simp] theorem State.consume_rst (s : State) (rest : List Rnd) : (s.consume rest).rst = s.rst := rfl
@[simp] theorem State.consume_rdata (s : State) (rest : List Rnd) : (s.consume rest).rdata = s.rdata := rfl
@[simp] theorem State.consume_env (s : State) (rest : List Rnd) : (s.consume rest).env = s.env := rfl

end Sys2Proof.Machine
end

