-- ==== Sys2Proof/Laws/Ops.lean ====
section
/-! SUPPORT. One lemma per shared operation: reading a register after each update, how a command can end, and what a
draw-and-complete does. Proofs cite these and unfold nothing. -/

namespace Sys2Proof.Machine

/-! ### Registers and `HI` -/

/-- `W` is at least 64 (R5), so an immediate fits in a register (R60). -/
theorem imm_lt {n : Nat} (h : n < 2 ^ 16) (w : Config.Width) : n < 2 ^ w.bits := by
  have := w.atLeast
  exact lt_of_lt_of_le h (Nat.pow_le_pow_right (by decide) (by simp only [Config.Width.bits, Config.LIMB]; omega))

theorem State.val_lt (s : State) (r : Reg) : s.val r < 2 ^ s.width.bits := Nat.mod_lt _ (Nat.two_pow_pos _)

theorem State.hiVal_lt (s : State) : s.hiVal < 2 ^ s.width.bits := Nat.mod_lt _ (Nat.two_pow_pos _)

/-- A value below `2^W` is written whole. -/
theorem State.val_mod (s : State) (r : Reg) : s.val r % 2 ^ s.width.bits = s.val r :=
  Nat.mod_eq_of_lt (s.val_lt r)

/-- Two states of the same `W` with the same register file read the same. -/
theorem State.val_congr {s t : State} (w : t.width = s.width) (h : t.b = s.b) (r : Reg) : t.val r = s.val r := by
  simp [State.val, h, w]

theorem State.hiVal_congr {s t : State} (w : t.width = s.width) (h : t.hi = s.hi) : t.hiVal = s.hiVal := by
  simp [State.hiVal, h, w]

/-- Under the invariant a register is its field (R13). -/
theorem State.Inv.val_eq {s : State} (h : s.Inv) (r : Reg) : s.val r = s.b[r.val] := Nat.mod_eq_of_lt (h.regs_fit r)

/-- A register after a register write: the written one holds the value narrowed to `W` bits (R8). -/
@[simp] theorem State.val_setReg (s : State) (r r' : Reg) (v : Nat) :
    (s.setReg r v).val r' = if r = r' then v % 2 ^ s.width.bits else s.val r' := by
  by_cases h : r = r'
  · subst h; simp [State.val]
  · have : r.val ≠ r'.val := fun e => h (Fin.ext e)
    simp [State.val, h, Vector.getElem_set_ne _ _ this]

/-- Every field of the register file and `HI` is below `2^W` (R37): what `State.Inv` says of them. -/
def State.Fits (s : State) : Prop := (∀ r : Reg, s.b[r.val] < 2 ^ s.width.bits) ∧ s.hi < 2 ^ s.width.bits

theorem State.Inv.fits {s : State} (h : s.Inv) : s.Fits := ⟨h.regs_fit, h.hi_fits⟩

/-- A register write narrows, so the register file still fits. -/
theorem State.Fits.setReg {s : State} (h : s.Fits) (r : Reg) (v : Nat) : (s.setReg r v).Fits := by
  refine ⟨fun r' => ?_, h.2⟩
  by_cases e : r.val = r'.val
  · simp only [State.setReg_b, State.setReg_width, e, Vector.getElem_set_self]
    exact Nat.mod_lt _ (Nat.two_pow_pos _)
  · simpa only [State.setReg_b, State.setReg_width, Vector.getElem_set_ne _ _ e] using h.1 r'

theorem State.Fits.setHi {s : State} (h : s.Fits) (v : Nat) : (s.setHi v).Fits :=
  ⟨h.1, Nat.mod_lt _ (Nat.two_pow_pos _)⟩

theorem State.Fits.setZ {s : State} (h : s.Fits) (v : Bool) : (s.setZ v).Fits := h
theorem State.Fits.setC {s : State} (h : s.Fits) (v : Bool) : (s.setC v).Fits := h
theorem State.Fits.setP {s : State} (h : s.Fits) (v : Bool) : (s.setP v).Fits := h
theorem State.Fits.result {s : State} (h : s.Fits) (r : Reg) (v : Nat) : (s.result r v).Fits :=
  (h.setReg r v).setZ _
theorem State.Fits.setKeys {s : State} (h : s.Fits) (y : Keys) : (s.setKeys y).Fits :=
  (((((h.setReg _ _).setReg _ _).setReg _ _).setReg _ _).setReg _ _).setReg _ _

@[simp] theorem State.val_result (s : State) (r r' : Reg) (v : Nat) :
    (s.result r v).val r' = if r = r' then v % 2 ^ s.width.bits else s.val r' :=
  State.val_setReg s r r' v

@[simp] theorem State.val_setHi (s : State) (v : Nat) (r : Reg) : (s.setHi v).val r = s.val r := rfl
@[simp] theorem State.val_setZ (s : State) (v : Bool) (r : Reg) : (s.setZ v).val r = s.val r := rfl
@[simp] theorem State.val_setC (s : State) (v : Bool) (r : Reg) : (s.setC v).val r = s.val r := rfl
@[simp] theorem State.val_setP (s : State) (v : Bool) (r : Reg) : (s.setP v).val r = s.val r := rfl
@[simp] theorem State.val_finish (s : State) (r : Reg) : s.finish.val r = s.val r := rfl
@[simp] theorem State.val_record (s : State) (c : Cause) (i : W32) (r : Reg) :
    (s.record c i).val r = s.val r := rfl
@[simp] theorem State.val_raise (s : State) (c : Cause) (r : Reg) : (s.raise c).val r = s.val r := rfl
@[simp] theorem State.val_hold (s : State) (r : Reg) : s.hold.val r = s.val r := rfl
@[simp] theorem State.val_consume (s : State) (rest : List Rnd) (r : Reg) :
    (s.consume rest).val r = s.val r := rfl

@[simp] theorem State.hiVal_setHi (s : State) (v : Nat) : (s.setHi v).hiVal = v % 2 ^ s.width.bits := by
  simp [State.hiVal]
@[simp] theorem State.hiVal_setReg (s : State) (r : Reg) (v : Nat) : (s.setReg r v).hiVal = s.hiVal := rfl
@[simp] theorem State.hiVal_finish (s : State) : s.finish.hiVal = s.hiVal := rfl

/-! ### The phase -/

theorem State.busy_iff (s : State) : s.busy = true ↔ ∃ w k, s.phase = .busy w k := by
  unfold State.busy; cases s.phase <;> simp

theorem State.busy_eq_false_iff (s : State) : s.busy = false ↔ s.phase = .idle := by
  unfold State.busy; cases s.phase <;> simp

theorem State.busy_congr {s t : State} (h : t.phase = s.phase) : t.busy = s.busy := by
  simp [State.busy, h]

@[simp] theorem State.busy_finish (s : State) : s.finish.busy = false := rfl
@[simp] theorem State.busy_raise (s : State) (c : Cause) : (s.raise c).busy = false := rfl
@[simp] theorem State.busy_hold (s : State) : s.hold.busy = s.busy := rfl

theorem State.acceptedCmd_of_busy {s : State} {w k : W32} (h : s.phase = .busy w k) :
    s.acceptedCmd = w := by simp [State.acceptedCmd, h]

theorem State.latchedRounds_of_busy {s : State} {w k : W32} (h : s.phase = .busy w k) :
    s.latchedRounds = k.toNat := by simp [State.latchedRounds, h]

/-! ### The bit and the code of a cause (R28, R29, R132) -/

theorem Cause.bit_eq (c : Cause) : c.bit = BitVec.ofNat 32 (2 ^ c.code) := by cases c <;> rfl

theorem Cause.bit_reserved (c : Cause) : c.bit &&& 0xFFFFFF81#32 = 0#32 := by cases c <;> rfl

theorem Cause.code_le (c : Cause) : 1 ≤ c.code ∧ c.code ≤ 6 := by cases c <;> decide

/-! ### How a command ends -/

theorem State.finish_ended (s : State) : Ended s.finish := ⟨rfl, rfl, rfl⟩

/-- Fault entry writes the fault registers and ends the command, and writes nothing else (R133). -/
theorem State.raise_faultedWith (s : State) (c : Cause) :
    FaultedWith s (s.raise c) c.code s.acceptedCmd where
  ended := ⟨rfl, rfl, rfl⟩
  control := ⟨rfl, rfl, rfl, rfl, rfl, rfl, rfl⟩
  flags := ⟨rfl, rfl, rfl⟩
  words := ⟨rfl, rfl⟩
  regs := fun _ _ => rfl
  hi := rfl
  err := by simp [Cause.bit_eq]
  ecause := rfl
  einfo := rfl

/-- A hold is the one state of rule R53. -/
theorem State.hold_held (s : State) : Held s s.hold := rfl

/-- Everything a drawing command can do after its checks: it completes with the drawn value written, or it holds. -/
theorem drawThen_cases {α : Type} {s t : State} {d : Draw α} {write : α → State → State}
    (h : drawThen s d write = .next t) :
    (∃ a rest, d s.onHand = some (a, rest) ∧ t = (write a (s.consume rest)).finish) ∨
      (d s.onHand = none ∧ t = s.hold) := by
  unfold drawThen at h
  split at h
  · rename_i a rest e
    exact .inl ⟨a, rest, e, by simpa [complete] using h.symm⟩
  · rename_i e
    exact .inr ⟨e, by simpa using h.symm⟩

theorem drawThen_some {α : Type} {s : State} {d : Draw α} {write : α → State → State} {a : α}
    {rest : List Rnd} (h : d s.onHand = some (a, rest)) :
    drawThen s d write = .next (write a (s.consume rest)).finish := by
  simp [drawThen, h, complete]

theorem drawThen_none {α : Type} {s : State} {d : Draw α} {write : α → State → State}
    (h : d s.onHand = none) : drawThen s d write = .next s.hold := by
  simp [drawThen, h]

/-- A draw that leaves `rest`, a tail of the words on offer, leaves exactly `rest` on offer and counts the others. -/
theorem State.consume_tookUpTo {s : State} {used rest : List Rnd} (h : s.offered = used ++ rest) :
    TookUpTo s (s.consume rest) rest := by
  have e : s.fresh rest = used.length := by
    simp [State.fresh, State.onHand, h]; omega
  refine ⟨?_, ?_⟩
  · rw [State.consume_offered, e, h]; simp
  · rw [State.consume_rpos, e, h]; simp; omega

/-- The completion of a command whose write leaves the control and fault registers alone (R70). -/
theorem State.finish_completed {s t : State} (c : SameControl s t) (f : SameFaults s t) :
    Completed s t.finish :=
  ⟨t.finish_ended, ⟨c.1, c.2, c.3, c.4, c.5, c.6, c.7⟩, ⟨f.1, f.2, f.3⟩⟩

/-- A command with one result below `2^W`, completed: everything it does and everything it leaves (R15, R18, R70). -/
theorem State.result_finish (s : State) (rd : Reg) {v : Nat} (h : v < 2 ^ s.width.bits) :
    let t := (s.result rd v).finish
    t.val rd = v ∧ (t.z = true ↔ t.val rd = 0) ∧ t.c = s.c ∧ t.p = s.p ∧ t.hi = s.hi ∧
      SameRegsBut s t [rd] ∧ SameWords s t ∧ Completed s t := by
  refine ⟨?_, ?_, rfl, rfl, rfl, ?_, ⟨rfl, rfl⟩, State.finish_completed ⟨rfl, rfl, rfl, rfl, rfl, rfl, rfl⟩ ⟨rfl, rfl, rfl⟩⟩
  · simp [Nat.mod_eq_of_lt h]
  · simp [State.result, zeroFlag, Nat.mod_eq_of_lt h]
  · intro r hr; simp at hr; simp [Ne.symm hr]

end Sys2Proof.Machine
end

