-- ==== Sys2Proof/Laws/Draw.lean ====
section
/-! SUPPORT. The draw procedures: `DrawBits` and `DrawRange` do what their rules say (spec/42_primality.md rules R91,
R92), and every draw looks only at the words it takes (spec/20_memory.md rule R52). -/

namespace Sys2Proof.Machine

/-! ### `DrawBits` (R91) -/

theorem testBit_wordsValue : ∀ (ws : List Rnd) (j : Nat),
    (wordsValue ws).testBit j = (ws.getD (j / 32) 0#32).getLsbD (j % 32) := by
  intro ws
  induction ws with
  | nil => intro j; simp [wordsValue]
  | cons w ws ih =>
    intro j
    rw [wordsValue, Nat.add_comm, Nat.testBit_two_pow_mul_add _ w.isLt]
    by_cases h : j < 32
    · simp [h, Nat.div_eq_of_lt h, Nat.mod_eq_of_lt h, BitVec.getLsbD]
    · have e : j / 32 = (j - 32) / 32 + 1 := by omega
      have m : (j - 32) % 32 = j % 32 := by omega
      rw [if_neg h, ih, e, m]; simp

theorem drawBits_some {bits : Nat} {ws rest : List Rnd} {v : Nat}
    (h : drawBits bits ws = some (v, rest)) :
    ∃ group, group.length = wordCount bits ∧ ws = group ++ rest ∧ v = wordsValue group % 2 ^ bits := by
  unfold drawBits at h
  split at h
  · cases h
  · rename_i hl
    obtain ⟨rfl, rfl⟩ : _ ∧ _ := by simpa using h
    exact ⟨ws.take (wordCount bits), by simp; omega, by simp, rfl⟩

theorem drawBits_append {bits : Nat} {group : List Rnd} (h : group.length = wordCount bits)
    (rest : List Rnd) :
    drawBits bits (group ++ rest) = some (wordsValue group % 2 ^ bits, rest) := by
  have hl : ¬ (group ++ rest).length < wordCount bits := by simp [h]
  rw [drawBits, if_neg hl, ← h, List.take_left, List.drop_left]

theorem drawBits_lt {bits : Nat} {ws rest : List Rnd} {v : Nat}
    (h : drawBits bits ws = some (v, rest)) : v < 2 ^ bits := by
  obtain ⟨_, _, _, rfl⟩ := drawBits_some h
  exact Nat.mod_lt _ (Nat.two_pow_pos _)

/-- `DrawBits(L)` is the draw of rule R91, bit by bit. -/
theorem drawBits_iff {bits : Nat} {ws rest : List Rnd} {v : Nat} :
    drawBits bits ws = some (v, rest) ↔ BitsDraw bits ws v rest := by
  constructor
  · intro h
    obtain ⟨group, hl, hw, rfl⟩ := drawBits_some h
    exact ⟨group, hl, hw, fun j => by rw [Nat.testBit_mod_two_pow, testBit_wordsValue]⟩
  · rintro ⟨group, hl, rfl, hb⟩
    rw [drawBits_append hl]
    have : wordsValue group % 2 ^ bits = v :=
      Nat.eq_of_testBit_eq fun j => by rw [hb, Nat.testBit_mod_two_pow, testBit_wordsValue]
    rw [this]

/-! ### A draw looks only at the words it takes (R52) -/

/-- A draw takes a front part of the words on hand, and gives the same value whatever follows that part. -/
def Draw.Local {α : Type} (d : Draw α) : Prop :=
  ∀ ws a rest, d ws = some (a, rest) →
    ∃ used, ws = used ++ rest ∧ ∀ more, d (used ++ more) = some (a, more)

theorem drawBits_local (bits : Nat) : Draw.Local (drawBits bits) := by
  intro ws v rest h
  obtain ⟨group, hl, hw, rfl⟩ := drawBits_some h
  exact ⟨group, hw, drawBits_append hl⟩

/-- A draw that takes a word when there is one to reject takes at least one word (R91). -/
theorem drawBits_takes {bits : Nat} {ws rest : List Rnd} {v : Nat}
    (h : drawBits bits ws = some (v, rest)) (pos : 0 < bits) : rest.length < ws.length := by
  obtain ⟨group, hl, rfl, _⟩ := drawBits_some h
  simp [wordCount] at *; omega

/-! ### `DrawRange` (R92) -/

theorem bitlen_pos_of_rejected {span r : Nat} (lt : r < 2 ^ bitlen span) (gt : span < r) :
    0 < bitlen span := by
  rcases Nat.eq_zero_or_pos (bitlen span) with h | h
  · rw [h] at lt; omega
  · exact h

/-- Enough passes are on hand when there is one more than words: what `DrawRange` answers is the relation of R92. -/
theorem rangeLoop_complete {lo hi : Nat} {ws rest : List Rnd} {a : Nat}
    (h : RangeDraw lo hi ws a rest) :
    ∀ n, ws.length < n → rangeLoop lo (hi - lo) n ws = some (a, rest) := by
  induction h with
  | accept hb d le =>
    intro n hn
    obtain ⟨n, rfl⟩ := Nat.exists_eq_succ_of_ne_zero (by omega : n ≠ 0)
    rw [IsBitlen.eq_bitlen hb] at d
    simp [rangeLoop, drawBits_iff.2 d, le]
  | reject hb d gt _ ih =>
    intro n hn
    obtain ⟨n, rfl⟩ := Nat.exists_eq_succ_of_ne_zero (by omega : n ≠ 0)
    rw [IsBitlen.eq_bitlen hb] at d
    have e := drawBits_iff.2 d
    have t := drawBits_takes e (bitlen_pos_of_rejected (drawBits_lt e) gt)
    simp [rangeLoop, e, Nat.not_le.2 gt, ih n (by omega)]

theorem rangeLoop_sound {lo hi : Nat} : ∀ (n : Nat) {ws rest : List Rnd} {a : Nat},
    rangeLoop lo (hi - lo) n ws = some (a, rest) → RangeDraw lo hi ws a rest := by
  intro n
  induction n with
  | zero => intro ws rest a h; simp [rangeLoop] at h
  | succ n ih =>
    intro ws rest a h
    rw [rangeLoop] at h
    split at h
    · cases h
    · rename_i r ws' e
      split at h
      · rename_i le
        obtain ⟨rfl, rfl⟩ : _ ∧ _ := by simpa using h
        exact .accept (isBitlen_bitlen _) (drawBits_iff.1 e) le
      · rename_i nle
        exact .reject (isBitlen_bitlen _) (drawBits_iff.1 e) (by omega) (ih h)

/-- `DrawRange(lo, hi)` is the draw of rule R92; no pass is cut off. -/
theorem drawRange_iff {lo hi : Nat} {ws rest : List Rnd} {a : Nat} :
    drawRange lo hi ws = some (a, rest) ↔ RangeDraw lo hi ws a rest :=
  ⟨rangeLoop_sound _, fun h => rangeLoop_complete h _ (Nat.lt_succ_self _)⟩

/-- The value of `DrawRange(lo, hi)` is in `[lo, hi]` (R92). -/
theorem RangeDraw.mem {lo hi : Nat} {ws rest : List Rnd} {a : Nat} (h : RangeDraw lo hi ws a rest)
    (le : lo ≤ hi) : lo ≤ a ∧ a ≤ hi := by
  induction h with
  | accept _ _ _ => omega
  | reject _ _ _ _ ih => exact ih

theorem BitsDraw.local {bits : Nat} {ws rest : List Rnd} {v : Nat} (h : BitsDraw bits ws v rest) :
    ∃ used, ws = used ++ rest ∧ ∀ more, BitsDraw bits (used ++ more) v more := by
  obtain ⟨group, hl, hw, hb⟩ := h
  exact ⟨group, hw, fun more => ⟨group, hl, rfl, hb⟩⟩

theorem RangeDraw.local {lo hi : Nat} {ws rest : List Rnd} {a : Nat} (h : RangeDraw lo hi ws a rest) :
    ∃ used, ws = used ++ rest ∧ ∀ more, RangeDraw lo hi (used ++ more) a more := by
  induction h with
  | accept hb d le =>
    obtain ⟨u, e, l⟩ := d.local
    exact ⟨u, e, fun more => .accept hb (l more) le⟩
  | reject hb d gt _ ih =>
    obtain ⟨u, e, l⟩ := d.local
    obtain ⟨u', e', l'⟩ := ih
    exact ⟨u ++ u', by simp [e, e'], fun more => .reject hb (by simpa using l _) gt (l' more)⟩

theorem drawRange_local (lo hi : Nat) : Draw.Local (drawRange lo hi) := by
  intro ws a rest h
  obtain ⟨u, e, l⟩ := (drawRange_iff.1 h).local
  exact ⟨u, e, fun more => drawRange_iff.2 (l more)⟩

/-- A `DrawRange` whose span is not 0 takes at least one word. -/
theorem drawRange_takes {lo hi : Nat} {ws rest : List Rnd} {a : Nat}
    (h : drawRange lo hi ws = some (a, rest)) (lt : lo < hi) : rest.length < ws.length := by
  have pos : 0 < bitlen (hi - lo) := by
    rcases Nat.eq_zero_or_pos (bitlen (hi - lo)) with h0 | h0
    · have := lt_two_pow_bitlen (hi - lo); rw [h0] at this; omega
    · exact h0
  have key := drawRange_iff.1 h
  clear h
  induction key with
  | accept hb d _ =>
    rw [IsBitlen.eq_bitlen hb] at d
    exact drawBits_takes (drawBits_iff.2 d) pos
  | reject hb d _ _ ih =>
    rw [IsBitlen.eq_bitlen hb] at d
    exact Nat.lt_trans ih (drawBits_takes (drawBits_iff.2 d) pos)

end Sys2Proof.Machine
end

