-- ==== Sys2Proof/Laws/Encoding.lean ====
section
/-! SUPPORT. The fields of an encoded word and the rows that a word can hit (spec/30_encoding.md rules R58, R59, R61). -/

namespace Sys2Proof

/-! ### Fields of format R -/

theorem formatR_bit (op : BitVec 8) (rd ra rb rc : Reg) (i : Nat) (h : i < 32) :
    (formatR op rd ra rb rc).getLsbD i =
      if i < 8 then false
      else if i < 12 then (regBits rc).getLsbD (i - 8)
      else if i < 16 then (regBits rb).getLsbD (i - 12)
      else if i < 20 then (regBits ra).getLsbD (i - 16)
      else if i < 24 then (regBits rd).getLsbD (i - 20)
      else op.getLsbD (i - 24) := by
  simp only [formatR, place, BitVec.getLsbD_or, BitVec.getLsbD_shiftLeft, BitVec.getLsbD_setWidth]
  interval_cases i <;> simp

@[simp] theorem opField_formatR (op : BitVec 8) (rd ra rb rc : Reg) :
    opField (formatR op rd ra rb rc) = op := by
  apply BitVec.eq_of_getLsbD_eq
  intro i hi
  rw [opField, BitVec.getLsbD_extractLsb', formatR_bit _ _ _ _ _ _ (by omega)]
  interval_cases i <;> simp

@[simp] theorem rdField_formatR (op : BitVec 8) (rd ra rb rc : Reg) :
    rdField (formatR op rd ra rb rc) = rd := by
  have e : (formatR op rd ra rb rc).extractLsb' 20 4 = regBits rd := by
    apply BitVec.eq_of_getLsbD_eq
    intro i hi
    rw [BitVec.getLsbD_extractLsb', formatR_bit _ _ _ _ _ _ (by omega)]
    interval_cases i <;> simp
  simp only [rdField, e, regBits]

@[simp] theorem raField_formatR (op : BitVec 8) (rd ra rb rc : Reg) :
    raField (formatR op rd ra rb rc) = ra := by
  have e : (formatR op rd ra rb rc).extractLsb' 16 4 = regBits ra := by
    apply BitVec.eq_of_getLsbD_eq
    intro i hi
    rw [BitVec.getLsbD_extractLsb', formatR_bit _ _ _ _ _ _ (by omega)]
    interval_cases i <;> simp
  simp only [raField, e, regBits]

@[simp] theorem rbField_formatR (op : BitVec 8) (rd ra rb rc : Reg) :
    rbField (formatR op rd ra rb rc) = rb := by
  have e : (formatR op rd ra rb rc).extractLsb' 12 4 = regBits rb := by
    apply BitVec.eq_of_getLsbD_eq
    intro i hi
    rw [BitVec.getLsbD_extractLsb', formatR_bit _ _ _ _ _ _ (by omega)]
    interval_cases i <;> simp
  simp only [rbField, e, regBits]

@[simp] theorem rcField_formatR (op : BitVec 8) (rd ra rb rc : Reg) :
    rcField (formatR op rd ra rb rc) = rc := by
  have e : (formatR op rd ra rb rc).extractLsb' 8 4 = regBits rc := by
    apply BitVec.eq_of_getLsbD_eq
    intro i hi
    rw [BitVec.getLsbD_extractLsb', formatR_bit _ _ _ _ _ _ (by omega)]
    interval_cases i <;> simp
  simp only [rcField, e, regBits]

/-! ### Fields of format I -/

theorem formatI_bit (op : BitVec 8) (rd : Reg) (imm16 : Nat) (i : Nat) (h : i < 32) :
    (formatI op rd imm16).getLsbD i =
      if i < 16 then (BitVec.ofNat 16 imm16).getLsbD i
      else if i < 20 then false
      else if i < 24 then (regBits rd).getLsbD (i - 20)
      else op.getLsbD (i - 24) := by
  simp only [formatI, place, BitVec.getLsbD_or, BitVec.getLsbD_shiftLeft, BitVec.getLsbD_setWidth]
  interval_cases i <;> simp

@[simp] theorem opField_formatI (op : BitVec 8) (rd : Reg) (imm16 : Nat) :
    opField (formatI op rd imm16) = op := by
  apply BitVec.eq_of_getLsbD_eq
  intro i hi
  rw [opField, BitVec.getLsbD_extractLsb', formatI_bit _ _ _ _ (by omega)]
  interval_cases i <;> simp

@[simp] theorem rdField_formatI (op : BitVec 8) (rd : Reg) (imm16 : Nat) :
    rdField (formatI op rd imm16) = rd := by
  have e : (formatI op rd imm16).extractLsb' 20 4 = regBits rd := by
    apply BitVec.eq_of_getLsbD_eq
    intro i hi
    rw [BitVec.getLsbD_extractLsb', formatI_bit _ _ _ _ (by omega)]
    interval_cases i <;> simp
  simp only [rdField, e, regBits]

theorem immField_formatI (op : BitVec 8) (rd : Reg) {imm16 : Nat} (h : immFits imm16 = true) :
    immField (formatI op rd imm16) = imm16 := by
  have e : (formatI op rd imm16).extractLsb' 0 16 = BitVec.ofNat 16 imm16 := by
    apply BitVec.eq_of_getLsbD_eq
    intro i hi
    rw [BitVec.getLsbD_extractLsb', formatI_bit _ _ _ _ (by omega)]
    interval_cases i <;> simp
  simp only [immFits, decide_eq_true_eq] at h
  simp only [immField, e, BitVec.toNat_ofNat, Nat.mod_eq_of_lt h]

/-! ### Rows -/

/-- A word that hits a row has the row's `op`: every mask contains `0xFF000000` (R65). -/
theorem opField_of_hits {r : Row} (h : r ∈ rows) {w : W32} (hit : r.hits w = true) :
    opField w = opField r.pattern := by
  have m : r.mask &&& 0xFF000000#32 = 0xFF000000#32 := by
    simp only [rows, moveRows, arithRows, modularRows, macroRows, List.cons_append, List.nil_append,
      List.mem_cons, List.not_mem_nil, or_false] at h
    rcases h with h | h | h | h | h | h | h | h | h | h | h | h | h | h | h | h | h | h | h | h | h <;>
      subst h <;> rfl
  have e : w &&& r.mask = r.pattern := by simpa [Row.hits] using hit
  apply BitVec.eq_of_getLsbD_eq
  intro i hi
  have b : r.mask.getLsbD (24 + i) = true := by
    have := congrArg (fun x => x.getLsbD (24 + i)) m
    simp only [BitVec.getLsbD_and] at this
    interval_cases i <;> simpa using this
  rw [opField, opField, ← e, BitVec.getLsbD_extractLsb', BitVec.getLsbD_extractLsb', BitVec.getLsbD_and, b]
  simp

/-- The rows have distinct `op` values (R65). -/
theorem rows_op_inj {r r' : Row} (h : r ∈ rows) (h' : r' ∈ rows)
    (e : opField r.pattern = opField r'.pattern) : r = r' :=
  List.inj_on_of_nodup_map (f := fun r : Row => opField r.pattern) (by decide +kernel) h h' e

/-- A decoded command comes from a row that the word hits (R65). -/
theorem decode_ok {w : W32} {i : Instr} (h : decode w = .ok i) : ∃ r ∈ rows, r.hits w = true ∧
    r.build w = i := by
  unfold decode at h
  split at h
  · rename_i r hf
    exact ⟨r, List.mem_of_find?_eq_some hf, by simpa using List.find?_some hf, by simpa using h⟩
  · cases h

/-! ### A word from its fields -/

theorem regBits_rdField (w : W32) : regBits (rdField w) = w.extractLsb' 20 4 := rfl

theorem regBits_raField (w : W32) : regBits (raField w) = w.extractLsb' 16 4 := rfl

theorem regBits_rbField (w : W32) : regBits (rbField w) = w.extractLsb' 12 4 := rfl

theorem regBits_rcField (w : W32) : regBits (rcField w) = w.extractLsb' 8 4 := rfl

theorem ofNat_immField (w : W32) : BitVec.ofNat 16 (immField w) = w.extractLsb' 0 16 := by
  rw [immField, BitVec.ofNat_toNat, BitVec.setWidth_eq]

/-- A field that the mask covers is the pattern's field. -/
theorem field_of_mask {w m p : W32} (h : w &&& m = p) (a : Nat) {n : Nat} (hm :
    m.extractLsb' a n = BitVec.allOnes n) :
    w.extractLsb' a n = p.extractLsb' a n := by
  rw [← h, BitVec.extractLsb'_and, hm, BitVec.and_allOnes]

/-- A word with bits 7:0 zero is the format R word of its fields (R58). -/
theorem formatR_fields {w : W32} (h : w.extractLsb' 0 8 = 0#8) :
    formatR (opField w) (rdField w) (raField w) (rbField w) (rcField w) = w := by
  apply BitVec.eq_of_getLsbD_eq
  intro i hi
  rw [formatR_bit _ _ _ _ _ _ hi, opField, regBits_rdField, regBits_raField, regBits_rbField, regBits_rcField]
  simp only [BitVec.getLsbD_extractLsb']
  have z : i < 8 → w.getLsbD i = false := by
    intro hi
    have := congrArg (fun x => x.getLsbD i) h
    simpa [hi] using this
  split_ifs with h1 h2 h3 h4 h5
  · exact (z h1).symm
  all_goals (rw [decide_eq_true (by omega), Bool.true_and]; congr 1; omega)

/-- A word with bits 19:16 zero is the format I word of its fields (R59). -/
theorem formatI_fields {w : W32} (h : w.extractLsb' 16 4 = 0#4) :
    formatI (opField w) (rdField w) (immField w) = w := by
  apply BitVec.eq_of_getLsbD_eq
  intro i hi
  rw [formatI_bit _ _ _ _ hi, opField, regBits_rdField, ofNat_immField]
  simp only [BitVec.getLsbD_extractLsb']
  have z : 16 ≤ i → i < 20 → w.getLsbD i = false := by
    intro h1 h2
    have := congrArg (fun x => x.getLsbD (i - 16)) h
    simpa [show i - 16 < 4 by omega, show 16 + (i - 16) = i by omega] using this
  split_ifs with h1 h2 h3
  · simp [h1]
  · exact (z (by omega) h2).symm
  all_goals (rw [decide_eq_true (by omega), Bool.true_and]; congr 1; omega)

theorem rdField_zero {w : W32} (h : w.extractLsb' 20 4 = 0#4) : rdField w = 0 := by rw [rdField, h]; rfl

theorem raField_zero {w : W32} (h : w.extractLsb' 16 4 = 0#4) : raField w = 0 := by rw [raField, h]; rfl

theorem rbField_zero {w : W32} (h : w.extractLsb' 12 4 = 0#4) : rbField w = 0 := by rw [rbField, h]; rfl

theorem rcField_zero {w : W32} (h : w.extractLsb' 8 4 = 0#4) : rcField w = 0 := by rw [rcField, h]; rfl

end Sys2Proof
end

