-- ==== Sys2Proof/Laws/Euclid.lean ====
section
/-! SUPPORT. The loop of the modular inverter: its invariant, and what it ends with (spec/44_euclid.md rule R111). -/

namespace Sys2Proof.Machine

/-- From coefficients with `x·a₀ ≡ a`, `y·a₀ ≡ m` modulo `m₀` and the size bound `|x|·m + |y|·a = m₀`, the loop ends
with 1 and an inverse exactly when `a` and `m` are coprime, and the coefficient stays below `m₀ / 2` (R111). -/
theorem bezoutLoop_spec (a0 m0 : Nat) : ∀ (n a m : Nat) (x y : Int), m < n → 1 ≤ a →
    (m0 : Int) ∣ x * a0 - a → (m0 : Int) ∣ y * a0 - m → |x| * m + |y| * a = m0 → x * y ≤ 0 → 2 * |x| ≤ m0 →
    (bezoutLoop n a m x y = none → Nat.gcd a m ≠ 1) ∧
    (∀ a' x', bezoutLoop n a m x y = some (a', x') →
      a' = 1 ∧ Nat.gcd a m = 1 ∧ (m0 : Int) ∣ x' * a0 - 1 ∧ 2 * |x'| ≤ m0) := by
  intro n
  induction n with
  | zero => intros; omega
  | succ n ih =>
    intro a m x y hmn ha hx hy hs hxy h2
    rw [bezoutLoop]
    split
    · rename_i h
      have : a = 1 := by omega
      subst this
      refine ⟨by simp, fun a' x' h => ?_⟩
      obtain ⟨rfl, rfl⟩ : _ ∧ _ := by simpa using h
      exact ⟨rfl, by simp, by simpa using hx, h2⟩
    · split
      · rename_i h1 h0
        subst h0
        exact ⟨fun _ => by simp; omega, by simp⟩
      · rename_i h1 h0
        have dec : a % m < n := by have := Nat.mod_lt a (Nat.pos_of_ne_zero h0); omega
        have key := ih m (a % m) y (x - (a / m : Nat) * y) dec (by omega) hy ?_ ?_ ?_ ?_
        · have g : Nat.gcd m (a % m) = Nat.gcd a m := by rw [Nat.gcd_comm m, ← Nat.gcd_rec, Nat.gcd_comm]
          rwa [g] at key
        · have e : (a : Int) = (a / m : Nat) * m + (a % m : Nat) := by
            have := Nat.div_add_mod' a m; exact_mod_cast this.symm
          have : (x - (a / m : Nat) * y) * a0 - (a % m : Nat) = (x * a0 - a) - (a / m : Nat) *
              (y * a0 - m) := by
            linear_combination (1 : Int) * e
          rw [this]
          exact Int.dvd_sub hx (Dvd.dvd.mul_left hy _)
        · have e : (a : Int) = (a / m : Nat) * m + (a % m : Nat) := by
            have := Nat.div_add_mod' a m; exact_mod_cast this.symm
          have ab : |x - (a / m : Nat) * y| = |x| + (a / m : Nat) * |y| := by
            have q0 : (0 : Int) ≤ (a / m : Nat) := Int.natCast_nonneg _
            rcases mul_nonpos_iff.1 hxy with ⟨hx0, hy0⟩ | ⟨hx0, hy0⟩
            · rw [abs_of_nonneg hx0, abs_of_nonpos hy0, abs_of_nonneg (by nlinarith)]; ring
            · rw [abs_of_nonpos hx0, abs_of_nonneg hy0, abs_of_nonpos (by nlinarith)]; ring
          rw [ab]
          linear_combination hs - |y| * e
        · have q0 : (0 : Int) ≤ (a / m : Nat) := Int.natCast_nonneg _
          nlinarith [mul_self_nonneg y]
        · have : (2 : Int) ≤ a := by omega
          have := abs_nonneg x
          have := abs_nonneg y
          have : (0 : Int) ≤ m := Int.natCast_nonneg _
          nlinarith

end Sys2Proof.Machine
end

