-- ==== Sys2Proof/Laws/Exec.lean ====
section
/-! SUPPORT. What `exec` can do, said once: a command is a check, then a draw, then a write in the completion step
(`exec_eq`); what its check, draw and write may be is read off `checkOf` and `workOf`. -/

namespace Sys2Proof.Machine

/-- The fault test of a command, in the order of its pseudocode (R136). -/
def checkOf (i : Instr) (s : State) : Option Cause :=
  match i with
  | .mod _ _ rc => if s.val rc = 0 then some .modzero else none
  | .modw _ _ rc => if s.val rc = 0 then some .modzero else none
  | .mulmod _ _ _ rc => if s.val rc = 0 then some .modzero else none
  | .modexp _ _ _ rc => if s.val rc = 0 then some .modzero else none
  | .modinv _ ra rc =>
    if s.val rc = 0 then some .modzero
    else if s.val rc = 1 then none
    else if gcdOf (s.val ra) (s.val rc) ≠ 1 then some .noinv else none
  | .randbits _ n => if s.width.bits < n then some .badparam else none
  | .randrange _ ra rb => if s.val rb < s.val ra then some .badparam else none
  | .primegen _ n => if n < 2 ∨ s.width.bits < n then some .badparam else none
  | .keygen n => if n / 2 < 3 ∨ s.width.bits < 2 * (n / 2) then some .badparam else none
  | .enc _ ra _ rc => if s.val rc ≤ s.val ra then some .precond else none
  | .nop | .ldi _ _ | .mov _ _ | .mfhi _ | .mthi _ | .add _ _ _ | .sub _ _ _ | .cmp _ _
  | .mul _ _ _ | .gcd _ _ _ | .mrtest _ => none

/-- A draw that takes no word. -/
def noDraw (f : State → State) : Draw (State → State) := fun ws => some (f, ws)

/-- A draw followed by a function of its value. -/
def Draw.map {α β : Type} (g : α → β) (d : Draw α) : Draw β := fun ws =>
  match d ws with
  | some (a, rest) => some (g a, rest)
  | none => none

/-- What a command draws and, from that, the write of its completion step. -/
def workOf (i : Instr) (s : State) : Draw (State → State) :=
  match i with
  | .nop => noDraw id
  | .ldi rd n => noDraw fun t => t.setReg rd n
  | .mov rd ra => noDraw fun t => t.setReg rd (s.val ra)
  | .mfhi rd => noDraw fun t => t.setReg rd s.hiVal
  | .mthi ra => noDraw fun t => t.setHi (s.val ra)
  | .add rd ra rb => noDraw fun t =>
      ((t.setReg rd (addResult s.width (s.val ra) (s.val rb))).setC (carryFlag s.width (s.val ra + s.val rb))).setZ
        (zeroFlag (addResult s.width (s.val ra) (s.val rb)))
  | .sub rd ra rb => noDraw fun t =>
      ((t.setReg rd (subResult s.width (s.val ra) (s.val rb))).setC (borrowFlag (s.val ra) (s.val rb))).setZ
        (zeroFlag (subResult s.width (s.val ra) (s.val rb)))
  | .cmp ra rb => noDraw fun t =>
      (t.setZ (equalFlag (s.val ra) (s.val rb))).setC (lessFlag (s.val ra) (s.val rb))
  | .mul rd ra rb => noDraw fun t =>
      (((t.setReg rd (s.val ra * s.val rb % 2 ^ s.width.bits)).setHi (s.val ra * s.val rb / 2 ^ s.width.bits)).setZ
        (zeroFlag (s.val ra * s.val rb))).setC (wideFlag s.width (s.val ra * s.val rb))
  | .mod rd ra rc => noDraw fun t => t.result rd (s.val ra % s.val rc)
  | .modw rd ra rc => noDraw fun t => t.result rd (s.wideVal ra % s.val rc)
  | .mulmod rd ra rb rc => noDraw fun t => t.result rd (s.val ra * s.val rb % s.val rc)
  | .modexp rd ra rb rc => noDraw fun t => t.result rd (modExp (s.val ra) (s.val rb) (s.val rc))
  | .gcd rd ra rb => noDraw fun t => t.result rd (gcdOf (s.val ra) (s.val rb))
  | .modinv rd ra rc => noDraw fun t =>
      t.result rd (if s.val rc = 1 then 0 else modInv (s.val ra) (s.val rc))
  | .mrtest ra => Draw.map (fun v t => t.setP v) (millerRabin (s.val ra) s.latchedRounds)
  | .randbits rd n => Draw.map (fun r t => t.result rd r) (drawBits n)
  | .randrange rd ra rb => Draw.map (fun r t => t.result rd r) (drawRange (s.val ra) (s.val rb))
  | .primegen rd n => Draw.map (fun c t => (t.setReg rd c).setP true) (primeGen n s.latchedRounds)
  | .keygen n => Draw.map (fun y t => (t.setKeys y).setP true) (keyGen (n / 2) s.latchedRounds)
  | .enc rd ra rb rc => noDraw fun t => t.result rd (modExp (s.val ra) (s.val rb) (s.val rc))

theorem State.consume_onHand (s : State) : s.consume s.onHand = s := by
  have : s.fresh s.onHand = 0 := by simp [State.fresh]
  simp [State.consume, this]

theorem drawThen_noDraw (s : State) (f : State → State) :
    drawThen s (noDraw f) (fun g t => g t) = complete (f s) := by
  simp [drawThen, noDraw, State.consume_onHand]

theorem drawThen_map {α : Type} (s : State) (d : Draw α) (g : α → State → State) :
    drawThen s (Draw.map g d) (fun f t => f t) = drawThen s d g := by
  unfold drawThen Draw.map
  cases d s.onHand with
  | none => rfl
  | some p => rfl

/-- A command is its check, then its draw, then its write (R9, R70, R136). -/
theorem exec_eq (i : Instr) (s : State) :
    exec i s = match checkOf i s with
      | some c => fault c s
      | none => drawThen s (workOf i s) (fun f t => f t) := by
  cases i with
  | nop => simp [exec, execNop, checkOf, workOf, drawThen_noDraw]
  | ldi rd n => simp [exec, execLdi, checkOf, workOf, drawThen_noDraw, zextImm]
  | mov rd ra => simp [exec, execMov, checkOf, workOf, drawThen_noDraw]
  | mfhi rd => simp [exec, execMfhi, checkOf, workOf, drawThen_noDraw]
  | mthi ra => simp [exec, execMthi, checkOf, workOf, drawThen_noDraw]
  | add rd ra rb => simp [exec, execAdd, checkOf, workOf, drawThen_noDraw]
  | sub rd ra rb => simp [exec, execSub, checkOf, workOf, drawThen_noDraw]
  | cmp ra rb => simp [exec, execCmp, checkOf, workOf, drawThen_noDraw]
  | mul rd ra rb => simp [exec, execMul, checkOf, workOf, drawThen_noDraw]
  | gcd rd ra rb => simp [exec, execGcd, checkOf, workOf, drawThen_noDraw]
  | mod rd ra rc => by_cases h : s.val rc = 0 <;> simp [exec, execMod, checkOf, workOf, h, drawThen_noDraw]
  | modw rd ra rc => by_cases h : s.val rc = 0 <;> simp [exec, execModw, checkOf, workOf, h, drawThen_noDraw]
  | mulmod rd ra rb rc =>
    by_cases h : s.val rc = 0 <;> simp [exec, execMulmod, checkOf, workOf, h, drawThen_noDraw]
  | modexp rd ra rb rc =>
    by_cases h : s.val rc = 0 <;> simp [exec, execModexp, checkOf, workOf, h, drawThen_noDraw]
  | modinv rd ra rc =>
    by_cases h0 : s.val rc = 0
    · simp [exec, execModinv, checkOf, h0]
    · by_cases h1 : s.val rc = 1
      · simp [exec, execModinv, checkOf, workOf, h1, drawThen_noDraw]
      · by_cases h2 : gcdOf (s.val ra) (s.val rc) = 1 <;>
          simp [exec, execModinv, checkOf, workOf, h0, h1, h2, drawThen_noDraw]
  | mrtest ra => simp [exec, execMrtest, checkOf, workOf, drawThen_map]
  | randbits rd n =>
    by_cases h : s.width.bits < n <;> simp [exec, execRandbits, bitCount, checkOf, workOf, h, drawThen_map]
  | randrange rd ra rb =>
    by_cases h : s.val rb < s.val ra <;> simp [exec, execRandrange, checkOf, workOf, h, drawThen_map]
  | primegen rd n =>
    have e : exec (.primegen rd n) s = if n < 2 ∨ s.width.bits < n then fault .badparam s
      else drawThen s (primeGen n s.latchedRounds) fun c t => (t.setReg rd c).setP true := rfl
    rw [e, checkOf, workOf, drawThen_map]
    by_cases h : n < 2 ∨ s.width.bits < n
    · rw [if_pos h, if_pos h]
    · rw [if_neg h, if_neg h]
  | keygen n =>
    by_cases h : n / 2 < 3 ∨ s.width.bits < 2 * (n / 2) <;>
      simp [exec, execKeygen, halfBits, bitCount, checkOf, workOf, h, drawThen_map]
  | enc rd ra rb rc =>
    by_cases h : s.val rc ≤ s.val ra <;> simp [exec, execEnc, checkOf, workOf, h, drawThen_noDraw]

/-- Everything `exec` can answer: the fault of the check, a completion, or a hold. -/
theorem exec_cases {i : Instr} {s t : State} (h : exec i s = .next t) :
    (∃ c, checkOf i s = some c ∧ t = s.raise c) ∨
    (∃ f rest, checkOf i s = none ∧ workOf i s s.onHand = some (f, rest) ∧ t = (f (s.consume rest)).finish) ∨
    (checkOf i s = none ∧ workOf i s s.onHand = none ∧ t = s.hold) := by
  rw [exec_eq] at h
  split at h
  · rename_i c e; exact .inl ⟨c, e, by simpa [fault] using h.symm⟩
  · rename_i e
    rcases drawThen_cases h with ⟨f, rest, hw, ht⟩ | ⟨hw, ht⟩
    · exact .inr (.inl ⟨f, rest, e, hw, ht⟩)
    · exact .inr (.inr ⟨e, hw, ht⟩)

theorem exec_fault {i : Instr} {s : State} {c : Cause} (h : checkOf i s = some c) :
    exec i s = .next (s.raise c) := by rw [exec_eq, h]; rfl

theorem exec_done {i : Instr} {s : State} {f : State → State} {rest : List Rnd} (h : checkOf i s = none)
    (w : workOf i s s.onHand = some (f, rest)) : exec i s = .next (f (s.consume rest)).finish := by
  rw [exec_eq, h]; exact drawThen_some w

theorem exec_hold {i : Instr} {s : State} (h : checkOf i s = none) (w : workOf i s s.onHand = none) :
    exec i s = .next s.hold := by
  rw [exec_eq, h]; exact drawThen_none w

/-- `exec` always answers a next state. -/
theorem exec_next (i : Instr) (s : State) : ∃ t, exec i s = .next t := by
  cases hc : checkOf i s with
  | some c => exact ⟨_, exec_fault hc⟩
  | none =>
    cases hw : workOf i s s.onHand with
    | some p => exact ⟨_, exec_done (f := p.1) (rest := p.2) hc hw⟩
    | none => exact ⟨_, exec_hold hc hw⟩

/-- What the write of a command's completion step leaves alone (R15, R16, R18). -/
structure Writes (i : Instr) (f : State → State) : Prop where
  regs : ∀ (t : State) (r : Reg), r ∉ i.dests → (f t).val r = t.val r
  hi : i.writesHi = false → ∀ t, (f t).hi = t.hi
  z : i.writesZ = false → ∀ t, (f t).z = t.z
  c : i.writesC = false → ∀ t, (f t).c = t.c
  p : i.writesP = false → ∀ t, (f t).p = t.p
  phase : ∀ t, (f t).phase = t.phase
  control : ∀ t, SameControl t (f t)
  faults : ∀ t, SameFaults t (f t)
  words : ∀ t, SameWords t (f t)
  done : ∀ t, (f t).done = t.done
  drawn : ∀ t, (f t).drawn = t.drawn

theorem Draw.map_some {α β : Type} {g : α → β} {d : Draw α} {ws rest : List Rnd} {b : β}
    (h : Draw.map g d ws = some (b, rest)) : ∃ a, d ws = some (a, rest) ∧ b = g a := by
  unfold Draw.map at h
  split at h
  · rename_i a r e
    obtain ⟨rfl, rfl⟩ : _ ∧ _ := by simpa using h
    exact ⟨a, e, rfl⟩
  · cases h

theorem Draw.map_none {α β : Type} {g : α → β} {d : Draw α} {ws : List Rnd} :
    Draw.map g d ws = none ↔ d ws = none := by
  unfold Draw.map
  cases d ws <;> simp

theorem State.val_setKeys_ne (s : State) (y : Keys) (r : Reg)
    (h : r ∉ ([8, 9, 10, 11, 12, 13] : List Reg)) : (s.setKeys y).val r = s.val r := by
  simp only [List.mem_cons, List.not_mem_nil, or_false, not_or] at h
  obtain ⟨h8, h9, h10, h11, h12, h13⟩ := h
  simp [State.setKeys, Ne.symm h8, Ne.symm h9, Ne.symm h10, Ne.symm h11, Ne.symm h12, Ne.symm h13]

/-- The frame of every command's write. -/
theorem workOf_writes {i : Instr} {s : State} {ws rest : List Rnd} {f : State → State}
    (h : workOf i s ws = some (f, rest)) : Writes i f := by
  cases i
  case mrtest =>
    obtain ⟨v, -, rfl⟩ := Draw.map_some h
    constructor <;> intros <;> first | rfl | constructor <;> rfl | simp_all [Instr.writesP]
  case randbits =>
    obtain ⟨v, -, rfl⟩ := Draw.map_some h
    constructor
    case regs => intro t r hr; simp_all [Instr.dests, eq_comm]
    all_goals intros; first | rfl | constructor <;> rfl | simp_all [Instr.writesZ]
  case randrange =>
    obtain ⟨v, -, rfl⟩ := Draw.map_some h
    constructor
    case regs => intro t r hr; simp_all [Instr.dests, eq_comm]
    all_goals intros; first | rfl | constructor <;> rfl | simp_all [Instr.writesZ]
  case primegen =>
    obtain ⟨v, -, rfl⟩ := Draw.map_some h
    constructor
    case regs => intro t r hr; simp_all [Instr.dests, eq_comm]
    all_goals intros; first | rfl | constructor <;> rfl | simp_all [Instr.writesP]
  case keygen =>
    obtain ⟨v, -, rfl⟩ := Draw.map_some h
    constructor
    case regs => exact fun t r hr => State.val_setKeys_ne t v r hr
    all_goals intros; first | rfl | constructor <;> rfl | simp_all [Instr.writesP]
  all_goals
    obtain ⟨rfl, -⟩ : _ = f ∧ _ = rest := by simpa [workOf, noDraw] using h
    constructor
    case regs => intro t r hr; simp_all [Instr.dests, eq_comm]
    all_goals
      intros
      first
      | rfl
      | constructor <;> rfl
      | simp_all [Instr.writesZ, Instr.writesC, Instr.writesHi]

/-- Every command's write keeps the registers below `2^W` (R37). -/
theorem workOf_fits {i : Instr} {s : State} {ws rest : List Rnd} {f : State → State}
    (h : workOf i s ws = some (f, rest)) {t : State} (ht : t.Fits) : (f t).Fits := by
  cases i
  case mrtest => obtain ⟨v, -, rfl⟩ := Draw.map_some h; exact ht.setP _
  case randbits => obtain ⟨v, -, rfl⟩ := Draw.map_some h; exact ht.result _ _
  case randrange => obtain ⟨v, -, rfl⟩ := Draw.map_some h; exact ht.result _ _
  case primegen => obtain ⟨v, -, rfl⟩ := Draw.map_some h; exact (ht.setReg _ _).setP _
  case keygen => obtain ⟨v, -, rfl⟩ := Draw.map_some h; exact (ht.setKeys _).setP _
  all_goals obtain ⟨rfl, -⟩ : _ = f ∧ _ = rest := by simpa [workOf, noDraw] using h
  case nop => exact ht
  case ldi | mov | mfhi => exact ht.setReg _ _
  case mthi => exact ht.setHi _
  case add | sub => exact ((ht.setReg _ _).setC _).setZ _
  case cmp => exact (ht.setZ _).setC _
  case mul => exact (((ht.setReg _ _).setHi _).setZ _).setC _
  all_goals exact ht.result _ _

/-- A write of the results: the register file, `HI` and the three flags, each from its own old value and `W` (R15, R16,
R18). -/
structure Shape (f : State → State) where
  b : Config.Width → Vector Nat 16 → Vector Nat 16
  hi : Config.Width → Nat → Nat
  z : Bool → Bool
  c : Bool → Bool
  p : Bool → Bool
  eq : ∀ t, f t = { t with b := b t.width t.b, hi := hi t.width t.hi, z := z t.z, c := c t.c, p := p t.p }

/-- The register file after a register write. -/
def setRegFile (r : Reg) (v : Nat) (w : Config.Width) (b : Vector Nat 16) : Vector Nat 16 :=
  b.set r.val (v % 2 ^ w.bits) r.isLt

theorem shape_setReg (r : Reg) (v : Nat) (t : State) :
    t.setReg r v = { t with b := setRegFile r v t.width t.b } := rfl
theorem shape_result (r : Reg) (v : Nat) (t : State) :
    t.result r v = { t with b := setRegFile r v t.width t.b, z := zeroFlag v } := rfl

/-- Every command's write has this shape, so it commutes with an update of any other field. -/
theorem workOf_shape {i : Instr} {s : State} {ws rest : List Rnd} {f : State → State}
    (h : workOf i s ws = some (f, rest)) : Nonempty (Shape f) := by
  cases i
  case mrtest => obtain ⟨v, -, rfl⟩ := Draw.map_some h; exact ⟨fun _ => id, fun _ => id, id, id, fun _ => v, fun _ => rfl⟩
  case randbits =>
    obtain ⟨v, -, rfl⟩ := Draw.map_some h
    exact ⟨setRegFile _ v, fun _ => id, fun _ => zeroFlag v, id, id, fun _ => rfl⟩
  case randrange =>
    obtain ⟨v, -, rfl⟩ := Draw.map_some h
    exact ⟨setRegFile _ v, fun _ => id, fun _ => zeroFlag v, id, id, fun _ => rfl⟩
  case primegen =>
    obtain ⟨v, -, rfl⟩ := Draw.map_some h
    exact ⟨setRegFile _ v, fun _ => id, id, id, fun _ => true, fun _ => rfl⟩
  case keygen =>
    obtain ⟨y, -, rfl⟩ := Draw.map_some h
    refine ⟨fun w b => setRegFile 13 y.d w (setRegFile 12 y.e w (setRegFile 11 y.phi w (setRegFile 10 y.n w
      (setRegFile 9 y.q w (setRegFile 8 y.p w b))))), fun _ => id, id, id, fun _ => true, fun t => ?_⟩
    simp only [State.setKeys, shape_setReg]; rfl
  all_goals obtain ⟨rfl, -⟩ : _ = f ∧ _ = rest := by simpa [workOf, noDraw] using h
  case nop => exact ⟨fun _ => id, fun _ => id, id, id, id, fun _ => rfl⟩
  case ldi => exact ⟨setRegFile _ _, fun _ => id, id, id, id, fun _ => rfl⟩
  case mov => exact ⟨setRegFile _ _, fun _ => id, id, id, id, fun _ => rfl⟩
  case mfhi => exact ⟨setRegFile _ _, fun _ => id, id, id, id, fun _ => rfl⟩
  case mthi => exact ⟨fun _ => id, fun w _ => _ % 2 ^ w.bits, id, id, id, fun _ => rfl⟩
  case add => exact ⟨setRegFile _ _, fun _ => id, fun _ => _, fun _ => _, id, fun _ => rfl⟩
  case sub => exact ⟨setRegFile _ _, fun _ => id, fun _ => _, fun _ => _, id, fun _ => rfl⟩
  case cmp => exact ⟨fun _ => id, fun _ => id, fun _ => _, fun _ => _, id, fun _ => rfl⟩
  case mul => exact ⟨setRegFile _ _, fun w _ => _ % 2 ^ w.bits, fun _ => _, fun _ => _, id, fun _ => rfl⟩
  all_goals exact ⟨setRegFile _ _, fun _ => id, fun _ => zeroFlag _, id, id, fun t => shape_result _ _ t⟩

/-- A flag that a command writes has one new value, whatever the flags were (R17, R18). -/
theorem workOf_flags {i : Instr} {s : State} {ws rest : List Rnd} {f : State → State}
    (h : workOf i s ws = some (f, rest)) (t u : State) : (i.writesZ = true → (f t).z = (f u).z) ∧
      (i.writesC = true → (f t).c = (f u).c) ∧ (i.writesP = true → (f t).p = (f u).p) := by
  cases i
  case mrtest => obtain ⟨v, -, rfl⟩ := Draw.map_some h; simp [Instr.writesZ, Instr.writesC]
  case randbits => obtain ⟨v, -, rfl⟩ := Draw.map_some h; simp [Instr.writesC, Instr.writesP]
  case randrange => obtain ⟨v, -, rfl⟩ := Draw.map_some h; simp [Instr.writesC, Instr.writesP]
  case primegen => obtain ⟨v, -, rfl⟩ := Draw.map_some h; simp [Instr.writesZ, Instr.writesC]
  case keygen => obtain ⟨v, -, rfl⟩ := Draw.map_some h; simp [Instr.writesZ, Instr.writesC]
  all_goals
    obtain ⟨rfl, -⟩ : _ = f ∧ _ = rest := by simpa [workOf, noDraw] using h
    simp [Instr.writesZ, Instr.writesC, Instr.writesP]

/-- The check reads the registers only (R17: no flag). -/
theorem checkOf_congr {s t : State} (w : t.width = s.width) (h : t.b = s.b) (i : Instr) :
    checkOf i t = checkOf i s := by
  have v : t.val = s.val := funext fun r => State.val_congr w h r
  cases i <;> simp only [checkOf, v, w]

/-- The work reads the registers, `HI` and the latched round count only (R17: no flag). -/
theorem workOf_congr {s t : State} (w : t.width = s.width) (h : t.b = s.b) (hh : t.hi = s.hi)
    (k : t.latchedRounds = s.latchedRounds) (i : Instr) : workOf i t = workOf i s := by
  have v : t.val = s.val := funext fun r => State.val_congr w h r
  have hv : t.hiVal = s.hiVal := State.hiVal_congr w hh
  have wv : t.wideVal = s.wideVal := funext fun r => by simp [State.wideVal, v, hv, w]
  cases i <;> simp only [workOf, v, hv, k, wv, w]

end Sys2Proof.Machine
end

