-- ==== Sys2Proof/Laws/HostPort.lean ====
section
/-! SUPPORT. The host window: the map of spec/20_memory.md rule R41 with its addresses written out, which accesses are
refused (rule R47), and what one access does (rules R42, R43), for every `W`. -/

namespace Sys2Proof.Machine

/-! ### The map (R41) -/

theorem bits_eq (w : Config.Width) : w.bits = 32 * w.nlimb := rfl

theorem stride_eq (w : Config.Width) : w.stride = 4 * w.nlimb := by
  simp only [Config.Width.stride, bits_eq]; omega

theorem stride_pos (w : Config.Width) : 0 < w.stride := by
  have := w.atLeast; rw [stride_eq]; omega

/-- An address of the window is what the port's lines carry of it (R39). -/
theorem State.portAddr_of_lt (s : State) {a : Nat} (h : a < 0x2000 + 17 * s.width.stride) :
    s.portAddr a = a := by
  have b := lt_two_pow_bitlen (Config.BWIN + 17 * s.width.stride - 1)
  exact Nat.mod_eq_of_lt (lt_of_le_of_lt (by simp only [Config.BWIN]; omega) b)

theorem locate_eq (w : Config.Width) (a : Nat) : locate w a = if a < 0x24 then (ctrlAt (a / 4)).map .ctrl
    else if a < 0x2000 then none
    else (wideAt ((a - 0x2000) / w.stride)).map fun r => .limb r ((a - 0x2000) % w.stride / 4) := rfl

/-- The unmapped ranges. -/
theorem locate_none {w : Config.Width} {a : Nat} (h : (0x24 ≤ a ∧ a < 0x2000) ∨ 0x2000 + 17 * w.stride ≤ a) :
    locate w a = none := by
  rw [locate_eq, if_neg (by omega)]
  rcases h with h | h
  · rw [if_pos h.2]
  · have : 17 ≤ (a - 0x2000) / w.stride := (Nat.le_div_iff_mul_le (stride_pos w)).2 (by omega)
    rw [if_neg (by omega), wideAt, dif_neg (by omega), if_neg (by omega)]; rfl

/-- Every word from `0x2000` to the end of the window is a limb. -/
theorem locate_limb {w : Config.Width} {a : Nat} (h : 0x2000 ≤ a) (h' : a < 0x2000 + 17 * w.stride) :
    ∃ r, locate w a = some (.limb r ((a - 0x2000) % w.stride / 4)) := by
  have : (a - 0x2000) / w.stride < 17 := (Nat.div_lt_iff_lt_mul (stride_pos w)).2 (by omega)
  rw [locate_eq, if_neg (by omega), if_neg (by omega), wideAt]
  split
  · exact ⟨_, rfl⟩
  · rw [if_pos (by omega)]; exact ⟨_, rfl⟩

/-- The address of limb `j` of register index `i`. -/
theorem locate_limb_at (w : Config.Width) (i : Nat) {j : Nat} (h : j < w.nlimb) :
    locate w (0x2000 + i * w.stride + 4 * j) = (wideAt i).map fun r => .limb r j := by
  have lt : 4 * j < w.stride := by rw [stride_eq]; omega
  have e : 0x2000 + i * w.stride + 4 * j - 0x2000 = w.stride * i + 4 * j := by rw [Nat.mul_comm]; omega
  rw [locate_eq, if_neg (by omega), if_neg (by omega), e, Nat.mul_add_div (stride_pos w),
    Nat.mul_add_mod, Nat.div_eq_of_lt lt, Nat.mod_eq_of_lt lt, Nat.mul_div_cancel_left _ (by decide)]
  rfl

theorem locate_limb_b (w : Config.Width) (i : Reg) {j : Nat} (h : j < w.nlimb) :
    locate w (0x2000 + i.val * w.stride + 4 * j) = some (.limb (.b i) j) := by
  rw [locate_limb_at w i.val h, wideAt, dif_pos i.isLt]; rfl

theorem locate_limb_hi (w : Config.Width) {j : Nat} (h : j < w.nlimb) :
    locate w (0x2000 + 16 * w.stride + 4 * j) = some (.limb .hi j) := locate_limb_at w 16 h

/-- The address of a limb is a multiple of 4. -/
theorem limb_aligned (w : Config.Width) (i j : Nat) : (0x2000 + i * w.stride + 4 * j) % 4 = 0 := by
  have : i * w.stride = 4 * (i * w.nlimb) := by rw [stride_eq]; ring
  omega

/-- The address of a limb is in the window. -/
theorem limb_lt (w : Config.Width) {i j : Nat} (hi : i ≤ 16) (h : j < w.nlimb) :
    0x2000 + i * w.stride + 4 * j < 0x2000 + 17 * w.stride := by
  have : i * w.stride ≤ 16 * w.stride := Nat.mul_le_mul_right _ hi
  have : 4 * j < w.stride := by rw [stride_eq]; omega
  omega

/-! ### Limbs (R42 to R44) -/

/-- A limb write replaces bits `32j+31..32j` and keeps the others. -/
theorem setLimb_testBit (x : Nat) (j : Nat) (v : W32) (n : Nat) : (setLimb x j v).testBit n =
    if 32 * j ≤ n ∧ n < 32 * j + 32 then v.getLsbD (n - 32 * j) else x.testBit n := by
  have lo : x % 2 ^ (32 * j) < 2 ^ (32 * j) := Nat.mod_lt _ (Nat.two_pow_pos _)
  have split_x : x = 2 ^ (32 * j) * (2 ^ 32 * (x / 2 ^ (32 * j) / 2 ^ 32) + x / 2 ^ (32 * j) % 2 ^ 32) +
      x % 2 ^ (32 * j) := by rw [Nat.div_add_mod, Nat.div_add_mod]
  have e : setLimb x j v = 2 ^ (32 * j) * (2 ^ 32 * (x / 2 ^ (32 * j) / 2 ^ 32) + v.toNat) +
      x % 2 ^ (32 * j) := by
    rw [setLimb, getLimb, BitVec.toNat_ofNat]
    generalize x / 2 ^ (32 * j) % 2 ^ 32 = m at *
    generalize x / 2 ^ (32 * j) / 2 ^ 32 = q at *
    generalize x % 2 ^ (32 * j) = r at *
    subst split_x
    have : 2 ^ (32 * j) * (2 ^ 32 * q + m) + r = m * 2 ^ (32 * j) + (2 ^ (32 * j) * (2 ^ 32 * q) + r) := by ring
    rw [this, Nat.add_sub_cancel_left]; ring
  have at_x := congrArg (fun y => y.testBit n) split_x
  simp only [Nat.testBit_two_pow_mul_add _ lo, Nat.testBit_two_pow_mul_add _ (Nat.mod_lt _ (Nat.two_pow_pos 32))] at at_x
  rw [e, Nat.testBit_two_pow_mul_add _ lo, Nat.testBit_two_pow_mul_add _ v.isLt, at_x]
  by_cases h1 : n < 32 * j
  · rw [if_pos h1, if_pos h1, if_neg (by omega)]
  · rw [if_neg h1, if_neg h1]
    by_cases h2 : n - 32 * j < 32
    · rw [if_pos h2, if_pos (by omega)]; rfl
    · rw [if_neg h2, if_neg h2, if_neg (by omega)]

/-- A limb write keeps a register below `2^W` (R37). -/
theorem setLimb_lt {w : Config.Width} {x : Nat} (h : x < 2 ^ w.bits) {j : Nat} (hj : j < w.nlimb) (v : W32) :
    setLimb x j v < 2 ^ w.bits := by
  refine Nat.lt_pow_two_of_testBit _ fun n hn => ?_
  rw [setLimb_testBit, if_neg (by rw [bits_eq] at hn; omega)]
  exact Nat.testBit_lt_two_pow (lt_of_lt_of_le h (Nat.pow_le_pow_right (by decide) hn))

/-! ### One access -/

/-- The refusals that reads and writes share (R47). -/
theorem refuses_of {s : State} {a : Nat} {w : Bool} (h : a % 4 ≠ 0 ∨ (0x24 ≤ a ∧ a < 0x2000) ∨
    0x2000 + 17 * s.width.stride ≤ a ∨
    (s.busy = true ∧ 0x2000 ≤ a ∧ a < 0x2000 + 17 * s.width.stride)) : s.refuses w a = true := by
  unfold State.refuses
  by_cases h4 : a % 4 = 0
  · rw [if_neg (by simpa using h4)]
    rcases h with h | h | h | ⟨hb, h1, h2⟩
    · exact absurd h4 h
    · rw [locate_none (.inl h)]
    · rw [locate_none (.inr h)]
    · obtain ⟨r, e⟩ := locate_limb h1 h2
      rw [e]; simp [hb, Loc.closedWhileBusy]
  · rw [if_pos h4]

/-- A read of a control register while `rst` is low. -/
theorem hostRead_ctrl {s : State} (hr : s.rst = false) (a : Nat) (r : CtrlReg)
    (h : locate s.width a = some (.ctrl r)) (h4 : a % 4 = 0) :
    s.hostRead a = { s with rdata := s.ctrlRead r } := by
  have e : s.refuses false a = false := by
    simp [State.refuses, h, h4]; cases r <;> simp [Loc.closedWhileBusy]
  simp [State.hostRead, State.memRead, hr, e, State.windowWord, h, State.locRead]

/-- A write of a control register that is not refused. -/
theorem hostWrite_ctrl {s : State} (hr : s.rst = false) (a : Nat) (v) (r : CtrlReg)
    (h : locate s.width a = some (.ctrl r)) (h4 : a % 4 = 0) (hc : r ≠ .cmd ∨ s.busy = false) :
    s.hostWrite a v = s.ctrlWrite r v := by
  have e : s.refuses true a = false := by
    simp [State.refuses, h, h4]; cases r <;> simp [Loc.closedWhileBusy]; simpa using hc
  simp [State.hostWrite, hr, e, h, State.locWrite]

/-- What a limb reads as while IDLE. -/
theorem memRead_of_limb {s : State} (hr : s.rst = false) (hp : s.busy = false) (a : Nat) (r : WideReg)
    (j) (h : locate s.width a = some (.limb r j)) (h4 : a % 4 = 0) :
    s.memRead a = getLimb (s.wide r) j := by
  simp [State.memRead, hr, State.refuses, h, h4, hp, State.windowWord, State.locRead]

/-- A limb read while IDLE. -/
theorem hostRead_limb {s : State} (hr : s.rst = false) (hp : s.busy = false) (a : Nat) (r : WideReg)
    (j) (h : locate s.width a = some (.limb r j)) (h4 : a % 4 = 0) :
    s.hostRead a = { s with rdata := getLimb (s.wide r) j } := by
  have : s.refuses false a = false := by simp [State.refuses, h, h4, hp]
  simp [State.hostRead, memRead_of_limb hr hp a r j h h4, hr, this]

/-- A limb write while IDLE. -/
theorem hostWrite_limb {s : State} (hr : s.rst = false) (hp : s.busy = false) (a : Nat) (v) (r :
    WideReg) (j) (h : locate s.width a = some (.limb r j)) (h4 : a % 4 = 0) :
    s.hostWrite a v = s.setWide r (setLimb (s.wide r) j v) := by
  have : s.refuses true a = false := by simp [State.refuses, h, h4, hp]
  simp [State.hostWrite, hr, this, h, State.locWrite]

/-- A refused read (R47). -/
theorem hostRead_refused {s : State} (hr : s.rst = false) {a : Nat} (e : s.refuses false a = true) :
    s.hostRead a = { s.refuse a with rdata := 0#32 } := by
  simp [State.hostRead, State.memRead, hr, e]

/-- A refused write (R47). -/
theorem hostWrite_refused {s : State} (hr : s.rst = false) {a : Nat} {v : W32} (e : s.refuses true a = true) :
    s.hostWrite a v = s.refuse a := by
  simp [State.hostWrite, hr, e]

/-- The register of a limb write, after it. -/
theorem State.val_setWide (s : State) (i : Reg) {j : Nat} (hj : j < s.width.nlimb) (v : W32) :
    (s.setWide (.b i) (setLimb (s.wide (.b i)) j v)).val i = setLimb (s.val i) j v := by
  simp only [State.setWide, State.val_setReg, if_true]
  exact Nat.mod_eq_of_lt (setLimb_lt (s.val_lt i) hj v)

theorem State.val_setWide_ne (s : State) {i r : Reg} (h : r ≠ i) (x : Nat) :
    (s.setWide (.b i) x).val r = s.val r := by
  simp only [State.setWide, State.val_setReg, if_neg h.symm]

theorem State.hiVal_setWide (s : State) {j : Nat} (hj : j < s.width.nlimb) (v : W32) :
    (s.setWide .hi (setLimb (s.wide .hi) j v)).hiVal = setLimb s.hiVal j v := by
  simp only [State.setWide, State.hiVal_setHi]
  exact Nat.mod_eq_of_lt (setLimb_lt s.hiVal_lt hj v)

/-- Everything a host write does outside reset: it is refused, or it writes the one location of its address (R43, R47). -/
theorem hostWrite_cases {s : State} (hr : s.rst = false) (a : Nat) (v : W32) :
    (s.refuses true a = true ∧ s.hostWrite a v = s.refuse a) ∨
    ∃ l, s.refuses true a = false ∧ locate s.width a = some l ∧ s.hostWrite a v = s.locWrite l v := by
  cases hf : s.refuses true a with
  | true => exact .inl ⟨rfl, by simp [State.hostWrite, hr, hf]⟩
  | false =>
    cases hl : locate s.width a with
    | none => simp [State.refuses, hl] at hf
    | some l => exact .inr ⟨l, rfl, rfl, by simp [State.hostWrite, hr, hf, hl]⟩

/-- The limb number of a location is below `NLIMB`. -/
theorem locate_limb_lt {w : Config.Width} {a : Nat} {r : WideReg} {j : Nat}
    (h : locate w a = some (.limb r j)) : j < w.nlimb := by
  rw [locate_eq] at h
  have lt := Nat.mod_lt (a - 0x2000) (stride_pos w)
  rw [stride_eq] at lt h
  split at h
  · simp at h
  · split at h
    · cases h
    · simp only [Option.map_eq_some_iff, Loc.limb.injEq] at h
      obtain ⟨_, _, _, rfl⟩ := h
      omega

end Sys2Proof.Machine
end

