-- ==== Sys2Proof/Laws/PerInstr.lean ====
section
/-! SUPPORT. The per-instruction family OpcodeRow: every well-formed command's word hits a row of the opcode map
(spec/30_encoding.md rule R61), and that row reads the command back from the word. -/

namespace Sys2Proof.Laws.OpcodeRow

/-- Some row of R61 is hit by the command's word and builds the command from it. -/
def Statement (i : Instr) : Prop :=
  i.wellFormed = true → ∃ r ∈ rows, r.hits (encode i) = true ∧ r.build (encode i) = i

theorem nop : Statement .nop := by
  intro _
  refine ⟨rows[0], by simp [rows, moveRows, arithRows, modularRows, macroRows], ?_, ?_⟩
  · rfl
  · rfl

theorem ldi (rd : Reg) (imm16 : Nat) : Statement (.ldi rd imm16) := by
  intro h
  refine ⟨rows[1], by simp [rows, moveRows, arithRows, modularRows, macroRows], ?_, ?_⟩
  · refine beq_iff_eq.2 (BitVec.eq_of_getLsbD_eq fun i hi => ?_)
    rw [BitVec.getLsbD_and, encode, formatI_bit _ _ _ _ hi]
    interval_cases i <;> simp [rows, moveRows, arithRows, modularRows, macroRows]
  · simp [rows, moveRows, arithRows, modularRows, macroRows, encode, immField_formatI _ _ h]

theorem mov (rd ra : Reg) : Statement (.mov rd ra) := by
  intro _
  refine ⟨rows[2], by simp [rows, moveRows, arithRows, modularRows, macroRows], ?_, ?_⟩
  · refine beq_iff_eq.2 (BitVec.eq_of_getLsbD_eq fun i hi => ?_)
    rw [BitVec.getLsbD_and, encode, formatR_bit _ _ _ _ _ _ hi]
    interval_cases i <;> simp [rows, moveRows, arithRows, modularRows, macroRows, regBits]
  · simp [rows, moveRows, arithRows, modularRows, macroRows, encode]

theorem mfhi (rd : Reg) : Statement (.mfhi rd) := by
  intro _
  refine ⟨rows[3], by simp [rows, moveRows, arithRows, modularRows, macroRows], ?_, ?_⟩
  · refine beq_iff_eq.2 (BitVec.eq_of_getLsbD_eq fun i hi => ?_)
    rw [BitVec.getLsbD_and, encode, formatR_bit _ _ _ _ _ _ hi]
    interval_cases i <;> simp [rows, moveRows, arithRows, modularRows, macroRows, regBits]
  · simp [rows, moveRows, arithRows, modularRows, macroRows, encode]

theorem mthi (ra : Reg) : Statement (.mthi ra) := by
  intro _
  refine ⟨rows[4], by simp [rows, moveRows, arithRows, modularRows, macroRows], ?_, ?_⟩
  · refine beq_iff_eq.2 (BitVec.eq_of_getLsbD_eq fun i hi => ?_)
    rw [BitVec.getLsbD_and, encode, formatR_bit _ _ _ _ _ _ hi]
    interval_cases i <;> simp [rows, moveRows, arithRows, modularRows, macroRows, regBits]
  · simp [rows, moveRows, arithRows, modularRows, macroRows, encode]

theorem add (rd ra rb : Reg) : Statement (.add rd ra rb) := by
  intro _
  refine ⟨rows[5], by simp [rows, moveRows, arithRows, modularRows, macroRows], ?_, ?_⟩
  · refine beq_iff_eq.2 (BitVec.eq_of_getLsbD_eq fun i hi => ?_)
    rw [BitVec.getLsbD_and, encode, formatR_bit _ _ _ _ _ _ hi]
    interval_cases i <;> simp [rows, moveRows, arithRows, modularRows, macroRows, regBits]
  · simp [rows, moveRows, arithRows, modularRows, macroRows, encode]

theorem sub (rd ra rb : Reg) : Statement (.sub rd ra rb) := by
  intro _
  refine ⟨rows[6], by simp [rows, moveRows, arithRows, modularRows, macroRows], ?_, ?_⟩
  · refine beq_iff_eq.2 (BitVec.eq_of_getLsbD_eq fun i hi => ?_)
    rw [BitVec.getLsbD_and, encode, formatR_bit _ _ _ _ _ _ hi]
    interval_cases i <;> simp [rows, moveRows, arithRows, modularRows, macroRows, regBits]
  · simp [rows, moveRows, arithRows, modularRows, macroRows, encode]

theorem cmp (ra rb : Reg) : Statement (.cmp ra rb) := by
  intro _
  refine ⟨rows[7], by simp [rows, moveRows, arithRows, modularRows, macroRows], ?_, ?_⟩
  · refine beq_iff_eq.2 (BitVec.eq_of_getLsbD_eq fun i hi => ?_)
    rw [BitVec.getLsbD_and, encode, formatR_bit _ _ _ _ _ _ hi]
    interval_cases i <;> simp [rows, moveRows, arithRows, modularRows, macroRows, regBits]
  · simp [rows, moveRows, arithRows, modularRows, macroRows, encode]

theorem mul (rd ra rb : Reg) : Statement (.mul rd ra rb) := by
  intro _
  refine ⟨rows[8], by simp [rows, moveRows, arithRows, modularRows, macroRows], ?_, ?_⟩
  · refine beq_iff_eq.2 (BitVec.eq_of_getLsbD_eq fun i hi => ?_)
    rw [BitVec.getLsbD_and, encode, formatR_bit _ _ _ _ _ _ hi]
    interval_cases i <;> simp [rows, moveRows, arithRows, modularRows, macroRows, regBits]
  · simp [rows, moveRows, arithRows, modularRows, macroRows, encode]

theorem mod (rd ra rc : Reg) : Statement (.mod rd ra rc) := by
  intro _
  refine ⟨rows[9], by simp [rows, moveRows, arithRows, modularRows, macroRows], ?_, ?_⟩
  · refine beq_iff_eq.2 (BitVec.eq_of_getLsbD_eq fun i hi => ?_)
    rw [BitVec.getLsbD_and, encode, formatR_bit _ _ _ _ _ _ hi]
    interval_cases i <;> simp [rows, moveRows, arithRows, modularRows, macroRows, regBits]
  · simp [rows, moveRows, arithRows, modularRows, macroRows, encode]

theorem modw (rd ra rc : Reg) : Statement (.modw rd ra rc) := by
  intro _
  refine ⟨rows[10], by simp [rows, moveRows, arithRows, modularRows, macroRows], ?_, ?_⟩
  · refine beq_iff_eq.2 (BitVec.eq_of_getLsbD_eq fun i hi => ?_)
    rw [BitVec.getLsbD_and, encode, formatR_bit _ _ _ _ _ _ hi]
    interval_cases i <;> simp [rows, moveRows, arithRows, modularRows, macroRows, regBits]
  · simp [rows, moveRows, arithRows, modularRows, macroRows, encode]

theorem mulmod (rd ra rb rc : Reg) : Statement (.mulmod rd ra rb rc) := by
  intro _
  refine ⟨rows[11], by simp [rows, moveRows, arithRows, modularRows, macroRows], ?_, ?_⟩
  · refine beq_iff_eq.2 (BitVec.eq_of_getLsbD_eq fun i hi => ?_)
    rw [BitVec.getLsbD_and, encode, formatR_bit _ _ _ _ _ _ hi]
    interval_cases i <;> simp [rows, moveRows, arithRows, modularRows, macroRows]
  · simp [rows, moveRows, arithRows, modularRows, macroRows, encode]

theorem modexp (rd ra rb rc : Reg) : Statement (.modexp rd ra rb rc) := by
  intro _
  refine ⟨rows[12], by simp [rows, moveRows, arithRows, modularRows, macroRows], ?_, ?_⟩
  · refine beq_iff_eq.2 (BitVec.eq_of_getLsbD_eq fun i hi => ?_)
    rw [BitVec.getLsbD_and, encode, formatR_bit _ _ _ _ _ _ hi]
    interval_cases i <;> simp [rows, moveRows, arithRows, modularRows, macroRows]
  · simp [rows, moveRows, arithRows, modularRows, macroRows, encode]

theorem gcd (rd ra rb : Reg) : Statement (.gcd rd ra rb) := by
  intro _
  refine ⟨rows[13], by simp [rows, moveRows, arithRows, modularRows, macroRows], ?_, ?_⟩
  · refine beq_iff_eq.2 (BitVec.eq_of_getLsbD_eq fun i hi => ?_)
    rw [BitVec.getLsbD_and, encode, formatR_bit _ _ _ _ _ _ hi]
    interval_cases i <;> simp [rows, moveRows, arithRows, modularRows, macroRows, regBits]
  · simp [rows, moveRows, arithRows, modularRows, macroRows, encode]

theorem modinv (rd ra rc : Reg) : Statement (.modinv rd ra rc) := by
  intro _
  refine ⟨rows[14], by simp [rows, moveRows, arithRows, modularRows, macroRows], ?_, ?_⟩
  · refine beq_iff_eq.2 (BitVec.eq_of_getLsbD_eq fun i hi => ?_)
    rw [BitVec.getLsbD_and, encode, formatR_bit _ _ _ _ _ _ hi]
    interval_cases i <;> simp [rows, moveRows, arithRows, modularRows, macroRows, regBits]
  · simp [rows, moveRows, arithRows, modularRows, macroRows, encode]

theorem mrtest (ra : Reg) : Statement (.mrtest ra) := by
  intro _
  refine ⟨rows[15], by simp [rows, moveRows, arithRows, modularRows, macroRows], ?_, ?_⟩
  · refine beq_iff_eq.2 (BitVec.eq_of_getLsbD_eq fun i hi => ?_)
    rw [BitVec.getLsbD_and, encode, formatR_bit _ _ _ _ _ _ hi]
    interval_cases i <;> simp [rows, moveRows, arithRows, modularRows, macroRows, regBits]
  · simp [rows, moveRows, arithRows, modularRows, macroRows, encode]

theorem randbits (rd : Reg) (imm16 : Nat) : Statement (.randbits rd imm16) := by
  intro h
  refine ⟨rows[16], by simp [rows, moveRows, arithRows, modularRows, macroRows], ?_, ?_⟩
  · refine beq_iff_eq.2 (BitVec.eq_of_getLsbD_eq fun i hi => ?_)
    rw [BitVec.getLsbD_and, encode, formatI_bit _ _ _ _ hi]
    interval_cases i <;> simp [rows, moveRows, arithRows, modularRows, macroRows]
  · simp [rows, moveRows, arithRows, modularRows, macroRows, encode, immField_formatI _ _ h]

theorem randrange (rd ra rb : Reg) : Statement (.randrange rd ra rb) := by
  intro _
  refine ⟨rows[17], by simp [rows, moveRows, arithRows, modularRows, macroRows], ?_, ?_⟩
  · refine beq_iff_eq.2 (BitVec.eq_of_getLsbD_eq fun i hi => ?_)
    rw [BitVec.getLsbD_and, encode, formatR_bit _ _ _ _ _ _ hi]
    interval_cases i <;> simp [rows, moveRows, arithRows, modularRows, macroRows, regBits]
  · simp [rows, moveRows, arithRows, modularRows, macroRows, encode]

theorem primegen (rd : Reg) (imm16 : Nat) : Statement (.primegen rd imm16) := by
  intro h
  refine ⟨rows[18], by simp [rows, moveRows, arithRows, modularRows, macroRows], ?_, ?_⟩
  · refine beq_iff_eq.2 (BitVec.eq_of_getLsbD_eq fun i hi => ?_)
    rw [BitVec.getLsbD_and, encode, formatI_bit _ _ _ _ hi]
    interval_cases i <;> simp [rows, moveRows, arithRows, modularRows, macroRows]
  · simp [rows, moveRows, arithRows, modularRows, macroRows, encode, immField_formatI _ _ h]

theorem keygen (imm16 : Nat) : Statement (.keygen imm16) := by
  intro h
  refine ⟨rows[19], by simp [rows, moveRows, arithRows, modularRows, macroRows], ?_, ?_⟩
  · refine beq_iff_eq.2 (BitVec.eq_of_getLsbD_eq fun i hi => ?_)
    rw [BitVec.getLsbD_and, encode, formatI_bit _ _ _ _ hi]
    interval_cases i <;> simp [rows, moveRows, arithRows, modularRows, macroRows, regBits]
  · simp [rows, moveRows, arithRows, modularRows, macroRows, encode, immField_formatI _ _ h]

theorem enc (rd ra rb rc : Reg) : Statement (.enc rd ra rb rc) := by
  intro _
  refine ⟨rows[20], by simp [rows, moveRows, arithRows, modularRows, macroRows], ?_, ?_⟩
  · refine beq_iff_eq.2 (BitVec.eq_of_getLsbD_eq fun i hi => ?_)
    rw [BitVec.getLsbD_and, encode, formatR_bit _ _ _ _ _ _ hi]
    interval_cases i <;> simp [rows, moveRows, arithRows, modularRows, macroRows]
  · simp [rows, moveRows, arithRows, modularRows, macroRows, encode]

end Sys2Proof.Laws.OpcodeRow
end

