-- ==== Sys2Proof/Laws/Primality.lean ====
section
/-! SUPPORT. The draws of the tester, the prime generator and the key generator look only at the words they take, and no
loop is cut off (spec/42_primality.md R97, spec/43_primegen.md R102, R105, spec/45_keypair_cipher.md R114, R116). -/

namespace Sys2Proof.Machine

/-! ### The tester -/

theorem mrRounds_local (n s d : Nat) : ∀ k, Draw.Local (mrRounds n s d k) := by
  intro k
  induction k with
  | zero =>
    intro ws v rest h
    obtain ⟨rfl, rfl⟩ : _ ∧ _ := by simpa [mrRounds] using h
    exact ⟨[], by simp, fun more => by simp [mrRounds]⟩
  | succ k ih =>
    intro ws v rest h
    rw [mrRounds] at h
    split at h
    · cases h
    · rename_i a r e
      obtain ⟨u, rfl, l⟩ := drawRange_local _ _ _ _ _ e
      split at h
      · rename_i pass
        obtain ⟨u', rfl, l'⟩ := ih _ _ _ h
        exact ⟨u ++ u', by simp, fun more => by simp [mrRounds, l, pass, l']⟩
      · rename_i fail
        obtain ⟨rfl, rfl⟩ : _ ∧ _ := by simpa using h
        exact ⟨u, rfl, fun more => by simp [mrRounds, l, fail]⟩

theorem millerRabin_local (n k : Nat) : Draw.Local (millerRabin n k) := by
  intro ws v rest h
  unfold millerRabin at h ⊢
  split_ifs at h ⊢
  · obtain ⟨rfl, rfl⟩ : _ ∧ _ := by simpa using h
    exact ⟨[], by simp, fun more => by simp⟩
  · obtain ⟨rfl, rfl⟩ : _ ∧ _ := by simpa using h
    exact ⟨[], by simp, fun more => by simp⟩
  · obtain ⟨rfl, rfl⟩ : _ ∧ _ := by simpa using h
    exact ⟨[], by simp, fun more => by simp⟩
  · exact mrRounds_local _ _ _ _ _ _ _ h

/-! ### The prime generator -/

theorem primeLoop_local {bits k : Nat} (pos : 0 < bits) : ∀ (n : Nat) (ws rest : List Rnd) (c : Nat),
    primeLoop bits k n ws = some (c, rest) →
    ∃ used, ws = used ++ rest ∧ ∀ more m, used.length < m →
      primeLoop bits k m (used ++ more) = some (c, more) := by
  intro n
  induction n with
  | zero => intro ws rest c h; simp [primeLoop] at h
  | succ n ih =>
    intro ws rest c h
    rw [primeLoop] at h
    split at h
    · cases h
    · rename_i c0 r e
      have takes := drawBits_takes e pos
      obtain ⟨u, rfl, l⟩ := drawBits_local _ _ _ _ e
      have upos : 0 < u.length := by simpa using takes
      split at h
      · cases h
      · rename_i r' e'
        obtain ⟨u', rfl, l'⟩ := millerRabin_local _ _ _ _ _ e'
        obtain ⟨rfl, rfl⟩ : _ ∧ _ := by simpa using h
        refine ⟨u ++ u', by simp, fun more m hm => ?_⟩
        obtain ⟨m, rfl⟩ := Nat.exists_eq_succ_of_ne_zero (by omega : m ≠ 0)
        simp [primeLoop, l, l']
      · rename_i r' e'
        obtain ⟨u', rfl, l'⟩ := millerRabin_local _ _ _ _ _ e'
        obtain ⟨u'', rfl, l''⟩ := ih _ _ _ h
        refine ⟨u ++ u' ++ u'', by simp, fun more m hm => ?_⟩
        obtain ⟨m, rfl⟩ := Nat.exists_eq_succ_of_ne_zero (by omega : m ≠ 0)
        simp only [List.length_append] at hm
        simp [primeLoop, l, l', l'' more m (by omega)]

theorem primeGen_local {bits k : Nat} (pos : 0 < bits) : Draw.Local (primeGen bits k) := by
  intro ws c rest h
  obtain ⟨u, e, l⟩ := primeLoop_local pos _ _ _ _ h
  exact ⟨u, e, fun more => l more _ (by simp)⟩

theorem primeLoop_takes {bits k : Nat} (pos : 0 < bits) : ∀ (n : Nat) (ws rest : List Rnd) (c : Nat),
    primeLoop bits k n ws = some (c, rest) → rest.length < ws.length := by
  intro n
  induction n with
  | zero => intro ws rest c h; simp [primeLoop] at h
  | succ n ih =>
    intro ws rest c h
    rw [primeLoop] at h
    split at h
    · cases h
    · rename_i c0 r e
      have t := drawBits_takes e pos
      split at h
      · cases h
      · rename_i r' e'
        obtain ⟨u', rfl, -⟩ := millerRabin_local _ _ _ _ _ e'
        obtain ⟨rfl, rfl⟩ : _ ∧ _ := by simpa using h
        simp at t ⊢; omega
      · rename_i r' e'
        obtain ⟨u', rfl, -⟩ := millerRabin_local _ _ _ _ _ e'
        have := ih _ _ _ h
        simp at t ⊢; omega

theorem primeGen_takes {bits k : Nat} (pos : 0 < bits) {ws rest : List Rnd} {c : Nat}
    (h : primeGen bits k ws = some (c, rest)) : rest.length < ws.length :=
  primeLoop_takes pos _ _ _ _ h

/-- A forced candidate is odd and has its top bit set (R102). -/
theorem le_forceEnds (bits c : Nat) : 2 ^ (bits - 1) ≤ forceEnds bits c :=
  Nat.le_trans Nat.right_le_or Nat.left_le_or

theorem primeLoop_value {bits k : Nat} : ∀ (n : Nat) (ws rest : List Rnd) (c : Nat),
    primeLoop bits k n ws = some (c, rest) → ∃ v, v < 2 ^ bits ∧ c = forceEnds bits v := by
  intro n
  induction n with
  | zero => intro ws rest c h; simp [primeLoop] at h
  | succ n ih =>
    intro ws rest c h
    rw [primeLoop] at h
    split at h
    · cases h
    · rename_i c0 r e
      split at h
      · cases h
      · obtain ⟨rfl, rfl⟩ : _ ∧ _ := by simpa using h
        exact ⟨c0, drawBits_lt e, rfl⟩
      · exact ih _ _ _ h

/-- A generated prime is a forced candidate of `bits` bits. -/
theorem primeGen_value {bits k : Nat} {ws rest : List Rnd} {c : Nat}
    (h : primeGen bits k ws = some (c, rest)) : ∃ v, v < 2 ^ bits ∧ c = forceEnds bits v :=
  primeLoop_value _ _ _ _ h

/-! ### The key generator -/

theorem otherPrimeLoop_local {h k p : Nat} (pos : 0 < h) : ∀ (n : Nat) (ws rest : List Rnd) (q : Nat),
    otherPrimeLoop h k p n ws = some (q, rest) →
    ∃ used, ws = used ++ rest ∧ ∀ more m, used.length < m →
      otherPrimeLoop h k p m (used ++ more) = some (q, more) := by
  intro n
  induction n with
  | zero => intro ws rest q e; simp [otherPrimeLoop] at e
  | succ n ih =>
    intro ws rest q e
    rw [otherPrimeLoop] at e
    split at e
    · cases e
    · rename_i q0 r e0
      have takes := primeGen_takes pos e0
      obtain ⟨u, rfl, l⟩ := primeGen_local pos _ _ _ e0
      have upos : 0 < u.length := by simpa using takes
      split at e
      · rename_i eq
        obtain ⟨u', rfl, l'⟩ := ih _ _ _ e
        refine ⟨u ++ u', by simp, fun more m hm => ?_⟩
        obtain ⟨m, rfl⟩ := Nat.exists_eq_succ_of_ne_zero (by omega : m ≠ 0)
        simp only [List.length_append] at hm
        simp [otherPrimeLoop, l, eq, l' more m (by omega)]
      · rename_i ne
        obtain ⟨rfl, rfl⟩ : _ ∧ _ := by simpa using e
        refine ⟨u, rfl, fun more m hm => ?_⟩
        obtain ⟨m, rfl⟩ := Nat.exists_eq_succ_of_ne_zero (by omega : m ≠ 0)
        simp [otherPrimeLoop, l, ne]

theorem otherPrime_local {h k p : Nat} (pos : 0 < h) : Draw.Local (otherPrime h k p) := by
  intro ws q rest e
  obtain ⟨u, eq, l⟩ := otherPrimeLoop_local pos _ _ _ _ e
  exact ⟨u, eq, fun more => l more _ (by simp)⟩

theorem otherPrimeLoop_value {h k p : Nat} : ∀ (n : Nat) (ws rest : List Rnd) (q : Nat),
    otherPrimeLoop h k p n ws = some (q, rest) → q ≠ p ∧ ∃ v, v < 2 ^ h ∧ q = forceEnds h v := by
  intro n
  induction n with
  | zero => intro ws rest q e; simp [otherPrimeLoop] at e
  | succ n ih =>
    intro ws rest q e
    rw [otherPrimeLoop] at e
    split at e
    · cases e
    · rename_i q0 r e0
      split at e
      · exact ih _ _ _ e
      · rename_i ne
        obtain ⟨rfl, rfl⟩ : _ ∧ _ := by simpa using e
        exact ⟨ne, primeGen_value e0⟩

theorem exponentLoop_local {phi : Nat} (big : 3 < phi) : ∀ (n : Nat) (ws rest : List Rnd) (e : Nat),
    exponentLoop phi n ws = some (e, rest) →
    ∃ used, ws = used ++ rest ∧ ∀ more m, used.length < m →
      exponentLoop phi m (used ++ more) = some (e, more) := by
  intro n
  induction n with
  | zero => intro ws rest e h; simp [exponentLoop] at h
  | succ n ih =>
    intro ws rest e h
    rw [exponentLoop] at h
    split at h
    · cases h
    · rename_i e0 r d
      have takes := drawRange_takes d (by omega)
      obtain ⟨u, rfl, l⟩ := drawRange_local _ _ _ _ _ d
      have upos : 0 < u.length := by simpa using takes
      split at h
      · rename_i one
        obtain ⟨rfl, rfl⟩ : _ ∧ _ := by simpa using h
        refine ⟨u, rfl, fun more m hm => ?_⟩
        obtain ⟨m, rfl⟩ := Nat.exists_eq_succ_of_ne_zero (by omega : m ≠ 0)
        simp [exponentLoop, l, one]
      · rename_i ne
        obtain ⟨u', rfl, l'⟩ := ih _ _ _ h
        refine ⟨u ++ u', by simp, fun more m hm => ?_⟩
        obtain ⟨m, rfl⟩ := Nat.exists_eq_succ_of_ne_zero (by omega : m ≠ 0)
        simp only [List.length_append] at hm
        simp [exponentLoop, l, ne, l' more m (by omega)]

theorem publicExponent_local {phi : Nat} (big : 3 < phi) : Draw.Local (publicExponent phi) := by
  intro ws e rest h
  obtain ⟨u, eq, l⟩ := exponentLoop_local big _ _ _ _ h
  exact ⟨u, eq, fun more => l more _ (by simp)⟩

/-- `φ` of two candidates of at least 3 bits is above 3, so every pass of R116 takes a word. -/
theorem three_lt_phi {h p q : Nat} (h3 : 3 ≤ h) (hp : 2 ^ (h - 1) ≤ p) (hq : 2 ^ (h - 1) ≤ q) :
    3 < (p - 1) * (q - 1) := by
  have four : 4 ≤ 2 ^ (h - 1) :=
    Nat.le_trans (by decide : 4 ≤ 2 ^ 2) (Nat.pow_le_pow_right (by decide) (by omega))
  calc 3 < 3 * 3 := by decide
    _ ≤ (p - 1) * (q - 1) := Nat.mul_le_mul (by omega) (by omega)

/-- What a completed key generation has drawn. -/
theorem keyGen_some {h k : Nat} {ws rest : List Rnd} {y : Keys} (e : keyGen h k ws = some (y, rest)) :
    ∃ p q x ws1 ws2, primeGen h k ws = some (p, ws1) ∧ otherPrime h k p ws1 = some (q, ws2) ∧
      publicExponent ((p - 1) * (q - 1)) ws2 = some (x, rest) ∧ y = keysOf p q x := by
  unfold keyGen at e
  split at e
  · cases e
  · rename_i p ws1 e1
    split at e
    · cases e
    · rename_i q ws2 e2
      split at e
      · cases e
      · rename_i x ws3 e3
        obtain ⟨rfl, rfl⟩ : _ ∧ _ := by simpa using e
        exact ⟨p, q, x, ws1, ws2, e1, e2, e3, rfl⟩

theorem keyGen_local {h k : Nat} (h3 : 3 ≤ h) : Draw.Local (keyGen h k) := by
  intro ws y rest e
  obtain ⟨p, q, x, ws1, ws2, e1, e2, e3, rfl⟩ := keyGen_some e
  have hp : 2 ^ (h - 1) ≤ p := by
    obtain ⟨v, -, rfl⟩ := primeGen_value e1; exact le_forceEnds _ _
  have hq : 2 ^ (h - 1) ≤ q := by
    obtain ⟨-, v, -, rfl⟩ := otherPrimeLoop_value _ _ _ _ e2; exact le_forceEnds _ _
  obtain ⟨u1, rfl, l1⟩ := primeGen_local (by omega) _ _ _ e1
  obtain ⟨u2, rfl, l2⟩ := otherPrime_local (by omega) _ _ _ e2
  obtain ⟨u3, rfl, l3⟩ := publicExponent_local (three_lt_phi h3 hp hq) _ _ _ e3
  exact ⟨u1 ++ u2 ++ u3, by simp, fun more => by simp [keyGen, l1, l2, l3]⟩

/-! ### Every command -/

theorem Draw.Local.map {α β : Type} {d : Draw α} (l : Draw.Local d) (g : α → β) :
    Draw.Local (Draw.map g d) := by
  intro ws b rest h
  obtain ⟨a, e, rfl⟩ := Draw.map_some h
  obtain ⟨u, eq, l'⟩ := l _ _ _ e
  exact ⟨u, eq, fun more => by simp [Draw.map, l']⟩

theorem noDraw_local (f : State → State) : Draw.Local (noDraw f) := by
  intro ws g rest h
  obtain ⟨rfl, rfl⟩ : _ ∧ _ := by simpa [noDraw] using h
  exact ⟨[], by simp, fun more => by simp [noDraw]⟩

/-- Every command that passes its check looks only at the words it takes. -/
theorem workOf_local {i : Instr} {s : State} (h : checkOf i s = none) : Draw.Local (workOf i s) := by
  cases i
  case mrtest => exact (millerRabin_local _ _).map _
  case randbits => exact (drawBits_local _).map _
  case randrange => exact (drawRange_local _ _).map _
  case primegen rd n =>
    refine (primeGen_local ?_).map _
    by_contra c
    simp [checkOf, (by omega : n < 2)] at h
  case keygen n =>
    refine (keyGen_local ?_).map _
    by_contra c
    simp [checkOf] at h
    omega
  all_goals exact noDraw_local _

end Sys2Proof.Machine
end

