-- ==== Sys2Proof/Laws/Relations.lean ====
section
/-! SUPPORT. Each draw procedure is the relation of its rule (Safety.lean): the tester (spec/42_primality.md R95 to R97),
the prime generator (spec/43_primegen.md R102), the key generator (spec/45_keypair_cipher.md R114, R116, R120). -/

namespace Sys2Proof.Machine

/-! ### The tester -/

theorem halve_spec : ∀ n s d, d ≠ 0 → d ≤ n → (halve n s d).2 % 2 = 1 ∧ 2 ^ s * d =
    2 ^ (halve n s d).1 * (halve n s d).2 ∧ s ≤ (halve n s d).1 := by
  intro n
  induction n with
  | zero => intro s d h h'; omega
  | succ n ih =>
    intro s d h h'
    rw [halve]
    split
    · rename_i e
      obtain ⟨a, b, c⟩ := ih (s+1) (d/2) (by omega) (by omega)
      refine ⟨a, ?_, by omega⟩
      rw [← b, Nat.pow_succ, Nat.mul_assoc]
      congr 1; omega
    · refine ⟨by dsimp only; omega, rfl, Nat.le_refl _⟩

/-- `n − 1 = 2^s · d` with `d` odd (R96). -/
theorem factorPred_spec {n : Nat} (h : 2 ≤ n) : (factorPred n).2 % 2 = 1 ∧ n - 1 =
    2 ^ (factorPred n).1 * (factorPred n).2 := by
  obtain ⟨a, b, -⟩ := halve_spec (n-1) 0 (n-1) (by omega) (Nat.le_refl _)
  exact ⟨a, by rw [factorPred, ← b]; simp⟩

/-- The factoring of R96 is unique. -/
theorem odd_split_unique : ∀ {s s' d d' : Nat}, d % 2 = 1 → d' % 2 = 1 → 2 ^ s * d = 2 ^ s' * d' →
    s = s' ∧ d = d' := by
  intro s
  induction s with
  | zero =>
    intro s' d d' h h' e
    cases s' with
    | zero => simpa using e
    | succ s' => rw [Nat.pow_succ] at e; simp at e; have : 2 ^ s' * 2 * d' = 2 * (2 ^ s' * d') := by ring
                 omega
  | succ s ih =>
    intro s' d d' h h' e
    cases s' with
    | zero => rw [Nat.pow_succ] at e; simp at e; have : 2 ^ s * 2 * d = 2 * (2 ^ s * d) := by ring
              omega
    | succ s' =>
      obtain ⟨a, b⟩ := ih (s' := s') h h' (by rw [Nat.pow_succ, Nat.pow_succ] at e; nlinarith)
      exact ⟨by omega, b⟩

/-- The squarings of a round (R97). -/
theorem squares_iff {n : Nat} : ∀ c x y, x = y % n → (squaresToMinusOne n c x = true ↔ ∃ r, 1 ≤ r ∧
    r ≤ c ∧ y ^ (2 ^ r) % n = n - 1) := by
  intro c
  induction c with
  | zero => intro x y h; simp [squaresToMinusOne]
  | succ c ih =>
    intro x y h
    have sq : x * x % n = y ^ 2 % n := by rw [h, ← Nat.mul_mod, pow_two]
    rw [squaresToMinusOne]
    split
    · rename_i e
      simp only [true_iff]
      exact ⟨1, by omega, by omega, by rw [sq] at e; simpa using e⟩
    · rename_i e
      rw [ih _ (y ^ 2) sq]
      constructor
      · rintro ⟨r, h1, h2, h3⟩
        exact ⟨r+1, by omega, by omega, by rwa [← pow_mul, ← pow_succ'] at h3⟩
      · rintro ⟨r, h1, h2, h3⟩
        obtain ⟨r, rfl⟩ := Nat.exists_eq_succ_of_ne_zero (by omega : r ≠ 0)
        by_cases hr : r = 0
        · subst hr; rw [sq] at e; exact absurd (by simpa using h3) e
        · exact ⟨r, by omega, by omega, by rw [← pow_mul, ← pow_succ']; exact h3⟩

/-- A round as computed is a round as defined (R97). -/
theorem roundPasses_iff {n a : Nat} (h5 : 5 ≤ n) (ho : n % 2 = 1) :
    roundPasses n (factorPred n).1 (factorPred n).2 a = true ↔ RoundPasses n a := by
  obtain ⟨od, eq⟩ := factorPred_spec (show 2 ≤ n by omega)
  generalize (factorPred n).1 = s at *
  generalize (factorPred n).2 = d at *
  have spos : s ≠ 0 := by rintro rfl; simp at eq; omega
  have e := modExp_eq (show 0 < n by omega) a d
  have : RoundPasses n a ↔ (a ^ d % n = 1 ∨ ∃ r, r < s ∧ a ^ (2 ^ r * d) % n = n - 1) := by
    constructor
    · rintro ⟨s', d', e', o', h⟩
      obtain ⟨rfl, rfl⟩ := odd_split_unique od o' (eq.symm.trans e')
      exact h
    · intro h; exact ⟨s, d, eq, od, h⟩
  rw [this, roundPasses, e]
  split
  · rename_i h
    simp only [true_iff]
    rcases h with h | h
    · exact .inl h
    · exact .inr ⟨0, by omega, by simpa using h⟩
  · rename_i h
    rw [squares_iff (s-1) _ (a ^ d) rfl]
    constructor
    · rintro ⟨r, h1, h2, h3⟩
      exact .inr ⟨r, by omega, by rw [Nat.mul_comm, pow_mul]; exact h3⟩
    · rintro (h' | ⟨r, h1, h2⟩)
      · exact absurd (.inl h') h
      · by_cases hr : r = 0
        · subst hr; exact absurd (.inr (by simpa using h2)) h
        · exact ⟨r, by omega, by omega, by rw [← pow_mul, Nat.mul_comm d]; exact h2⟩

theorem mrRounds_iff {n : Nat} (h5 : 5 ≤ n) (ho : n % 2 = 1) : ∀ k ws v rest,
    mrRounds n (factorPred n).1 (factorPred n).2 k ws = some (v, rest) ↔ RoundsRun n k ws v rest := by
  intro k
  induction k with
  | zero =>
    intro ws v rest
    rw [mrRounds]
    constructor
    · intro h; obtain ⟨rfl, rfl⟩ : _ ∧ _ := by simpa using h
      exact .none
    · rintro ⟨⟩; rfl
  | succ k ih =>
    intro ws v rest
    rw [mrRounds]
    constructor
    · intro h
      split at h
      · cases h
      · rename_i a r e
        have e := drawRange_iff.1 e
        split at h
        · rename_i p; exact .pass e ((roundPasses_iff h5 ho).1 p) ((ih _ _ _).1 h)
        · rename_i p
          obtain ⟨rfl, rfl⟩ : _ ∧ _ := by simpa using h
          exact .fail e (fun q => p ((roundPasses_iff h5 ho).2 q))
    · intro h
      cases h with
      | pass d ok next => rw [drawRange_iff.2 d]; simp [(roundPasses_iff h5 ho).2 ok, (ih _ _ _).2 next]
      | fail d no =>
        rw [drawRange_iff.2 d]
        have : ¬ roundPasses n (factorPred n).1 (factorPred n).2 _ = true := fun q => no
            ((roundPasses_iff h5 ho).1 q)
        simp [this]

/-- `MillerRabin(n, k)` is its relation (R95, R97). -/
theorem millerRabin_iff {n k ws v rest} : millerRabin n k ws = some (v, rest) ↔ Verdict n k ws v rest := by
  unfold millerRabin
  constructor
  · intro h
    split at h
    · obtain ⟨rfl, rfl⟩ : _ ∧ _ := by simpa using h
      exact .small ‹_›
    · split at h
      · obtain ⟨rfl, rfl⟩ : _ ∧ _ := by simpa using h
        exact .prime ‹_›
      · split at h
        · obtain ⟨rfl, rfl⟩ : _ ∧ _ := by simpa using h
          exact .even (by omega) ‹_›
        · exact .rounds (by omega) (by omega) ((mrRounds_iff (by omega) (by omega) _ _ _ _).1 h)
  · intro h
    cases h with
    | small h => rw [if_pos h]
    | prime h => rw [if_neg (by omega), if_pos h]
    | even h e => 
      by_cases h4 : n ≤ 1 ∨ n = 4
      · rw [if_pos h4]
      · rw [if_neg h4, if_neg (by omega), if_pos e]
    | rounds h o r => rw [if_neg (by omega), if_neg (by omega), if_neg (by omega)]; exact
        (mrRounds_iff h o _ _ _ _).2 r

/-! ### The prime generator -/

theorem forced_forceEnds (bits c : Nat) : Forced bits c (forceEnds bits c) := by
  intro j
  rw [forceEnds, Nat.testBit_or, Nat.testBit_or, Nat.testBit_two_pow]
  have : Nat.testBit 1 j = decide (j = 0) := by
    have := Nat.testBit_two_pow (n := 0) (m := j)
    simp only [pow_zero] at this
    rw [this]; simp [eq_comm]
  rw [this]; simp [eq_comm]

theorem forced_eq {bits c c' : Nat} (h : Forced bits c c') : c' = forceEnds bits c :=
  Nat.eq_of_testBit_eq fun j => by rw [h j, forced_forceEnds bits c j]

theorem primeLoop_sound {bits k : Nat} : ∀ (n : Nat) {ws rest : List Rnd} {c : Nat},
    primeLoop bits k n ws = some (c, rest) → PrimeRun bits k ws c rest := by
  intro n
  induction n with
  | zero => intro ws rest c h; simp [primeLoop] at h
  | succ n ih =>
    intro ws rest c h
    rw [primeLoop] at h
    split at h
    · cases h
    · rename_i c0 r e
      have e := drawBits_iff.1 e
      split at h
      · cases h
      · rename_i m
        obtain ⟨rfl, rfl⟩ : _ ∧ _ := by simpa using h
        exact .found e (forced_forceEnds _ _) (millerRabin_iff.1 m)
      · rename_i m
        exact .again e (forced_forceEnds _ _) (millerRabin_iff.1 m) (ih h)

theorem primeLoop_complete {bits k : Nat} (pos : 0 < bits) {ws rest : List Rnd} {c : Nat} (h :
    PrimeRun bits k ws c rest) :
    ∀ n, ws.length < n → primeLoop bits k n ws = some (c, rest) := by
  induction h with
  | found d f v =>
    intro n hn
    obtain ⟨n, rfl⟩ := Nat.exists_eq_succ_of_ne_zero (by omega : n ≠ 0)
    have f := forced_eq f; subst f
    simp [primeLoop, drawBits_iff.2 d, millerRabin_iff.2 v]
  | again d f v _ ih =>
    intro n hn
    obtain ⟨n, rfl⟩ := Nat.exists_eq_succ_of_ne_zero (by omega : n ≠ 0)
    have f := forced_eq f; subst f
    have t := drawBits_takes (drawBits_iff.2 d) pos
    obtain ⟨u, hu, -⟩ := millerRabin_local _ _ _ _ _ (millerRabin_iff.2 v)
    have := congrArg List.length hu
    simp at this
    simp [primeLoop, drawBits_iff.2 d, millerRabin_iff.2 v, ih n (by omega)]

/-- `PrimeGen(bits, k)` is its relation (R102); no pass is cut off (R105). -/
theorem primeGen_iff {bits k : Nat} (pos : 0 < bits) {ws rest c} : primeGen bits k ws = some (c, rest) ↔
    PrimeRun bits k ws c rest :=
  ⟨primeLoop_sound _, fun h => primeLoop_complete pos h _ (Nat.lt_succ_self _)⟩

theorem forceEnds_facts {bits v : Nat} (h1 : 1 ≤ bits) (h : v < 2 ^ bits) : 2 ^
    (bits - 1) ≤ forceEnds bits v ∧ forceEnds bits v < 2 ^ bits ∧ forceEnds bits v % 2 = 1 := by
  refine ⟨le_forceEnds _ _, ?_, ?_⟩
  · exact Nat.or_lt_two_pow (Nat.or_lt_two_pow h (Nat.pow_lt_pow_right (by decide) (by omega)))
      (Nat.one_lt_two_pow (by omega))
  · have := forced_forceEnds bits v 0
    simpa [Nat.testBit_zero] using this

/-- A generated value has exactly `bits` bits and is odd (R106). -/
theorem primeRun_facts {bits k : Nat} (h1 : 1 ≤ bits) {ws rest c} (h : PrimeRun bits k ws c rest) : 2 ^
    (bits - 1) ≤ c ∧ c < 2 ^ bits ∧ c % 2 = 1 := by
  obtain ⟨v, hv, rfl⟩ := primeGen_value ((primeGen_iff (by omega)).2 h)
  exact forceEnds_facts h1 hv

/-! ### The key generator -/

theorem otherPrimeLoop_sound {h k p : Nat} (pos : 0 < h) : ∀ (n : Nat) {ws rest : List Rnd} {q : Nat},
    otherPrimeLoop h k p n ws = some (q, rest) → OtherPrimeRun h k p ws q rest := by
  intro n
  induction n with
  | zero => intro ws rest q e; simp [otherPrimeLoop] at e
  | succ n ih =>
    intro ws rest q e
    rw [otherPrimeLoop] at e
    split at e
    · cases e
    · rename_i q0 r e0
      have e0 := (primeGen_iff pos).1 e0
      split at e
      · rename_i eq; subst eq; exact .again e0 (ih e)
      · rename_i ne
        obtain ⟨rfl, rfl⟩ : _ ∧ _ := by simpa using e
        exact .found e0 ne

theorem otherPrimeLoop_complete {h k p : Nat} (pos : 0 < h) {ws rest : List Rnd} {q : Nat} (r :
    OtherPrimeRun h k p ws q rest) :
    ∀ n, ws.length < n → otherPrimeLoop h k p n ws = some (q, rest) := by
  induction r with
  | found g ne =>
    intro n hn
    obtain ⟨n, rfl⟩ := Nat.exists_eq_succ_of_ne_zero (by omega : n ≠ 0)
    simp [otherPrimeLoop, (primeGen_iff pos).2 g, ne]
  | again g _ ih =>
    intro n hn
    obtain ⟨n, rfl⟩ := Nat.exists_eq_succ_of_ne_zero (by omega : n ≠ 0)
    have t := primeGen_takes pos ((primeGen_iff pos).2 g)
    simp [otherPrimeLoop, (primeGen_iff pos).2 g, ih n (by omega)]

theorem exponentLoop_sound {phi : Nat} : ∀ (n : Nat) {ws rest : List Rnd} {e : Nat},
    exponentLoop phi n ws = some (e, rest) → ExponentRun phi ws e rest := by
  intro n
  induction n with
  | zero => intro ws rest q e; simp [exponentLoop] at e
  | succ n ih =>
    intro ws rest q e
    rw [exponentLoop] at e
    split at e
    · cases e
    · rename_i q0 r e0
      have e0 := drawRange_iff.1 e0
      rw [gcdOf_eq] at e
      split at e
      · rename_i g
        obtain ⟨rfl, rfl⟩ : _ ∧ _ := by simpa using e
        exact .found e0 g
      · rename_i g; exact .again e0 g (ih e)

theorem exponentLoop_complete {phi : Nat} (big : 3 < phi) {ws rest : List Rnd} {q : Nat} (r :
    ExponentRun phi ws q rest) :
    ∀ n, ws.length < n → exponentLoop phi n ws = some (q, rest) := by
  induction r with
  | found d g =>
    intro n hn
    obtain ⟨n, rfl⟩ := Nat.exists_eq_succ_of_ne_zero (by omega : n ≠ 0)
    simp [exponentLoop, drawRange_iff.2 d, gcdOf_eq, g]
  | again d g _ ih =>
    intro n hn
    obtain ⟨n, rfl⟩ := Nat.exists_eq_succ_of_ne_zero (by omega : n ≠ 0)
    have t := drawRange_takes (drawRange_iff.2 d) (by omega)
    simp [exponentLoop, drawRange_iff.2 d, gcdOf_eq, g, ih n (by omega)]

theorem ExponentRun.facts {phi ws e rest} (h : ExponentRun phi ws e rest) (big : 3 < phi) : 2 ≤ e ∧
    e ≤ phi - 1 ∧ Nat.gcd e phi = 1 := by
  induction h with
  | found d g => obtain ⟨a, b⟩ := d.mem (by omega); exact ⟨a, b, g⟩
  | again _ _ _ ih => exact ih

theorem OtherPrimeRun.facts {h k p ws q rest} (pos : 1 ≤ h) (r : OtherPrimeRun h k p ws q rest) : q ≠ p ∧
    2 ^ (h - 1) ≤ q ∧ q < 2 ^ h ∧ q % 2 = 1 := by
  induction r with
  | found g ne => exact ⟨ne, primeRun_facts pos g⟩
  | again _ _ ih => exact ih

/-- The draws of KEYGEN are their relation (R114, R116, R120). -/
theorem keyGen_iff {h k ws rest y} (h3 : 3 ≤ h) : keyGen h k ws = some (y, rest) ↔ ∃ p q e,
    KeyRun h k ws p q e rest ∧ y = keysOf p q e := by
  constructor
  · intro e
    obtain ⟨p, q, x, ws1, ws2, e1, e2, e3, rfl⟩ := keyGen_some e
    exact ⟨p, q, x, ⟨ws1, ws2, (primeGen_iff (by omega)).1 e1, otherPrimeLoop_sound (by omega) _ e2,
        exponentLoop_sound _ e3⟩, rfl⟩
  · rintro ⟨p, q, e, ⟨ws1, ws2, r1, r2, r3⟩, rfl⟩
    have big := three_lt_phi h3 (primeRun_facts (by omega) r1).1 (OtherPrimeRun.facts (by omega) r2).2.1
    have e2 : otherPrime h k p ws1 = some (q, ws2) := otherPrimeLoop_complete (by omega) r2 _
        (Nat.lt_succ_self _)
    have e3 : publicExponent ((p-1)*(q-1)) ws2 = some (e, rest) := exponentLoop_complete big r3 _
        (Nat.lt_succ_self _)
    simp [keyGen, (primeGen_iff (by omega : 0 < h)).2 r1, e2, e3]

end Sys2Proof.Machine
end

