-- ==== Sys2Proof/Laws/Step.lean ====
section
/-! SUPPORT. What a step can do, said once: the engine's turn, and that every step answers (spec/30_encoding.md rule R70,
spec/00_scope.md rule R6). -/

namespace Sys2Proof.Machine

/-- Execution of a command word: a meaning, or ILLCMD (R63, R70). -/
theorem runWord_cases {w : W32} {s t : State} (h : runWord w s = .next t) :
    (∃ i, decode w = .ok i ∧ exec i s = .next t) ∨ ((∃ e, decode w = .error e) ∧ t = s.raise .illcmd) := by
  unfold runWord at h
  split at h
  · rename_i i e; exact .inl ⟨i, e, h⟩
  · rename_i e he; exact .inr ⟨⟨e, he⟩, by simpa [fault] using h.symm⟩

theorem runWord_next (w : W32) (s : State) : ∃ t, runWord w s = .next t := by
  unfold runWord
  split
  · exact exec_next _ _
  · exact ⟨_, rfl⟩

/-- Everything the engine's turn can do: nothing, or the accepted word's run. -/
theorem engineTurn_cases {s t : State} (h : engineTurn s = .next t) :
    t = s ∨ ∃ w k, s.rst = false ∧ s.phase = .busy w k ∧ runWord w s = .next t := by
  unfold engineTurn at h
  split at h
  · exact .inl (by simpa using h.symm)
  · rename_i hr
    split at h
    · exact .inl (by simpa using h.symm)
    · rename_i w k hp
      exact .inr ⟨w, k, by simpa using hr, hp, h⟩

theorem engineTurn_next (s : State) : ∃ t, engineTurn s = .next t := by
  unfold engineTurn
  split
  · exact ⟨_, rfl⟩
  · split
    · exact ⟨_, rfl⟩
    · exact runWord_next _ _

/-- The step of a read at an address of the window (R39, R50). -/
theorem step_hostRead {s : State} {a : Nat} {rest : List Event} (ha : a < 0x2000 + 17 * s.width.stride)
    (e : s.env = .hostRead a :: rest) : step s = .next (({ s with env := rest } : State).hostRead a) := by
  simp only [step, e, perform]
  rw [State.portAddr_of_lt]; exact ha

/-- The step of a write at an address of the window (R39, R50). -/
theorem step_hostWrite {s : State} {a : Nat} {v : W32} {rest : List Event}
    (ha : a < 0x2000 + 17 * s.width.stride) (e : s.env = .hostWrite a v :: rest) :
    step s = .next (({ s with env := rest } : State).hostWrite a v) := by
  simp only [step, e, perform]
  rw [State.portAddr_of_lt]; exact ha

end Sys2Proof.Machine
end

