-- ==== Sys2Proof/Tests/Slice0.lean ====
section
/-! SUPPORT. The model's own tests: words written out from spec/30_encoding.md rules R58, R59 and R61, ill-formed terms,
one step a command with the results of spec/95_test_vectors.md, and for each statement with hypotheses a witness that
meets them. -/

namespace Sys2Proof.Tests

-- One test after another: many kernel evaluations at once ask for a thread each.
set_option Elab.async false

open Sys2Proof Sys2Proof.Machine

/-! ### Helpers -/

/-- All ones, the `T` of spec/95_test_vectors.md. -/
def T : Nat := 2 ^ 4096 - 1

/-- The next state of an outcome. -/
def after (o : Host.Outcome State Fault Refusal) : State :=
  match o with
  | .next t => t
  | .fault _ => State.reset
  | .refused _ => State.reset

theorem exec_after (i : Instr) (s : State) : exec i s = .next (after (exec i s)) := by
  obtain ⟨t, h⟩ := exec_next i s
  rw [h]; rfl

/-- After reset, with these registers and these random words on offer. -/
def start (regs : List (Reg × Nat)) (words : List Rnd) : State :=
  { regs.foldl (fun s p => s.setReg p.1 p.2) State.reset with offered := words }

/-- `s` just after the acceptance of `i` with round count `k`. -/
def accepted (i : Instr) (k : W32) (s : State) : State :=
  { s with cmd := encode i, phase := .busy (encode i) k }

theorem accepted_val (i : Instr) (k : W32) (s : State) : (accepted i k s).val = s.val := rfl

/-- One engine step of `i`, accepted in `s` with the reset value of `ROUNDS`. -/
def run1 (i : Instr) (s : State) : State := after (exec i (accepted i 5#32 s))

/-- `Z`, `C`, `P`. -/
def flags (s : State) : Bool × Bool × Bool := (s.z, s.c, s.p)

/-- `ERR`, `ECAUSE`, `EINFO`. -/
def faults (s : State) : W32 × W32 × W32 := (s.err, s.ecause, s.einfo)

/-! ### Decoding: one word a command, field by field (R58, R59, R61) -/

theorem test_decode_nop :
    decode (0b00000000#8 ++ 0b0000#4 ++ 0b0000#4 ++ 0b0000#4 ++ 0b0000#4 ++ 0b00000000#8) = .ok .nop := by
  decide +kernel
theorem test_decode_ldi :
    decode (0b00000001#8 ++ 0b0111#4 ++ 0b0000#4 ++ 0b1111111111111111#16) = .ok (.ldi 7 65535) := by
  decide +kernel
theorem test_decode_mov :
    decode (0b00000010#8 ++ 0b0010#4 ++ 0b0001#4 ++ 0b0000#4 ++ 0b0000#4 ++ 0b00000000#8) =
      .ok (.mov 2 1) := by decide +kernel
theorem test_decode_mfhi :
    decode (0b00000011#8 ++ 0b0101#4 ++ 0b0000#4 ++ 0b0000#4 ++ 0b0000#4 ++ 0b00000000#8) =
      .ok (.mfhi 5) := by decide +kernel
theorem test_decode_mthi :
    decode (0b00000100#8 ++ 0b0000#4 ++ 0b0101#4 ++ 0b0000#4 ++ 0b0000#4 ++ 0b00000000#8) =
      .ok (.mthi 5) := by decide +kernel
theorem test_decode_add :
    decode (0b00010000#8 ++ 0b0011#4 ++ 0b0001#4 ++ 0b0010#4 ++ 0b0000#4 ++ 0b00000000#8) =
      .ok (.add 3 1 2) := by decide +kernel
theorem test_decode_sub :
    decode (0b00010001#8 ++ 0b0011#4 ++ 0b0001#4 ++ 0b0010#4 ++ 0b0000#4 ++ 0b00000000#8) =
      .ok (.sub 3 1 2) := by decide +kernel
theorem test_decode_cmp :
    decode (0b00010010#8 ++ 0b0000#4 ++ 0b0000#4 ++ 0b1010#4 ++ 0b0000#4 ++ 0b00000000#8) =
      .ok (.cmp 0 10) := by decide +kernel
theorem test_decode_mul :
    decode (0b00010011#8 ++ 0b1010#4 ++ 0b1000#4 ++ 0b1001#4 ++ 0b0000#4 ++ 0b00000000#8) =
      .ok (.mul 10 8 9) := by decide +kernel
theorem test_decode_mod :
    decode (0b00010100#8 ++ 0b0100#4 ++ 0b0011#4 ++ 0b0000#4 ++ 0b1010#4 ++ 0b00000000#8) =
      .ok (.mod 4 3 10) := by decide +kernel
theorem test_decode_modw :
    decode (0b00010101#8 ++ 0b0100#4 ++ 0b0011#4 ++ 0b0000#4 ++ 0b1010#4 ++ 0b00000000#8) =
      .ok (.modw 4 3 10) := by decide +kernel
theorem test_decode_mulmod :
    decode (0b00100000#8 ++ 0b0100#4 ++ 0b0001#4 ++ 0b0010#4 ++ 0b1010#4 ++ 0b00000000#8) =
      .ok (.mulmod 4 1 2 10) := by decide +kernel
theorem test_decode_modexp :
    decode (0b00100001#8 ++ 0b0011#4 ++ 0b0000#4 ++ 0b1100#4 ++ 0b1010#4 ++ 0b00000000#8) =
      .ok (.modexp 3 0 12 10) := by decide +kernel
theorem test_decode_gcd :
    decode (0b00110000#8 ++ 0b0001#4 ++ 0b1100#4 ++ 0b1011#4 ++ 0b0000#4 ++ 0b00000000#8) =
      .ok (.gcd 1 12 11) := by decide +kernel
theorem test_decode_modinv :
    decode (0b00110001#8 ++ 0b1101#4 ++ 0b1100#4 ++ 0b0000#4 ++ 0b1011#4 ++ 0b00000000#8) =
      .ok (.modinv 13 12 11) := by decide +kernel
theorem test_decode_mrtest :
    decode (0b01000000#8 ++ 0b0000#4 ++ 0b0001#4 ++ 0b0000#4 ++ 0b0000#4 ++ 0b00000000#8) =
      .ok (.mrtest 1) := by decide +kernel
theorem test_decode_randbits :
    decode (0b01000001#8 ++ 0b0001#4 ++ 0b0000#4 ++ 0b0000000000001100#16) = .ok (.randbits 1 12) := by
  decide +kernel
theorem test_decode_randrange :
    decode (0b01000010#8 ++ 0b1100#4 ++ 0b0001#4 ++ 0b0010#4 ++ 0b0000#4 ++ 0b00000000#8) =
      .ok (.randrange 12 1 2) := by decide +kernel
theorem test_decode_primegen :
    decode (0b01000011#8 ++ 0b1000#4 ++ 0b0000#4 ++ 0b0000010000000000#16) = .ok (.primegen 8 1024) := by
  decide +kernel
theorem test_decode_keygen :
    decode (0b01010000#8 ++ 0b0000#4 ++ 0b0000#4 ++ 0b0000000000001100#16) = .ok (.keygen 12) := by
  decide +kernel
theorem test_decode_enc :
    decode (0b01010001#8 ++ 0b0011#4 ++ 0b0000#4 ++ 0b1100#4 ++ 0b1010#4 ++ 0b00000000#8) =
      .ok (.enc 3 0 12 10) := by decide +kernel

/-- The illegal words of V-EN-8 and V-EN-10 to V-EN-17: an assigned `op`, a field not zero. -/
theorem test_illegal_fields :
    [0x12100000#32, 0x00000001#32, 0x01010000#32, 0x0210F000#32, 0x13312001#32, 0x40010100#32,
      0x50100006#32, 0x14431A00#32, 0x03510000#32].all
      (fun w => decode w == .error .nonzeroField) = true := by decide +kernel

/-- The illegal words of V-EN-9 and V-EN-18: an unassigned `op`. -/
theorem test_illegal_ops :
    [0x05000000#32, 0x22000000#32, 0x52000000#32, 0xFFFFFFFF#32].all
      (fun w => decode w == .error .unassignedOp) = true := by decide +kernel

theorem test_table_word : decodeTableWord 32 0x10312000 = some (.add 3 1 2) := by decide +kernel

/-- The pseudo-commands' words: `SQRMOD B2, B1, B10` (V-MM-4) and `DEC B4, B3, B13, B10` (R123). -/
theorem test_pseudo : encode (Pseudo.sqrmod 2 1 10).expand = 0x20211A00#32 ∧
    encode (Pseudo.dec 4 3 13 10).expand = 0x2143DA00#32 ∧ encode (Pseudo.isprime 1).expand = 0x40010000#32 ∧
    encode (Pseudo.clr 3).expand = 0x01300000#32 ∧ RegName.PHI.reg = 11 := by decide +kernel

/-! ### Ill-formed terms: the one check of WellFormed, an immediate too large (R60) -/

theorem test_illformed_ldi : (Instr.ldi 0 65536).wellFormed = false := by decide
theorem test_illformed_randbits : (Instr.randbits 1 65536).wellFormed = false := by decide
theorem test_illformed_primegen : (Instr.primegen 8 70000).wellFormed = false := by decide
theorem test_illformed_keygen : (Instr.keygen 65536).wellFormed = false := by decide

/-! ### One step a command (spec/95_test_vectors.md section 2) -/

/-- R72: nothing but `DONE`. -/
theorem test_nop : run1 .nop State.reset = { State.reset with done := true } := by decide +kernel

/-- V-BI-1, V-BI-2: LDI clears the whole register and sets no flag. -/
theorem test_ldi : (run1 (.ldi 7 65535) (start [] [])).val 7 = 65535 ∧
    (run1 (.ldi 3 0) (start [(3, T)] [])).val 3 = 0 ∧
    flags (run1 (.ldi 3 0) (start [(3, T)] [])) = (false, false, false) := by
  decide +kernel

/-- V-BI-3: MOV leaves the flags. -/
theorem test_mov :
    let t := run1 (.mov 2 1) { start [(1, 12)] [] with z := true, c := true, p := true }
    t.val 2 = 12 ∧ flags t = (true, true, true) := by decide +kernel

/-- V-BI-4. -/
theorem test_mfhi : let t := run1 (.mfhi 6) ((start [(5, 7)] []).setHi 3)
    t.val 6 = 3 ∧ t.hiVal = 3 ∧ t.val 5 = 7 := by decide +kernel

/-- V-BI-5. -/
theorem test_mthi : let t := run1 (.mthi 5) ((start [(5, 7)] []).setHi 3)
    t.hiVal = 7 ∧ t.val 5 = 7 := by decide +kernel

/-- V-BI-6. -/
theorem test_add_doubles : let t := run1 (.add 2 1 1) (start [(1, T)] [])
    t.val 2 = T - 1 ∧ flags t = (false, true, false) := by decide +kernel

/-- V-BI-7: the sum wraps to 0. -/
theorem test_add_wraps : let t := run1 (.add 3 1 2) (start [(1, T), (2, 1)] [])
    t.val 3 = 0 ∧ flags t = (true, true, false) := by decide +kernel

/-- V-BI-8: borrow. -/
theorem test_sub_borrows : let t := run1 (.sub 3 1 2) (start [(2, 1)] [])
    t.val 3 = T ∧ flags t = (false, true, false) := by decide +kernel

/-- V-BI-9: the destination is both sources. -/
theorem test_sub_self : let t := run1 (.sub 1 1 1) (start [(1, 5)] [])
    t.val 1 = 0 ∧ flags t = (true, false, false) := by decide +kernel

/-- V-BI-10, V-BI-11. -/
theorem test_cmp : flags (run1 (.cmp 1 2) (start [(1, 143), (2, 200)] [])) = (false, true, false) ∧
    flags (run1 (.cmp 1 2) (start [(1, 143), (2, 143)] [])) = (true, false, false) := by decide +kernel

/-- V-BI-12: the largest product. -/
theorem test_mul_largest : let t := run1 (.mul 3 1 2) (start [(1, T), (2, T)] [])
    t.val 3 = 1 ∧ t.hiVal = T - 1 ∧ flags t = (false, true, false) := by decide +kernel

/-- V-BI-13: `Z` looks at the whole product. -/
theorem test_mul_z : let t := run1 (.mul 3 1 2) (start [(1, 2 ^ 2048), (2, 2 ^ 2048)] [])
    t.val 3 = 0 ∧ t.hiVal = 1 ∧ flags t = (false, true, false) := by decide +kernel

/-- V-BI-16. -/
theorem test_mod : let t := run1 (.mod 4 3 11) (start [(3, 46801), (11, 3120)] [])
    t.val 4 = 1 ∧ flags t = (false, false, false) := by decide +kernel

/-- V-BI-20: MODZERO. -/
theorem test_mod_zero : let t := run1 (.mod 4 3 10) { start [(3, 5), (4, 44)] [] with c := true }
    t.val 4 = 44 ∧ flags t = (false, true, false) ∧ faults t = (0x04#32, 2#32, 0x14430A00#32) := by
  decide +kernel

/-- V-BI-18, V-BI-19: `HI` is the upper half of the dividend. -/
theorem test_modw : (run1 (.modw 4 3 10) ((start [(10, 7)] []).setHi 1)).val 4 = 2 ∧
    (run1 (.modw 4 3 10) ((start [(3, 5), (10, 1000)] []).setHi 3)).val 4 = 13 := by decide +kernel

/-- V-MM-2: the product is not truncated. -/
theorem test_mulmod : let t := run1 (.mulmod 4 1 2 10) (start [(1, T), (2, T), (10, T - 1)] [])
    t.val 4 = 1 ∧ t.z = false ∧ t.hiVal = 0 := by decide +kernel

/-- V-MM-5. -/
theorem test_mulmod_zero : let t := run1 (.mulmod 4 1 2 10) (start [(1, 2), (2, 3), (4, 44)] [])
    t.val 4 = 44 ∧ faults t = (0x04#32, 2#32, 0x20412A00#32) := by decide +kernel

/-- V-ME-1, V-ME-3, V-ME-4, V-ME-14, and the aliased `MODEXP B3, B3, B3, B4` of section 2.3. -/
theorem test_modexp : (run1 (.modexp 3 0 12 10) (start [(0, 65), (12, 17), (10, 3233)] [])).val 3 = 2790 ∧
    (run1 (.modexp 3 0 12 10) (start [(10, 7)] [])).val 3 = 1 ∧
    (run1 (.modexp 3 0 12 10) (start [(10, 1)] [])).val 3 = 0 ∧
    (run1 (.modexp 3 0 12 10) (start [(0, 2), (12, 4096), (10, 7)] [])).val 3 = 2 ∧
    (run1 (.modexp 3 3 3 4) (start [(3, 4), (4, 6)] [])).val 3 = 4 := by decide +kernel

/-- V-ME-20. -/
theorem test_modexp_zero : let t := run1 (.modexp 3 0 12 10) (start [(0, 2), (12, 3), (3, 9)] [])
    t.val 3 = 9 ∧ faults t = (0x04#32, 2#32, 0x2130CA00#32) := by decide +kernel

/-- Section 2.7: GCD of (17, 3120), (0, 0), (48, 18) over its own source. -/
theorem test_gcd : (run1 (.gcd 1 12 11) (start [(12, 17), (11, 3120)] [])).val 1 = 1 ∧
    (run1 (.gcd 1 12 11) (start [] [])).z = true ∧
    (run1 (.gcd 1 1 2) (start [(1, 48), (2, 18)] [])).val 1 = 6 := by decide +kernel

/-- V-EU-1, V-EU-5, V-EU-7, V-EU-9. -/
theorem test_modinv : (run1 (.modinv 13 12 11) (start [(12, 17), (11, 3120)] [])).val 13 = 2753 ∧
    (run1 (.modinv 13 12 11) (start [(12, 10), (11, 7)] [])).val 13 = 5 ∧
    (run1 (.modinv 13 12 11) (start [(12, 3119), (11, 3120)] [])).val 13 = 3119 ∧
    (run1 (.modinv 13 12 11) (start [(12, 5), (11, 1)] [])).z = true := by decide +kernel

/-- V-EU-11, V-EU-14: NOINV, and MODZERO before it. -/
theorem test_modinv_faults : let t := run1 (.modinv 13 12 11) (start [(11, 7), (13, 77)] [])
    t.val 13 = 77 ∧ faults t = (0x08#32, 3#32, 0x31DC0B00#32) ∧
    (run1 (.modinv 13 12 11) (start [(12, 17)] [])).ecause = 2#32 := by decide +kernel

/-- V-DR-6, V-DR-5: the first word is least significant, the excess bits are dropped. -/
theorem test_randbits :
    let t := run1 (.randbits 1 40) (start [] [0xDEADBEEF#32, 0x12345678#32, 0xFFFFFFFF#32])
    t.val 1 = 0x78DEADBEEF ∧ t.rpos = 2 ∧ t.offered = [0xFFFFFFFF#32] ∧
    (run1 (.randbits 1 33) (start [] [0xDEADBEEF#32, 0x12345678#32])).val 1 = 0x0DEADBEEF := by
  decide +kernel

/-- V-DR-9: BADPARAM before any draw. -/
theorem test_randbits_bad : let t := run1 (.randbits 1 4097) (start [] [1#32])
    faults t = (0x10#32, 4#32, 0x41101001#32) ∧ t.rpos = 0 := by decide +kernel

/-- V-DR-11: one pass rejected. -/
theorem test_randrange : let t := run1 (.randrange 3 1 2) (start [(1, 2), (2, 3119)] [0xFFF#32, 0xF#32])
    t.val 3 = 17 ∧ t.rpos = 2 ∧ t.done = true := by decide +kernel

/-- V-DR-17, V-DR-12: two words a pass; `lo = hi` draws nothing. -/
theorem test_randrange_wide :
    (run1 (.randrange 3 1 2) (start [(2, 2 ^ 32)] [7#32, 3#32, 9#32, 0#32])).val 3 = 9 ∧
    (run1 (.randrange 3 1 1) (start [(1, 7)] [])).val 3 = 7 := by decide +kernel

/-- V-MR-5, V-MR-8: 97 is reported prime, 65 composite after one word. -/
theorem test_mrtest : let t := run1 (.mrtest 1) (start [(1, 97)] [0#32, 0#32, 0#32, 0#32, 0#32])
    t.p = true ∧ t.rpos = 5 ∧ let u := run1 (.mrtest 1) (start [(1, 65)] [0#32])
    u.p = false ∧ u.rpos = 1 ∧ u.done = true := by decide +kernel

/-- V-MR-9b: four lying witnesses, the fifth convicts. -/
theorem test_mrtest_liar : let t := run1 (.mrtest 1) (start [(1, 65)] [6#32, 6#32, 6#32, 6#32, 0#32])
    t.p = false ∧ t.rpos = 5 ∧
    (run1 (.mrtest 1) (start [(1, 65)] [6#32, 6#32, 6#32, 6#32, 6#32])).p = true := by decide +kernel

/-- V-PG-2: a composite candidate, a rejected witness draw, then 47. -/
theorem test_primegen :
    let t := run1 (.primegen 8 6) (start [] [0#32, 0#32, 0x0E#32, 0x2C#32, 0#32, 1#32, 2#32, 3#32, 4#32])
    t.val 8 = 47 ∧ t.p = true ∧ t.rpos = 9 := by decide +kernel

/-- V-PG-9: three composite candidates, then a hold. -/
theorem test_primegen_holds :
    let t := run1 (.primegen 8 6) (start [] [0xFFFFFFFF#32, 0#32, 1#32, 2#32, 3#32, 4#32])
    t.busy = true ∧ t.val 8 = 0 ∧ t.p = false ∧ t.rpos = 6 ∧ t.done = false := by decide +kernel

/-- V-KG-3. -/
theorem test_keygen :
    let t := run1 (.keygen 6) (start [] [0#32, 0#32, 0#32, 0#32, 0#32, 0#32, 2#32, 1#32, 1#32, 1#32, 1#32,
      1#32, 3#32])
    t.val 8 = 5 ∧ t.val 9 = 7 ∧ t.val 10 = 35 ∧ t.val 11 = 24 ∧ t.val 12 = 5 ∧ t.val 13 = 5 ∧ t.p = true ∧
      t.rpos = 13 := by decide +kernel

/-- V-KG-2: `q = p` is drawn once and regenerated without a fault. -/
theorem test_keygen_regenerates :
    let t := run1 (.keygen 13) (start [] [0x3D#32, 0#32, 1#32, 2#32, 3#32, 4#32, 0x3D#32, 5#32, 6#32, 7#32,
      8#32, 9#32, 0x35#32, 0#32, 1#32, 2#32, 3#32, 4#32, 0x00F#32])
    t.val 8 = 61 ∧ t.val 9 = 53 ∧ t.val 13 = 2753 ∧ t.err = 0#32 ∧ t.rpos = 19 := by decide +kernel

/-- The examples of R122: code 72 gives 19. -/
theorem test_enc : (run1 (.enc 3 0 12 10) (start [(0, 72), (12, 7), (10, 143)] [])).val 3 = 19 := by
  decide +kernel

/-- R122: code 143 faults PRECOND, also where the modulus is 0. -/
theorem test_enc_precond : let t := run1 (.enc 3 0 12 10) (start [(0, 143), (12, 7), (10, 143), (3, 5)] [])
    t.val 3 = 5 ∧ faults t = (0x02#32, 1#32, 0x5130CA00#32) ∧
    (run1 (.enc 3 0 12 10) (start [] [])).ecause = 1#32 := by decide +kernel

/-! ### The host window and the step -/

/-- V-EN-8 issued through the window: `STATUS = 0x102` (section 2.1). -/
theorem test_illegal_issue :
    let t := after (step { start [(1, 5)] [] with
      z := true, env := [], phase := .busy 0x12100000#32 5#32, cmd := 0x12100000#32 })
    t.val 1 = 5 ∧ t.statusWord = 0x102#32 ∧ faults t = (0x20#32, 5#32, 0x12100000#32) := by decide +kernel

/-- R41, R44: limb 1 of `B8` is at `0x3004`; limb 127 of `HI` at `0x41FC`. -/
theorem test_window : let s := (start [(8, 7 * 2 ^ 32)] []).hostWrite 0x41FC 9#32
    s.memRead 0x3004 = 7#32 ∧ s.hiVal = 9 * 2 ^ 4064 ∧ s.memRead 0x41FC = 9#32 := by decide +kernel

/-- R47 (a) and (b): misaligned before unmapped, both recorded with the address. -/
theorem test_refused : faults (State.reset.hostRead 0x0002) = (0x40#32, 6#32, 2#32) ∧
    faults (State.reset.hostWrite 0x4200 1#32) = (0x40#32, 6#32, 0x4200#32) ∧
    (State.reset.hostWrite 0x0024 1#32).ecause = 6#32 := by decide +kernel

/-- R26: `CMD` reads back the last accepted word; R27: `ROUNDS` 5 is latched. -/
theorem test_cmd_write : let t := State.reset.hostWrite 0x010 0x01000041#32
    t.phase = .busy 0x01000041#32 5#32 ∧ t.memRead 0x010 = 0x01000041#32 ∧ t.statusWord = 1#32 := by
  decide +kernel

/-- After reset with `W = 64`. -/
def narrow : State := { State.reset with width := ⟨2, by decide, by decide⟩ }

/-- R23, R39, R41 at `W = 64`: `PARAM` shows 0x40, `HI` ends at 0x2087, 0x2088 is unmapped, and an address of 14 bits. -/
theorem test_narrow_window : narrow.memRead 0x004 = 0x20100040#32 ∧ addrBits narrow.width = 14 ∧
    (narrow.hostWrite 0x2084 9#32).hiVal = 9 * 2 ^ 32 ∧ (narrow.hostRead 0x2088).err = 0x40#32 := by decide +kernel

/-- R77, R93 at `W = 64`: the sum wraps at 64 bits, and RANDBITS 65 is BADPARAM. -/
theorem test_narrow_add :
    let t := run1 (.add 3 1 2) ((narrow.setReg 1 (2 ^ 64 - 1)).setReg 2 2)
    t.val 3 = 1 ∧ t.c = true ∧ (run1 (.randbits 1 65) narrow).ecause = 4#32 := by decide +kernel

/-- The placed word runs in the very next step. -/
theorem test_fetch : (after (step (State.reset.withFetchWord 32 0x01000041))).val 0 = 65 := by decide +kernel

/-- A held RANDBITS goes on when the word arrives (R53), and a reset ends it (R153). -/
theorem test_hold :
    let s := { accepted (.randbits 1 40) 5#32 (start [] []) with
      env := [.offer 0xDEADBEEF#32, .turn, .offer 0x78#32, .turn] }
    (match Sys2Proof.core.run 4 s with
      | .next t => decide ((State.val t 1 = 0x78DEADBEEF) ∧ t.rpos = 2 ∧ t.done = true)
      | _ => false) = true := by decide +kernel

/-! ### Witnesses: for each statement with hypotheses, a state and operands that meet them -/

/-- BUSY with MRTEST of 7 and round count 1, one word on offer. -/
def testing : State := accepted (.mrtest 1) 1#32 (start [(1, 7)] [0#32])

theorem witness_StepRunsTheDecodedCommand :
    decode (encode (.mrtest 1)) = .ok (.mrtest 1) ∧ testing.rst = false ∧
    testing.phase = .busy (encode (.mrtest 1)) 1#32 ∧ testing.env = [] ∧
    (∃ rest, ({ testing with env := [.turn] } : State).env = .turn :: rest) ∧
    (∃ v rest, ({ testing with env := [.ackWithTurn 0x7E#32] } : State).env = .ackWithTurn v :: rest) :=
  ⟨by decide +kernel, rfl, rfl, rfl, ⟨_, rfl⟩, _, _, rfl⟩

theorem witness_PlacedWordRunsNext : decode 0x0170FFFF#32 = .ok (.ldi 7 65535) := by decide +kernel

theorem witness_DecodeOfEncode : (Instr.ldi 15 65535).wellFormed = true ∧ (Instr.keygen 0).wellFormed = true ∧
    (Instr.enc 15 15 15 15).wellFormed = true := by decide

theorem witness_EncodeOfDecode : decode 0x51FFFF00#32 = .ok (.enc 15 15 15 15) := by decide +kernel

theorem witness_NoTwoRowsMatchOneWord :
    ∃ r ∈ rows, (0x0170FFFF#32 : W32) &&& r.mask = r.pattern := by decide +kernel

theorem witness_IllegalWordsEndInIllcmd :
    let s : State := { State.reset with phase := .busy 0xFFFFFFFF#32 0#32 }
    s.rst = false ∧ s.phase = .busy 0xFFFFFFFF#32 0#32 ∧ s.env = [] ∧
      ({ s with env := [.turn] } : State).env = .turn :: [] ∧
      ({ s with env := [.ackWithTurn 0x20#32] } : State).env = .ackWithTurn 0x20#32 :: [] ∧
      decode 0xFFFFFFFF#32 = .error .unassignedOp :=
  ⟨rfl, rfl, rfl, rfl, rfl, by decide +kernel⟩

theorem inv_env {s : State} (h : s.Inv) (e : List Event) : ({ s with env := e } : State).Inv := { h with }

theorem testing_inv : testing.Inv where
  regs_fit := by decide +kernel
  hi_fits := by decide +kernel
  busy_not_done := fun _ => rfl
  cmd_is_running := fun w k h => by
    have : Phase.busy (encode (.mrtest 1)) 1#32 = .busy w k := h
    injection this
  idle_no_scratch := fun _ => rfl
  err_reserved := rfl
  ecause_legal := by decide
  no_cause_no_fault := fun _ => ⟨rfl, rfl⟩
  reset_idle := fun h => by cases h

theorem witness_StepKeepsTheInvariant : ∃ t, testing.Inv ∧ step testing = .next t := by
  obtain ⟨t, h⟩ := engineTurn_next testing
  exact ⟨t, testing_inv, h⟩

theorem witness_ResetClearsEverythingButTheStream :
    ({ testing with env := [.rst true, .turn] } : State).env = .rst true :: [.turn] := rfl

theorem witness_HostAccessesAreIgnoredInReset : ∃ s : State, s.rst = true ∧
    (∀ e : Event, ({ s with env := [e] } : State).env = e :: []) ∧ s.env = [] :=
  ⟨{ State.reset with rst := true }, rfl, fun _ => rfl, rfl⟩

/-- For the statements whose hypothesis is a next state of `exec`: `exec` answers one, and with a register that is not a
destination and a flag that is not written. -/
theorem witness_next : (∃ t, exec (.mthi 1) testing = .next t) ∧ (3 : Reg) ∉ (Instr.add 2 1 1).dests ∧
    (Instr.add 2 1 1).writesHi = false ∧ (Instr.mthi 1).writesZ = false ∧ (Instr.mthi 1).writesC = false ∧
    (Instr.mthi 1).writesP = false ∧ (Instr.mthi 1).draws = false ∧ (Instr.mthi 1).neverFaults = true :=
  ⟨exec_next _ _, by decide, rfl, rfl, rfl, rfl, rfl, rfl⟩

/-- A completing command that writes `Z` and `C` from a state with other flags, and one that writes `P`. -/
theorem witness_NoCommandReadsAFlag : (∃ t, exec (.add 2 1 1) testing = .next t) ∧ Completes (.add 2 1 1) testing ∧
    (Instr.add 2 1 1).writesZ = true ∧ (Instr.add 2 1 1).writesC = true ∧ Completes (.mrtest 1) testing ∧
    (Instr.mrtest 1).writesP = true := by
  refine ⟨exec_next _ _, ⟨rfl, _, exec_after _ _, ⟨?_, ?_, ?_⟩, ?_⟩, rfl, rfl, ⟨rfl, _, exec_after _ _, ⟨?_, ?_, ?_⟩, ?_⟩, rfl⟩ <;>
    decide +kernel

theorem witness_FaultsArePrecise :
    (∃ t, testing.phase = .busy (encode (.mrtest 1)) 1#32 ∧ runWord (encode (.mrtest 1)) testing = .next t) ∧
    decode (encode (.mrtest 1)) = .ok (.mrtest 1) ∧ (Instr.mrtest 1).neverFaults = true ∧
    (accepted (.mod 1 2 3) 1#32 testing).phase = .busy (encode (.mod 1 2 3)) 1#32 ∧
    (∃ t, runWord (encode (.mod 1 2 3)) (accepted (.mod 1 2 3) 1#32 testing) = .next t) := by
  obtain ⟨t, h⟩ := runWord_next (encode (.mrtest 1)) testing
  exact ⟨⟨t, rfl, h⟩, by decide +kernel, rfl, rfl, runWord_next _ _⟩

theorem witness_RoundCountIsLatched : ∃ t, testing.busy = true ∧ exec (.mrtest 1) testing = .next t ∧
    t.p = true :=
  ⟨_, rfl, exec_after _ _, by decide +kernel⟩

theorem witness_HoldIsTransparent : ∃ t, testing.busy = true ∧ exec (.randbits 1 40) testing = .next t ∧
    t.busy = true :=
  ⟨_, rfl, exec_after _ _, by decide +kernel⟩

theorem witness_HostAccessesDoNotDisturbACommand : ∃ u, testing.busy = true ∧
    (testing.hostRead 0x018 = testing.hostRead 0x018 ∨
      testing.hostRead 0x018 = testing.hostWrite 0x018 0#32) ∧
    (testing.hostWrite 0x014 9#32 = testing.hostRead 0x014 ∨
      testing.hostWrite 0x014 9#32 = testing.hostWrite 0x014 9#32) ∧
    exec (.mrtest 1) testing = .next u :=
  ⟨_, rfl, .inl rfl, .inr rfl, exec_after _ _⟩

theorem witness_MovesWriteTheirDestination : (65535 : Nat) < 2 ^ 16 := by decide

/-- Registers for the arithmetic statements: `B1 = T`, `B2 = 4`, `B3 = 1`, `B4 = 3233`, `B0 = 0`. -/
def operands : State := start [(1, T), (2, 4), (3, 1), (4, 3233)] []

theorem witness_SubWrapsAndReportsBorrow : operands.val 2 ≤ operands.val 2 ∧ operands.val 0 < operands.val 3 := by
  decide +kernel

theorem witness_ReducersLeaveTheRemainder : operands.val 3 ≠ 0 ∧ operands.val 1 ≠ 0 := by decide +kernel

theorem witness_MulThenModwIsMulmod : (4 : Reg) ≠ 5 ∧ operands.val 4 ≠ 0 := by decide +kernel

theorem witness_MulmodReducesTheFullProduct : operands.val 1 ≠ 0 := by decide +kernel

theorem witness_ModexpIsThePowerModulo : operands.val 3 ≠ 0 ∧ operands.val 4 ≠ 0 := by decide +kernel

theorem witness_ModexpCornerValues :
    (∃ t, exec (.modexp 5 2 0 4) (accepted (.modexp 5 2 0 4) 5#32 operands) = .next t) ∧
    (accepted (.modexp 5 2 0 4) 5#32 operands).phase = .busy (encode (.modexp 5 2 0 4)) 5#32 ∧
    (accepted (.modexp 5 2 0 4) 5#32 operands).val = operands.val ∧ operands.val 3 = 1 ∧ (1 < operands.val 4 ∧ operands.val 0 = 0) ∧
    (operands.val 3 ≠ 0 ∧ operands.val 0 = 0 ∧ operands.val 2 ≠ 0) ∧
    (operands.val 4 ≠ 0 ∧ operands.val 3 = 1) ∧ operands.val 0 = 0 :=
  ⟨exec_next _ _, rfl, accepted_val _ _ _, by decide +kernel⟩

theorem witness_ZeroModulusFaults : testing.phase = .busy (encode (.mrtest 1)) 1#32 ∧ testing.val 10 = 0 ∧
    Instr.mod 4 3 10 ∈ [Instr.mod 4 3 10, .modw 4 3 10, .mulmod 4 3 2 10, .modexp 4 3 2 10,
      .modinv 4 3 10] ∧
    Instr.modinv 4 3 10 ∈ [Instr.mod 4 3 10, .modw 4 3 10, .mulmod 4 3 2 10, .modexp 4 3 2 10,
      .modinv 4 3 10] :=
  ⟨rfl, by decide +kernel, by decide, by decide⟩

theorem witness_ModinvIsTheInverse : (operands.val 3 ≠ 0 ∧ operands.val 3 = 1) ∧
    (operands.val 4 ≠ 0 ∧ Nat.gcd (operands.val 2) (operands.val 4) = 1 ∧ 1 < operands.val 4) := by
  decide +kernel

theorem witness_ModinvWithoutInverseFaults : testing.phase = .busy (encode (.mrtest 1)) 1#32 ∧
    1 < testing.val 1 ∧ Nat.gcd (testing.val 0) (testing.val 1) ≠ 1 :=
  ⟨rfl, by decide +kernel⟩

theorem witness_InverterSequenceMeetsItsDefinition : (1 : Nat) ≤ 1 ∧ modInvSeq 3 1 = some 0 ∧
    modInvSeq 7 120 = some 103 ∧ (103 < 120 ∧ 7 * 103 % 120 = 1 % 120) ∧ modInvSeq 4 6 = none := by decide +kernel

/-- The words on offer are enough for no bit and for `W` bits. -/
theorem witness_RandbitsTakesLowBitsOfItsWords :
    ((0 : Nat) ≤ testing.width.bits ∧ (start [] []).drawn = [] ∧ (0 + 31) / 32 ≤ (start [] []).offered.length) ∧
    (4096 ≤ testing.width.bits ∧ (4096 + 31) / 32 ≤ (start [] (List.replicate 128 5#32)).offered.length) := by
  decide +kernel

theorem witness_RandbitsHoldsForAMissingWord : 4096 ≤ (start [] (List.replicate 127 5#32)).width.bits ∧
    (start [] (List.replicate 127 5#32)).drawn = [] ∧
    (start [] (List.replicate 127 5#32)).offered.length < (4096 + 31) / 32 := by decide +kernel

/-- `lo = hi` draws nothing; a rejected pass leaves no value; an accepted one does. -/
theorem witness_RandrangeRejectsUntilInSpan :
    (operands.val 2 ≤ operands.val 2 ∧ operands.val 3 ≤ operands.val 2 ∧ operands.drawn = []) ∧
    RangeDraw 4 4 [] 4 [] ∧ RangeDraw 2 3119 [0xFFF#32, 0xF#32] 17 [] ∧
    (∀ v rest, ¬ RangeDraw 10 12 [3#32, 3#32] v rest) := by
  refine ⟨by decide +kernel, drawRange_iff.1 (by decide +kernel), drawRange_iff.1 (by decide +kernel), ?_⟩
  intro v rest h
  have e : drawRange 10 12 [3#32, 3#32] = none := by decide +kernel
  rw [drawRange_iff.2 h] at e
  cases e

theorem witness_MrtestRunsItsRounds :
    (testing.phase = .busy (encode (.mrtest 1)) 1#32 ∧ testing.drawn = []) ∧
    Verdict 7 1 [0#32] true [] ∧ Verdict 9 1 [0#32] false [] ∧ Verdict 9 0 [] true [] ∧
    (∀ v rest, ¬ Verdict 7 1 [] v rest) := by
  refine ⟨⟨rfl, rfl⟩, millerRabin_iff.1 (by decide +kernel), millerRabin_iff.1 (by decide +kernel),
    millerRabin_iff.1 (by decide +kernel), ?_⟩
  intro v rest h
  have e : millerRabin 7 1 [] = none := by decide +kernel
  rw [millerRabin_iff.2 h] at e
  cases e

theorem witness_MrtestFastPathsTakeNoWord : operands.val 2 ≤ 4 ∧ (start [(1, 6)] []).val 1 % 2 = 0 := by
  decide +kernel

theorem seven_prime : (testing.val 1).Prime := by
  have e : testing.val 1 = 7 := by decide +kernel
  rw [e]; norm_num

theorem witness_PrimesAreNeverReportedComposite : ∃ t, testing.busy = true ∧ (testing.val 1).Prime ∧
    exec (.mrtest 1) testing = .next t ∧ t.busy = false :=
  ⟨_, rfl, seven_prime, exec_after _ _, by decide +kernel⟩

theorem witness_RequiredVerdicts : ∃ t u, testing.phase = .busy (encode (.mrtest 1)) 1#32 ∧ 1 ≤ (1#32).toNat ∧
    exec (.mrtest 1) testing = .next t ∧ t.busy = false ∧ testing.val 1 ∈ [2, 3, 5, 7, 11, 97, 7919] ∧
    exec (.mrtest 0) testing = .next u ∧ u.busy = false ∧ testing.val 0 ∈ [4, 9, 100, 7920, 1, 0] :=
  ⟨_, _, rfl, by decide, exec_after _ _, by decide +kernel, by decide +kernel, exec_after _ _,
    by decide +kernel, by decide +kernel⟩

theorem witness_PrimegenReturnsThePassingCandidate :
    (testing.phase = .busy (encode (.mrtest 1)) 1#32 ∧ testing.drawn = [] ∧ 2 ≤ 2 ∧ 4096 ≤ testing.width.bits) ∧
    PrimeRun 2 5 [0xABCDEF00#32] 3 [] ∧
    PrimeRun 6 5 [0#32, 0#32, 0x0E#32, 0x2C#32, 0#32, 1#32, 2#32, 3#32, 4#32] 47 [] ∧
    (∀ c rest, ¬ PrimeRun 6 5 [0xFFFFFFFF#32, 0#32, 1#32, 2#32, 3#32, 4#32] c rest) := by
  refine ⟨⟨rfl, rfl, by decide, by decide +kernel⟩, (primeGen_iff (by decide)).1 (by decide +kernel),
    (primeGen_iff (by decide)).1 (by decide +kernel), ?_⟩
  intro c rest h
  have e : primeGen 6 5 [0xFFFFFFFF#32, 0#32, 1#32, 2#32, 3#32, 4#32] = none := by decide +kernel
  rw [(primeGen_iff (by decide)).2 h] at e
  cases e

theorem witness_PrimegenResultIsOddOfExactLength : ∃ t, testing.busy = true ∧ 2 ≤ 2 ∧ 2 ≤ testing.width.bits ∧
    exec (.primegen 8 2) testing = .next t ∧ t.busy = false :=
  ⟨_, rfl, by decide, by decide +kernel, exec_after _ _, by decide +kernel⟩

theorem witness_BadParametersFaultBeforeAnyDraw : testing.phase = .busy (encode (.mrtest 1)) 1#32 ∧
    testing.width.bits < 4097 ∧ testing.val 0 < testing.val 1 ∧ (1 < 2 ∨ testing.width.bits < 1) ∧
    (5 / 2 < 3 ∨ testing.width.bits < 2 * (5 / 2)) ∧ (4098 / 2 < 3 ∨ testing.width.bits < 2 * (4098 / 2)) :=
  ⟨rfl, by decide +kernel⟩

/-- The words of V-KG-3. -/
def keyWords : List Rnd :=
  [0#32, 0#32, 0#32, 0#32, 0#32, 0#32, 2#32, 1#32, 1#32, 1#32, 1#32, 1#32, 3#32]

/-- BUSY with KEYGEN 6 and round count 5, the words of V-KG-3 on offer. -/
def generating : State := accepted (.keygen 6) 5#32 (start [] keyWords)

theorem witness_KeygenRunsItsSteps :
    (generating.phase = .busy (encode (.keygen 6)) 5#32 ∧ generating.drawn = [] ∧ 3 ≤ 6 / 2 ∧
      2 * (6 / 2) ≤ generating.width.bits ∧ 2 * (4097 / 2) ≤ generating.width.bits) ∧
    (∃ p q e rest, KeyRun (6 / 2) (5#32).toNat generating.offered p q e rest) ∧
    (∀ p q e rest, ¬ KeyRun (6 / 2) 5 [] p q e rest) := by
  refine ⟨⟨rfl, rfl, by decide, by decide +kernel, by decide +kernel⟩, ?_, ?_⟩
  · have e : keyGen 3 5 keyWords = some (keysOf 5 7 5, []) := by decide +kernel
    obtain ⟨p, q, x, r, -⟩ := (keyGen_iff (by decide)).1 e
    exact ⟨p, q, x, _, r⟩
  · intro p q e rest h
    have n : keyGen 3 5 [] = none := by decide +kernel
    rw [(keyGen_iff (by decide)).2 ⟨p, q, e, h, rfl⟩] at n
    cases n

theorem witness_KeygenKeysAreConsistent : ∃ t, generating.busy = true ∧ 3 ≤ 6 / 2 ∧
    2 * (6 / 2) ≤ generating.width.bits ∧ exec (.keygen 6) generating = .next t ∧ t.busy = false :=
  ⟨_, rfl, by decide, by decide +kernel, exec_after _ _, by decide +kernel⟩

theorem witness_EncIsThePowerOfTheCode : (start [(0, 142), (10, 143)] []).val 0 <
    (start [(0, 142), (10, 143)] []).val 10 := by decide +kernel

theorem witness_EncOfALargeCodeFaults : testing.phase = .busy (encode (.mrtest 1)) 1#32 ∧
    testing.val 1 ≤ testing.val 1 ∧ testing.val 10 ≤ testing.val 0 :=
  ⟨rfl, by decide +kernel⟩

theorem witness_EncThenDecReturnsTheCode :
    let s := start [(0, 34), (10, 35), (12, 5), (13, 5)] []
    let t := after (exec (.enc 3 0 12 10) s)
    Nat.Prime 5 ∧ Nat.Prime 7 ∧ 5 ≠ 7 ∧ s.val 10 = 5 * 7 ∧ s.val 12 * s.val 13 % ((5 - 1) * (7 - 1)) = 1 ∧
      s.val 0 < s.val 10 ∧ (3 : Reg) ≠ 10 ∧ (3 : Reg) ≠ 13 ∧ t.val 3 = t.val 3 ∧ t.val 13 = s.val 13 ∧
      t.val 10 = s.val 10 :=
  ⟨by norm_num, by norm_num, by decide, by decide +kernel, by decide +kernel, by decide +kernel, by decide,
    by decide, rfl, by decide +kernel, by decide +kernel⟩

/-- Boundary addresses of every clause, and their neighbours outside it, in a busy state with an access next. -/
theorem witness_RefusedAccessesRecordAccess : testing.rst = false ∧ testing.busy = true ∧
    addrBits testing.width = 15 ∧ 0x2000 + 17 * testing.width.stride = 0x4200 ∧
    0x4201 % 4 ≠ 0 ∧ (0x24 ≤ 0x0024 ∧ 0x0024 < 0x2000) ∧ (0x24 ≤ 0x1FFC ∧ 0x1FFC < 0x2000) ∧
    (0x4200 ≤ 0x7FFF ∧ 0x7FFF < 2 ^ 15) ∧ (0x2000 ≤ 0x2000 ∧ 0x41FC < 0x4200) ∧
    testing.refuses false 0x0020 = false ∧ testing.refuses false 0x0010 = false ∧
    State.reset.refuses true 0x2000 = false ∧ State.reset.refuses true 0x41FC = false ∧
    ({ testing with env := [.hostRead 0x4201] } : State).env = .hostRead 0x4201 :: [] ∧
    ({ testing with env := [.hostWrite 0x0010 1#32] } : State).env = .hostWrite 0x0010 1#32 :: [] := by
  decide +kernel

theorem witness_ControlRegistersReadAsSpecified : testing.rst = false ∧
    ({ testing with env := [.hostRead 0x020] } : State).env = .hostRead 0x020 :: [] := ⟨rfl, rfl⟩

theorem witness_ControlRegisterWritesDoWhatTheirAccessSays : testing.rst = false ∧
    ({ testing with env := [.hostWrite 0x020 2#32] } : State).Inv ∧
    ({ testing with env := [.hostWrite 0x020 2#32] } : State).env = .hostWrite 0x020 2#32 :: [] ∧
    (0x020 : Nat) ∈ [0x000, 0x004, 0x01C, 0x020] ∧ (0x2#32 : W32).getLsbD 1 = true ∧
    (0xFFFFFFFD#32 : W32).getLsbD 1 = false :=
  ⟨rfl, inv_env testing_inv _, rfl, by decide, by decide, by decide⟩

theorem witness_CmdWriteIssuesTheCommand :
    let s : State := { State.reset with env := [.hostWrite 0x010 0xFFFFFFFF#32] }
    s.rst = false ∧ s.phase = .idle ∧ s.drawn = [] ∧ s.env = .hostWrite 0x010 0xFFFFFFFF#32 :: [] :=
  ⟨rfl, rfl, rfl, rfl⟩

/-- Shared by the statements about limbs: the first and the last limb, at `W = 4096` and at `W = 64`. -/
theorem witness_LimbAccesses : State.reset.rst = false ∧ State.reset.phase = .idle ∧
    (0 < State.reset.width.nlimb ∧ 127 < State.reset.width.nlimb) ∧
    (narrow.rst = false ∧ narrow.phase = .idle ∧ 1 < narrow.width.nlimb) ∧
    ({ narrow with env := [.hostRead (0x2000 + 15 * narrow.width.stride + 4 * 1)] } : State).env =
      .hostRead 0x207C :: [] := by decide +kernel

theorem witness_SetbLoadsTheWholeRegister : ∃ rest : List Event,
    let s : State := { State.reset with env := setBScript State.reset.width 15 (2 ^ 128 - 1) ++ rest }
    s.rst = false ∧ s.phase = .idle ∧ 2 ^ 128 - 1 < 2 ^ s.width.bits ∧ s.env = setBScript s.width 15 (2 ^ 128 - 1) ++ rest :=
  ⟨[], rfl, rfl, by decide +kernel, rfl⟩

theorem witness_WindowFrameOfCommands : ∃ t, testing.busy = true ∧ testing.rst = false ∧
    exec (.mov 2 1) testing = .next t ∧ t.busy = false ∧ 127 < testing.width.nlimb ∧
    (15 : Reg) ∉ (Instr.mov 2 1).dests ∧ (Instr.mov 2 1).writesHi = false :=
  ⟨_, rfl, rfl, exec_after _ _, by decide +kernel, by decide +kernel, by decide, rfl⟩

theorem witness_InterruptFollowsDoneAndEnable : ∃ t, testing.busy = true ∧ exec (.mrtest 1) testing = .next t ∧
    t.busy = false ∧ (2#32 : W32).getLsbD 1 = true ∧ testing.rst = false ∧ (0#32 : W32).getLsbD 0 = false :=
  ⟨_, rfl, exec_after _ _, by decide +kernel, by decide, rfl, by decide⟩

/-- A faulting command and an acknowledgement of the same bit. -/
theorem witness_FaultWinsOverSameStepAcknowledge :
    let s : State := { State.reset with
      phase := .busy 0xFFFFFFFF#32 5#32, err := 0x7E#32, env := [.ackWithTurn 0x7E#32] }
    s.rst = false ∧ s.phase = .busy 0xFFFFFFFF#32 5#32 ∧ s.env = .ackWithTurn 0x7E#32 :: [] ∧
    (∃ u, runWord 0xFFFFFFFF#32 { s with env := [], err := 0#32 } = .next u) ∧
    (1 ≤ 1 ∧ 1 ≤ 6) ∧ 6 ≤ 6 :=
  ⟨rfl, rfl, rfl, runWord_next _ _, by decide, by decide⟩

end Sys2Proof.Tests
end

section
/-! Proofs of the statements about refused accesses and limb reads (spec/20_memory.md rules R42, R44, R46, R47). -/

namespace Sys2Proof.Machine

/-! ### The step of a refused access (R47, R143) -/

/-- Every address of the port is what the port's lines carry of it, mapped or not (R39). -/
theorem State.portAddr_of_lt_two_pow (s : State) {a : Nat} (h : a < 2 ^ addrBits s.width) : s.portAddr a = a :=
  Nat.mod_eq_of_lt h

/-- A write of `CMD` is refused while BUSY (R47 (c)). -/
theorem State.refuses_cmd_of_busy {s : State} (h : s.busy = true) : s.refuses true 0x10 = true := by
  have cmd_at : locate s.width 0x10 = some (.ctrl .cmd) := rfl
  simp [State.refuses, cmd_at, h, Loc.closedWhileBusy]

theorem step_hostRead_refused {s : State} {a : Nat} {rest : List Event} (hr : s.rst = false)
    (ha : a < 2 ^ addrBits s.width) (h : s.refuses false a = true) (e : s.env = .hostRead a :: rest) :
    step s = .next { s with err := s.err ||| 0x40#32, ecause := 6#32, einfo := BitVec.ofNat 32 a,
                            rdata := 0#32, env := rest } := by
  have port : ({ s with env := rest } : State).portAddr a = a := State.portAddr_of_lt_two_pow _ ha
  simp only [step, e, perform, port]
  exact congrArg Host.Outcome.next (hostRead_refused (s := { s with env := rest }) hr h)

theorem step_hostWrite_refused {s : State} {a : Nat} {v : W32} {rest : List Event} (hr : s.rst = false)
    (ha : a < 2 ^ addrBits s.width) (h : s.refuses true a = true) (e : s.env = .hostWrite a v :: rest) :
    step s = .next { s with err := s.err ||| 0x40#32, ecause := 6#32, einfo := BitVec.ofNat 32 a,
                            env := rest } := by
  have port : ({ s with env := rest } : State).portAddr a = a := State.portAddr_of_lt_two_pow _ ha
  simp only [step, e, perform, port]
  exact congrArg Host.Outcome.next (hostWrite_refused (s := { s with env := rest }) hr h)

/-- Settles O51: each listed access is refused, and the step of a refused access is `State.refuse`. -/
theorem refusedAccessesRecordAccess : Obligations.RefusedAccessesRecordAccess := by
  intro s a v rest hr ha
  refine ⟨fun h e => step_hostRead_refused hr ha (refuses_of h) e, fun h e => ?_⟩
  refine step_hostWrite_refused hr ha ?_ e
  rcases h with misaligned | low | high | ⟨busy, rfl | limb⟩
  · exact refuses_of (.inl misaligned)
  · exact refuses_of (.inr (.inl low))
  · exact refuses_of (.inr (.inr (.inl high)))
  · exact State.refuses_cmd_of_busy busy
  · exact refuses_of (.inr (.inr (.inr ⟨busy, limb⟩)))

/-! ### The step of a limb read (R42, R44) -/

/-- The step of a read of limb `j` of the register at index `i ≤ 16` while IDLE, for `B` and `HI` alike. -/
theorem step_hostRead_limb {s : State} {i j : Nat} {r : WideReg} {rest : List Event} (hr : s.rst = false)
    (hp : s.phase = .idle) (hi : i ≤ 16) (hj : j < s.width.nlimb)
    (hl : locate s.width (0x2000 + i * s.width.stride + 4 * j) = some (.limb r j))
    (e : s.env = .hostRead (0x2000 + i * s.width.stride + 4 * j) :: rest) :
    step s = .next { s with rdata := getLimb (s.wide r) j, env := rest } := by
  have idle : ({ s with env := rest } : State).busy = false := (State.busy_eq_false_iff _).2 hp
  have wide_env : ({ s with env := rest } : State).wide r = s.wide r := by cases r <;> rfl
  rw [step_hostRead (limb_lt _ hi hj) e, ← wide_env]
  exact congrArg Host.Outcome.next
    (hostRead_limb (s := { s with env := rest }) hr idle _ r j hl (limb_aligned _ i j))

/-- Settles O55, by the map's entry for `B[i]` and for `HI`. -/
theorem limbReadsReturnTheirBits : Obligations.LimbReadsReturnTheirBits := by
  intro s i j rest hr hp hj
  exact ⟨step_hostRead_limb hr hp i.isLt.le hj (locate_limb_b _ i hj),
    step_hostRead_limb hr hp le_rfl hj (locate_limb_hi _ hj)⟩

end Sys2Proof.Machine
end

section
/-! Proofs of the statements about the moves, the adder, the comparator and the multiplier (spec/40_bigint.md rules R72
to R80). -/

namespace Sys2Proof.Machine

/-! ### A command that draws no word and cannot fault -/

/-- Without a fault and without a draw, a command completes with its write, and its frame is that of the write (R9, R15,
R70). -/
theorem exec_noDraw {i : Instr} {s : State} {f : State → State} (hc : checkOf i s = none)
    (hw : workOf i s = noDraw f) :
    exec i s = .next (f s).finish ∧ SameRegsBut s (f s).finish i.dests ∧ SameWords s (f s).finish ∧
      Completed s (f s).finish := by
  have w : Writes i f := workOf_writes (s := s) (ws := []) (rest := []) (by rw [hw]; rfl)
  have step : exec i s = .next (f s).finish := by rw [exec_eq, hc, hw]; exact drawThen_noDraw s f
  obtain ⟨rpos, offered⟩ := w.words s
  exact ⟨step, fun r hr => w.regs s r hr, ⟨rpos, offered⟩, State.finish_completed (w.control s) (w.faults s)⟩

/-! ### A write of a value that fits -/

/-- A register written with a value below `2^W` holds that value (R8). -/
theorem State.val_setReg_self {s : State} {r : Reg} {v : Nat} (h : v < 2 ^ s.width.bits) :
    (s.setReg r v).val r = v := by
  rw [State.val_setReg, if_pos rfl, Nat.mod_eq_of_lt h]

/-- `HI` written with a value below `2^W` holds that value (R8). -/
theorem State.hiVal_setHi_of_lt {s : State} {v : Nat} (h : v < 2 ^ s.width.bits) : (s.setHi v).hiVal = v := by
  rw [State.hiVal_setHi, Nat.mod_eq_of_lt h]

/-! ### The flag computations (R18) -/

theorem zeroFlag_iff (v : Nat) : zeroFlag v = true ↔ v = 0 := beq_iff_eq

/-- `Z` of a value that fits is `Z` of the register it is written to. -/
theorem State.zeroFlag_iff_val_setReg {s : State} {r : Reg} {v : Nat} (h : v < 2 ^ s.width.bits) :
    zeroFlag v = true ↔ (s.setReg r v).val r = 0 := by
  rw [State.val_setReg_self h, zeroFlag_iff]

theorem carryFlag_iff (w : Config.Width) (sum : Nat) : carryFlag w sum = true ↔ 2 ^ w.bits ≤ sum := by
  rw [carryFlag, bne_iff_ne, Nat.div_ne_zero_iff]
  exact and_iff_right (Nat.two_pow_pos _).ne'

theorem wideFlag_iff (w : Config.Width) (product : Nat) :
    wideFlag w product = true ↔ product / 2 ^ w.bits ≠ 0 := bne_iff_ne

theorem equalFlag_iff (a b : Nat) : equalFlag a b = true ↔ a = b := beq_iff_eq

theorem lessFlag_iff (a b : Nat) : lessFlag a b = true ↔ a < b := decide_eq_true_iff

/-! ### The results of the adder and the multiplier (R77, R78, R80) -/

theorem addResult_lt (w : Config.Width) (a b : Nat) : addResult w a b < 2 ^ w.bits := Nat.mod_lt _ (Nat.two_pow_pos _)

theorem subResult_of_le {w : Config.Width} {a b : Nat} (h : b ≤ a) : subResult w a b = a - b := if_pos h

theorem subResult_of_lt {w : Config.Width} {a b : Nat} (h : a < b) : subResult w a b = a + 2 ^ w.bits - b :=
  if_neg (Nat.not_le_of_lt h)

/-- The difference of two register values fits in a register, borrow or not. -/
theorem subResult_lt {w : Config.Width} {a b : Nat} (ha : a < 2 ^ w.bits) : subResult w a b < 2 ^ w.bits := by
  rcases le_or_gt b a with h | h
  · rw [subResult_of_le h]; omega
  · rw [subResult_of_lt h]; omega

/-- The upper half of the product of two registers fits in `HI`. -/
theorem State.val_mul_val_div_lt (s : State) (ra rb : Reg) :
    s.val ra * s.val rb / 2 ^ s.width.bits < 2 ^ s.width.bits :=
  Nat.div_lt_of_lt_mul (Nat.mul_lt_mul'' (s.val_lt ra) (s.val_lt rb))

/-! ### The statements

The completed state is the write followed by flag writes and `State.finish`, which leave the registers and `HI` alone by
definition: what is proved of the write alone (`written`, `lower`, `upper`) is what the statement says of that state. -/

/-- Settles O25: the two halves of the product fit in `HI` and in the destination, so nothing of it is lost. -/
theorem mulIsExactOverTwoRegisters : Obligations.MulIsExactOverTwoRegisters := by
  intro s rd ra rb
  obtain ⟨step, regs, words, done⟩ := exec_noDraw (i := .mul rd ra rb) (s := s) rfl rfl
  have lower : (s.setReg rd (s.val ra * s.val rb % 2 ^ s.width.bits)).val rd =
      s.val ra * s.val rb % 2 ^ s.width.bits := State.val_setReg_self (Nat.mod_lt _ (Nat.two_pow_pos _))
  have upper : (s.setHi (s.val ra * s.val rb / 2 ^ s.width.bits)).hiVal =
      s.val ra * s.val rb / 2 ^ s.width.bits := State.hiVal_setHi_of_lt (s.val_mul_val_div_lt ra rb)
  have halves : (s.setHi (s.val ra * s.val rb / 2 ^ s.width.bits)).hiVal * 2 ^ s.width.bits +
      (s.setReg rd (s.val ra * s.val rb % 2 ^ s.width.bits)).val rd = s.val ra * s.val rb := by
    rw [upper, lower, Nat.div_add_mod']
  have wide : wideFlag s.width (s.val ra * s.val rb) = true ↔
      (s.setHi (s.val ra * s.val rb / 2 ^ s.width.bits)).hiVal ≠ 0 := by
    rw [upper, wideFlag_iff]
  exact ⟨rfl, _, step, halves, zeroFlag_iff _, wide, rfl, regs, words, done⟩

/-- Settles O21: each move is at most one write, of a value that fits. -/
theorem movesWriteTheirDestination : Obligations.MovesWriteTheirDestination := by
  intro s rd ra imm16 himm
  refine ⟨⟨rfl, ?_⟩, ⟨rfl, ?_⟩, ⟨rfl, ?_⟩, ⟨rfl, ?_⟩, ⟨rfl, ?_⟩⟩
  · obtain ⟨step, regs, words, done⟩ := exec_noDraw (i := .nop) (s := s) rfl rfl
    exact ⟨_, step, regs, rfl, ⟨rfl, rfl, rfl⟩, words, done⟩
  · obtain ⟨step, regs, words, done⟩ := exec_noDraw (i := .ldi rd imm16) (s := s) rfl rfl
    exact ⟨_, step, State.val_setReg_self (imm_lt himm _), regs, rfl, ⟨rfl, rfl, rfl⟩, words, done⟩
  · obtain ⟨step, regs, words, done⟩ := exec_noDraw (i := .mov rd ra) (s := s) rfl rfl
    exact ⟨_, step, State.val_setReg_self (s.val_lt ra), regs, rfl, ⟨rfl, rfl, rfl⟩, words, done⟩
  · obtain ⟨step, regs, words, done⟩ := exec_noDraw (i := .mfhi rd) (s := s) rfl rfl
    exact ⟨_, step, State.val_setReg_self s.hiVal_lt, regs, rfl, ⟨rfl, rfl, rfl⟩, words, done⟩
  · obtain ⟨step, regs, words, done⟩ := exec_noDraw (i := .mthi ra) (s := s) rfl rfl
    exact ⟨_, step, State.hiVal_setHi_of_lt (s.val_lt ra), regs, ⟨rfl, rfl, rfl⟩, words, done⟩

/-- Settles O22: the sum is reduced before it is written, so the destination shows it whole. -/
theorem addWrapsAndReportsCarry : Obligations.AddWrapsAndReportsCarry := by
  intro s rd ra rb
  obtain ⟨step, regs, words, done⟩ := exec_noDraw (i := .add rd ra rb) (s := s) rfl rfl
  have fits := addResult_lt s.width (s.val ra) (s.val rb)
  have written := State.val_setReg_self (r := rd) fits
  have zero := State.zeroFlag_iff_val_setReg (r := rd) fits
  exact ⟨rfl, _, step, written, carryFlag_iff _ _, zero, rfl, rfl, regs, words, done⟩

/-- Settles O23, by cases on the borrow; either way the result is below `2^W` and is written whole. -/
theorem subWrapsAndReportsBorrow : Obligations.SubWrapsAndReportsBorrow := by
  intro s rd ra rb
  obtain ⟨step, regs, words, done⟩ := exec_noDraw (i := .sub rd ra rb) (s := s) rfl rfl
  have fits := subResult_lt (b := s.val rb) (s.val_lt ra)
  have written := State.val_setReg_self (r := rd) fits
  have zero := State.zeroFlag_iff_val_setReg (r := rd) fits
  have borrow (h : s.val ra < s.val rb) : (s.setReg rd (subResult s.width (s.val ra) (s.val rb))).val rd + s.val rb =
      s.val ra + 2 ^ s.width.bits := by
    rw [written, subResult_of_lt h]
    exact Nat.sub_add_cancel ((s.val_lt rb).le.trans (Nat.le_add_left _ _))
  exact ⟨rfl, _, step, fun h => ⟨written.trans (subResult_of_le h), decide_eq_false (Nat.not_lt.2 h)⟩,
    fun h => ⟨borrow h, decide_eq_true h⟩, zero, rfl, rfl, regs, words, done⟩

/-- Settles O24: the two flags are the two comparisons, and equal numbers are not less. -/
theorem cmpOrdersUnsigned : Obligations.CmpOrdersUnsigned := by
  intro s ra rb
  obtain ⟨step, regs, words, done⟩ := exec_noDraw (i := .cmp ra rb) (s := s) rfl rfl
  have equal := equalFlag_iff (s.val ra) (s.val rb)
  have less := lessFlag_iff (s.val ra) (s.val rb)
  exact ⟨rfl, _, step, equal, less, fun ⟨z, c⟩ => (less.1 c).ne (equal.1 z), rfl, rfl, regs, words, done⟩

end Sys2Proof.Machine
end

section
/-! Proofs of the statements about MODEXP (spec/41_modexp.md rules R85 and R88). -/

namespace Sys2Proof.Machine

/-! ### What MODEXP answers (R85, R88, R89) -/

/-- With a modulus that is not 0, MODEXP completes with the power modulo it as its one result. -/
theorem exec_modexp_of_ne_zero {s : State} {rc : Reg} (rd ra rb : Reg) (h : s.val rc ≠ 0) :
    exec (.modexp rd ra rb rc) s = .next (s.result rd (s.val ra ^ s.val rb % s.val rc)).finish := by
  rw [← modExp_eq (Nat.pos_of_ne_zero h)]
  exact (exec_noDraw (i := .modexp rd ra rb rc) (if_neg h) rfl).1

/-- With modulus 0, MODEXP raises MODZERO. -/
theorem exec_modexp_of_eq_zero {s : State} {rc : Reg} (rd ra rb : Reg) (h : s.val rc = 0) :
    exec (.modexp rd ra rb rc) s = .next (s.raise .modzero) :=
  exec_fault (i := .modexp rd ra rb rc) (if_pos h)

/-- A number reduced by a register that is not 0 fits in a register. -/
theorem State.mod_val_lt_two_pow {s : State} {r : Reg} (h : s.val r ≠ 0) (n : Nat) :
    n % s.val r < 2 ^ s.width.bits :=
  (Nat.mod_lt n (Nat.pos_of_ne_zero h)).trans (s.val_lt r)

/-- What MODEXP leaves in its destination when the modulus is not 0. -/
theorem val_of_exec_modexp {s t : State} {rd ra rb rc : Reg} (h : s.val rc ≠ 0)
    (step : exec (.modexp rd ra rb rc) s = .next t) : t.val rd = s.val ra ^ s.val rb % s.val rc := by
  cases (exec_modexp_of_ne_zero rd ra rb h).symm.trans step
  exact (s.result_finish rd (State.mod_val_lt_two_pow h _)).1

/-! ### The statements -/

/-- Settles O29: the loop computes the power (`modExp_eq`), which fits in the destination once reduced. -/
theorem modexpIsThePowerModulo : Obligations.ModexpIsThePowerModulo := by
  refine ⟨fun b e m hm => ⟨modExp_eq hm b e, ?_⟩, fun s rd ra rb rc hc => ?_⟩
  · rw [modExp_eq hm]
    exact Nat.mod_lt _ hm
  · obtain ⟨written, frame⟩ := s.result_finish rd (State.mod_val_lt_two_pow hc (s.val ra ^ s.val rb))
    have below : s.val ra ^ s.val rb % s.val rc < s.val rc := Nat.mod_lt _ (Nat.pos_of_ne_zero hc)
    exact ⟨_, exec_modexp_of_ne_zero rd ra rb hc, written, written.trans_lt below, frame⟩

/-- Settles O30: each value is the power modulo `m` at a corner of base, exponent or modulus; modulus 0 raises MODZERO
with the accepted word. -/
theorem modexpCornerValues : Obligations.ModexpCornerValues := by
  intro s t w k rd ra rb rc busy step
  have value (hc : s.val rc ≠ 0) : t.val rd = s.val ra ^ s.val rb % s.val rc := val_of_exec_modexp hc step
  refine ⟨fun modulus => ?_, fun modulus exponent => ?_, fun modulus base exponent => ?_, fun modulus base => ?_,
    fun modulus exponent => ?_, fun modulus => ?_⟩
  · rw [value (by omega), modulus, Nat.mod_one]
  · rw [value (by omega), exponent, pow_zero, Nat.mod_eq_of_lt modulus]
  · rw [value modulus, base, zero_pow exponent, Nat.zero_mod]
  · rw [value modulus, base, one_pow]
  · rw [value modulus, exponent, pow_one]
  · cases (exec_modexp_of_eq_zero rd ra rb modulus).symm.trans step
    rw [← State.acceptedCmd_of_busy busy]
    exact s.raise_faultedWith .modzero

end Sys2Proof.Machine
end

section
/-! Proofs of the statements about RANDBITS, RANDRANGE and the required verdicts of MRTEST (spec/42_primality.md rules
R91 to R101). -/

namespace Sys2Proof.Machine

/-! ### A newly accepted command that draws (R52, R53, R70) -/

/-- A command that has taken no word yet has the words on offer on hand. -/
theorem State.onHand_of_drawn_eq_nil {s : State} (h : s.drawn = []) : s.onHand = s.offered := by
  rw [State.onHand, h, List.nil_append]

/-- Consuming words writes no control and no fault register (R33, R70). -/
theorem Completed.of_consume {s t : State} {rest : List Rnd} (h : Completed (s.consume rest) t) : Completed s t :=
  ⟨h.ended, { h.control with }, { h.faults with }⟩

/-- Where the words on offer are enough for its draw, a command that passes its check completes with its write, having
taken exactly the words drawn; its frame is that of the write. -/
theorem exec_of_draw_some {i : Instr} {s : State} {f : State → State} {rest : List Rnd}
    (hc : checkOf i s = none) (hd : s.drawn = []) (hw : workOf i s s.offered = some (f, rest)) :
    exec i s = .next (f (s.consume rest)).finish ∧ SameRegsBut s (f (s.consume rest)).finish i.dests ∧
      TookUpTo s (f (s.consume rest)).finish rest ∧ Completed s (f (s.consume rest)).finish := by
  have w : Writes i f := workOf_writes hw
  obtain ⟨used, front, -⟩ := workOf_local hc _ _ _ hw
  obtain ⟨left, counted⟩ : TookUpTo s (s.consume rest) rest := State.consume_tookUpTo front
  obtain ⟨rpos, offered⟩ := w.words (s.consume rest)
  refine ⟨exec_done hc ?_, w.regs (s.consume rest), ⟨offered.trans left, ?_⟩,
    (State.finish_completed (w.control _) (w.faults _)).of_consume⟩
  · rwa [State.onHand_of_drawn_eq_nil hd]
  · rw [State.finish_rpos, rpos, counted]

/-- Where they are not enough, it holds. -/
theorem exec_of_draw_none {i : Instr} {s : State} (hc : checkOf i s = none) (hd : s.drawn = [])
    (hw : workOf i s s.offered = none) : exec i s = .next s.hold :=
  exec_hold hc (by rwa [State.onHand_of_drawn_eq_nil hd])

/-- A command that draws its one result, below `2^W`, and writes it to its destination (R18, R91, R92). -/
theorem exec_drawn_result {i : Instr} {s : State} {rd : Reg} {d : Draw Nat} {v : Nat} {rest : List Rnd}
    (hc : checkOf i s = none) (hd : s.drawn = []) (dests : i.dests = [rd])
    (work : workOf i s = Draw.map (fun r t => t.result rd r) d) (hw : d s.offered = some (v, rest))
    (fits : v < 2 ^ s.width.bits) :
    ∃ t, exec i s = .next t ∧ t.val rd = v ∧ (t.z = true ↔ v = 0) ∧ t.c = s.c ∧ t.p = s.p ∧ t.hi = s.hi ∧
      SameRegsBut s t [rd] ∧ TookUpTo s t rest ∧ Completed s t := by
  have drawn : workOf i s s.offered = some (fun t => t.result rd v, rest) := by rw [work, Draw.map, hw]
  obtain ⟨step, regs, took, done⟩ := exec_of_draw_some hc hd drawn
  exact ⟨_, step, State.val_setReg_self (s := s.consume rest) fits, zeroFlag_iff v, rfl, rfl, rfl, dests ▸ regs, took,
    done⟩

/-! ### The draws -/

/-- Bit `j` of a `DrawBits`, read in all the words on hand: the words after its group play no part (R91). -/
theorem testBit_wordsValue_take_mod (ws : List Rnd) (bits j : Nat) :
    (wordsValue (ws.take (wordCount bits)) % 2 ^ bits).testBit j =
      (decide (j < bits) && (ws.getD (j / 32) 0#32).getLsbD (j % 32)) := by
  rw [Nat.testBit_mod_two_pow, testBit_wordsValue]
  by_cases h : j < bits
  · have inGroup : j / 32 < wordCount bits := by unfold wordCount; omega
    rw [List.getD_eq_getElem?_getD, List.getElem?_take_of_lt inGroup, ← List.getD_eq_getElem?_getD]
  · simp [h]

/-- With enough words `DrawBits` answers (R91). -/
theorem drawBits_of_le_length {bits : Nat} {ws : List Rnd} (h : wordCount bits ≤ ws.length) :
    drawBits bits ws = some (wordsValue (ws.take (wordCount bits)) % 2 ^ bits, ws.drop (wordCount bits)) :=
  if_neg (Nat.not_lt.2 h)

/-- Where the words hold no accepted pass, `DrawRange` asks for another word (R53, R92). -/
theorem drawRange_eq_none {lo hi : Nat} {ws : List Rnd} (h : ∀ v rest, ¬ RangeDraw lo hi ws v rest) :
    drawRange lo hi ws = none :=
  Option.eq_none_iff_forall_ne_some.2 fun _ e => h _ _ (drawRange_iff.1 e)

/-! ### RANDBITS and RANDRANGE -/

/-- Settles O36: the value is the front words' number modulo `2^bits`, which fits in a register. -/
theorem randbitsTakesLowBitsOfItsWords : Obligations.RandbitsTakesLowBitsOfItsWords := by
  intro s rd bits legal fresh enough
  have fits : wordsValue (s.offered.take (wordCount bits)) % 2 ^ bits < 2 ^ s.width.bits :=
    (Nat.mod_lt _ (Nat.two_pow_pos _)).trans_le (Nat.pow_le_pow_right (by decide) legal)
  obtain ⟨t, step, written, zero, frame⟩ := exec_drawn_result (i := .randbits rd bits) (if_neg (Nat.not_lt.2 legal))
    fresh rfl rfl (drawBits_of_le_length enough) fits
  refine ⟨t, step, fun j => ?_, ?_, frame⟩
  · rw [written, testBit_wordsValue_take_mod]
  · rw [written, zero]

/-- Settles O38: the machine's draw is the relation, both ways (`drawRange_iff`), and a value in `[lo, hi]` fits in a
register. -/
theorem randrangeRejectsUntilInSpan : Obligations.RandrangeRejectsUntilInSpan := by
  intro s rd ra rb legal fresh
  have passes : checkOf (.randrange rd ra rb) s = none := if_neg (Nat.not_lt.2 legal)
  refine ⟨fun v rest draw => ?_, fun noPass => ⟨_, exec_of_draw_none passes fresh ?_, s.hold_held⟩⟩
  · obtain ⟨low, high⟩ := draw.mem legal
    obtain ⟨t, step, written, frame⟩ := exec_drawn_result (i := .randrange rd ra rb) passes fresh rfl rfl
      (drawRange_iff.2 draw) (high.trans_lt (s.val_lt rb))
    exact ⟨t, step, written, low, high, frame⟩
  · exact Draw.map_none.2 (drawRange_eq_none noPass)

/-! ### Primes pass every round (R97, R98) -/

/-- A `2^s`-fold square root of 1 is 1 or one of its repeated squares is −1: 1 has no other square root. -/
theorem eq_one_or_exists_pow_two_pow_eq_neg_one {R : Type*} [CommRing R] [NoZeroDivisors R] {x : R} :
    ∀ {s : Nat}, x ^ 2 ^ s = 1 → x = 1 ∨ ∃ r < s, x ^ 2 ^ r = -1
  | 0, h => .inl (by simpa using h)
  | s + 1, h => by
    rw [pow_succ, pow_mul, sq_eq_one_iff] at h
    rcases h with one | neg
    · rcases eq_one_or_exists_pow_two_pow_eq_neg_one one with e | ⟨r, lt, e⟩
      · exact .inl e
      · exact .inr ⟨r, lt.trans s.lt_succ_self, e⟩
    · exact .inr ⟨s, s.lt_succ_self, neg⟩

/-- A residue is `n − 1` exactly where the number is −1 modulo `n`. -/
theorem mod_eq_pred_iff {n : Nat} (pos : 0 < n) (x : Nat) : x % n = n - 1 ↔ (x : ZMod n) = -1 := by
  have pred : ((n - 1 : Nat) : ZMod n) = -1 := by rw [Nat.cast_pred pos, ZMod.natCast_self, zero_sub]
  rw [← pred, ZMod.natCast_eq_natCast_iff', Nat.mod_eq_of_lt (Nat.sub_lt pos Nat.one_pos)]

/-- A round on a prime passes with every witness below it (R98): by Fermat `a^(n−1)` is 1, so `a^d` is a `2^s`-fold
square root of 1. -/
theorem RoundPasses.of_prime {n a : Nat} (hp : n.Prime) (pos : 0 < a) (lt : a < n) : RoundPasses n a := by
  have := Fact.mk hp
  obtain ⟨odd, factored⟩ := factorPred_spec hp.two_le
  have unit : (a : ZMod n) ≠ 0 := fun h => Nat.not_dvd_of_pos_of_lt pos lt ((ZMod.natCast_eq_zero_iff _ _).1 h)
  have root : ((a : ZMod n) ^ (factorPred n).2) ^ 2 ^ (factorPred n).1 = 1 := by
    rw [← pow_mul, mul_comm, ← factored]
    exact ZMod.pow_card_sub_one_eq_one unit
  refine ⟨_, _, factored, odd, ?_⟩
  rcases eq_one_or_exists_pow_two_pow_eq_neg_one root with one | ⟨r, hr, neg⟩
  · refine .inl ?_
    rw [← Nat.mod_eq_of_lt hp.one_lt, ← ZMod.natCast_eq_natCast_iff']
    exact_mod_cast one
  · refine .inr ⟨r, hr, (mod_eq_pred_iff hp.pos _).2 ?_⟩
    rw [mul_comm, pow_mul]
    exact_mod_cast neg

/-- Rounds that no witness of the range fails end in 1 (R97). -/
theorem RoundsRun.eq_true {n k : Nat} {ws rest : List Rnd} {v : Bool} (h : RoundsRun n k ws v rest) (h4 : 4 ≤ n)
    (pass : ∀ a, 2 ≤ a → a ≤ n - 2 → RoundPasses n a) : v = true := by
  induction h with
  | none => rfl
  | pass _ _ _ ih => exact ih
  | fail d no =>
    obtain ⟨low, high⟩ := d.mem (by omega)
    exact absurd (pass _ low high) no

/-- Rounds that no witness of the range passes end in 0, once there is one (R97). -/
theorem RoundsRun.eq_false {n k : Nat} {ws rest : List Rnd} {v : Bool} (h : RoundsRun n k ws v rest) (h4 : 4 ≤ n)
    (hk : 1 ≤ k) (fail : ∀ a, 2 ≤ a → a ≤ n - 2 → ¬ RoundPasses n a) : v = false := by
  cases h with
  | none => omega
  | pass d ok =>
    obtain ⟨low, high⟩ := d.mem (by omega)
    exact absurd ok (fail _ low high)
  | fail => rfl

/-- The tester's verdict on a prime is 1, whatever the words and the round count (R98). -/
theorem Verdict.eq_true_of_prime {n k : Nat} {ws rest : List Rnd} {v : Bool} (h : Verdict n k ws v rest)
    (hp : n.Prime) : v = true := by
  cases h with
  | small h =>
    rcases h with le | rfl
    · exact absurd hp.one_lt (Nat.not_lt.2 le)
    · exact absurd hp (by decide)
  | prime => rfl
  | even gt e => exact absurd (hp.eq_two_or_odd.resolve_left gt.ne') (by omega)
  | rounds h5 _ r => exact r.eq_true (by omega) fun a low high => .of_prime hp (by omega) (by omega)

/-- The tester's verdict on an even number that is not 2 is 0 (R95). -/
theorem Verdict.eq_false_of_even {n k : Nat} {ws rest : List Rnd} {v : Bool} (h : Verdict n k ws v rest)
    (e : n % 2 = 0) (ne : n ≠ 2) : v = false := by
  cases h with
  | small | even => rfl
  | prime | rounds => omega

/-- The tester's verdict on 1 is 0 (R95). -/
theorem Verdict.eq_false_of_one {k : Nat} {ws rest : List Rnd} {v : Bool} (h : Verdict 1 k ws v rest) :
    v = false := by
  cases h with
  | small => rfl
  | prime | even | rounds => omega

/-- No witness in `[2, 7]` passes a round on 9. -/
theorem not_roundPasses_nine {a : Nat} (low : 2 ≤ a) (high : a ≤ 7) : ¬ RoundPasses 9 a := by
  rw [← roundPasses_iff (by decide) (by decide)]
  interval_cases a <;> decide

/-- With a round at least, the tester's verdict on 9 is 0: there is no liar to draw. -/
theorem Verdict.eq_false_of_nine {k : Nat} {ws rest : List Rnd} {v : Bool} (h : Verdict 9 k ws v rest)
    (hk : 1 ≤ k) : v = false := by
  cases h with
  | small | even => rfl
  | prime => omega
  | rounds _ _ r => exact r.eq_false (by decide) hk fun a => not_roundPasses_nine

/-! ### What a finished MRTEST says (R99) -/

/-- When MRTEST ends, `P` is a verdict of the tester with the latched round count, over the words on hand. -/
theorem verdict_of_exec_mrtest {s t : State} {w k : W32} {ra : Reg} (busy : s.phase = .busy w k)
    (step : exec (.mrtest ra) s = .next t) (ended : t.busy = false) :
    ∃ rest, Verdict (s.val ra) k.toNat s.onHand t.p rest := by
  rcases exec_cases step with ⟨c, check, -⟩ | ⟨f, rest, -, work, rfl⟩ | ⟨-, -, rfl⟩
  · cases check
  · obtain ⟨v, drawn, rfl⟩ := Draw.map_some work
    rw [State.latchedRounds_of_busy busy] at drawn
    exact ⟨rest, millerRabin_iff.1 drawn⟩
  · rw [State.busy_hold, State.busy_eq_false_iff, busy] at ended
    cases ended

/-- Settles O42: the listed primes by R98, the listed composites and 0 as even numbers, 9 by its witnesses. -/
theorem requiredVerdicts : Obligations.RequiredVerdicts := by
  intro s t w k ra busy hk step ended
  obtain ⟨rest, verdict⟩ := verdict_of_exec_mrtest busy step ended
  generalize s.val ra = n at verdict ⊢
  constructor
  · intro listed
    refine verdict.eq_true_of_prime ?_
    simp only [List.mem_cons, List.not_mem_nil, or_false] at listed
    rcases listed with rfl | rfl | rfl | rfl | rfl | rfl | rfl <;> norm_num
  · intro listed
    simp only [List.mem_cons, List.not_mem_nil, or_false] at listed
    rcases listed with rfl | rfl | rfl | rfl | rfl | rfl
    · exact verdict.eq_false_of_even rfl (by decide)
    · exact verdict.eq_false_of_nine hk
    · exact verdict.eq_false_of_even rfl (by decide)
    · exact verdict.eq_false_of_even rfl (by decide)
    · exact verdict.eq_false_of_one
    · exact verdict.eq_false_of_even rfl (by decide)

end Sys2Proof.Machine
end

section
/-! Proofs of the statements about GCD and about MODINV without an inverse (spec/44_euclid.md rules R107, R108, R112 and
R113). -/

namespace Sys2Proof.Machine

/-! ### The greatest common divisor of two registers (R107) -/

/-- The greatest common divisor of two registers fits in a register, also where one of them or both are 0. -/
theorem State.gcd_val_lt_two_pow (s : State) (ra rb : Reg) :
    Nat.gcd (s.val ra) (s.val rb) < 2 ^ s.width.bits := by
  rcases Nat.eq_zero_or_pos (s.val ra) with zero | pos
  · rw [zero, Nat.gcd_zero_left]
    exact s.val_lt rb
  · exact (Nat.gcd_le_left _ pos).trans_lt (s.val_lt ra)

/-- GCD completes with the greatest common divisor as its one result (R108). -/
theorem exec_gcd (s : State) (rd ra rb : Reg) :
    exec (.gcd rd ra rb) s = .next (s.result rd (Nat.gcd (s.val ra) (s.val rb))).finish := by
  rw [← gcdOf_eq]
  exact (exec_noDraw (i := .gcd rd ra rb) rfl rfl).1

/-! ### MODINV without an inverse (R112, R113) -/

/-- Above modulus 1, an argument that shares a factor with the modulus fails the check of MODINV. -/
theorem checkOf_modinv_of_gcd_ne_one {s : State} {ra rc : Reg} (rd : Reg) (modulus : 1 < s.val rc)
    (shared : Nat.gcd (s.val ra) (s.val rc) ≠ 1) : checkOf (.modinv rd ra rc) s = some .noinv := by
  rw [← gcdOf_eq] at shared
  rw [checkOf, if_neg (Nat.ne_zero_of_lt modulus), if_neg modulus.ne', if_pos shared]

/-! ### The statements -/

/-- Settles O32: Euclid's loop is `Nat.gcd` (`gcdOf_eq`), which fits in the destination and is 0 only for two zeros. -/
theorem gcdIsTheGreatestCommonDivisor : Obligations.GcdIsTheGreatestCommonDivisor := by
  refine ⟨gcdOf_eq, fun s rd ra rb => ⟨rfl, _, exec_gcd s rd ra rb, ?_⟩⟩
  obtain ⟨written, zero, frame⟩ := s.result_finish rd (s.gcd_val_lt_two_pow ra rb)
  rw [written, Nat.gcd_eq_zero_iff] at zero
  exact ⟨written, zero, frame⟩

/-- Settles O34: the check raises NOINV, whose fault entry records the accepted word. -/
theorem modinvWithoutInverseFaults : Obligations.ModinvWithoutInverseFaults := by
  intro s w k rd ra rc busy modulus shared
  refine ⟨_, exec_fault (checkOf_modinv_of_gcd_ne_one rd modulus shared), ?_⟩
  rw [← State.acceptedCmd_of_busy busy]
  exact s.raise_faultedWith .noinv

end Sys2Proof.Machine
end

section
/-! Proofs of the statements about faults and the interrupt (spec/60_exceptions.md rules R132 to R145). -/

namespace Sys2Proof.Machine

/-! ### The fault of a running command (R132, R133) -/

/-- Fault entry while a word runs: `EINFO` is that word (R133). -/
theorem State.raise_faultedWith_of_busy {s : State} {w k : W32} (busy : s.phase = .busy w k) (c : Cause) :
    FaultedWith s (s.raise c) c.code w := by
  rw [← State.acceptedCmd_of_busy busy]
  exact s.raise_faultedWith c

/-- A running command that fails its check ends in the fault of the check. -/
theorem exec_faultedWith {i : Instr} {s : State} {w k : W32} {c : Cause} (busy : s.phase = .busy w k)
    (check : checkOf i s = some c) : ∃ t, exec i s = .next t ∧ FaultedWith s t c.code w :=
  ⟨_, exec_fault check, State.raise_faultedWith_of_busy busy c⟩

/-- No command raises ACCESS, the cause of a refused host access (R132, R143). -/
theorem checkOf_ne_access (i : Instr) (s : State) : checkOf i s ≠ some .access := by
  cases i
  case modinv =>
    simp only [checkOf]
    split_ifs <;> simp
  all_goals simp [checkOf]

/-- The cause of a command fault is one of the codes 1 to 5 (R132). -/
theorem Cause.code_le_five {c : Cause} (h : c ≠ .access) : c.code ≤ 5 := by
  cases c
  case access => exact absurd rfl h
  all_goals decide

/-- The commands that R132 does not name have no check to fail. -/
theorem checkOf_of_neverFaults {i : Instr} (h : i.neverFaults = true) (s : State) : checkOf i s = none := by
  cases i
  case nop | ldi | mov | mfhi | mthi | add | sub | cmp | mul | gcd | mrtest => rfl
  all_goals cases h

/-- A command that passes its check, whether it completes or holds, leaves the fault registers alone (R53, R70). -/
theorem sameFaults_of_exec {i : Instr} {s t : State} (check : checkOf i s = none) (step : exec i s = .next t) :
    SameFaults s t := by
  rcases exec_cases step with ⟨c, failed, -⟩ | ⟨f, rest, -, work, rfl⟩ | ⟨-, -, rfl⟩
  · cases check.symm.trans failed
  · exact { (workOf_writes work).faults (s.consume rest) with }
  · exact ⟨rfl, rfl, rfl⟩

/-- Settles O16, by what the word is and, for a legal one, by its check: a fault is `State.raise`, with the cause of the
check or ILLCMD; without one the fault registers are kept. -/
theorem faultsArePrecise : Obligations.FaultsArePrecise := by
  intro s t w k busy run
  rcases runWord_cases run with ⟨i, legal, step⟩ | ⟨⟨why, illegal⟩, rfl⟩
  · refine ⟨?_, fun j decoded never => ?_⟩
    · cases check : checkOf i s with
      | none => exact .inl (sameFaults_of_exec check step)
      | some c =>
        obtain ⟨u, raised, faulted⟩ := exec_faultedWith busy check
        cases raised.symm.trans step
        have command : c ≠ .access := fun e => checkOf_ne_access i s (e ▸ check)
        exact .inr ⟨c.code, c.code_le.1, Cause.code_le_five command, faulted⟩
    · cases legal.symm.trans decoded
      exact sameFaults_of_exec (checkOf_of_neverFaults never s) step
  · refine ⟨.inr ⟨5, by decide, by decide, State.raise_faultedWith_of_busy busy .illcmd⟩, fun j decoded _ => ?_⟩
    cases illegal.symm.trans decoded

/-! ### The causes MODZERO, BADPARAM and PRECOND (R138, R139, R141) -/

/-- Settles O31: each of the five commands tests its modulus first. -/
theorem zeroModulusFaults : Obligations.ZeroModulusFaults := by
  intro s w k rd ra rb rc i busy zero listed
  refine exec_faultedWith (c := .modzero) busy ?_
  simp only [List.mem_cons, List.not_mem_nil, or_false] at listed
  rcases listed with rfl | rfl | rfl | rfl | rfl <;> exact if_pos zero

/-- Settles O45: the range of the parameter is the command's check, which comes before its draw. -/
theorem badParametersFaultBeforeAnyDraw : Obligations.BadParametersFaultBeforeAnyDraw := by
  intro s w k rd ra rb bits busy
  have faults {i : Instr} (bad : checkOf i s = some .badparam) : ∃ t, exec i s = .next t ∧ FaultedWith s t 4 w :=
    exec_faultedWith busy bad
  exact ⟨fun bad => faults (if_pos bad), fun bad => faults (if_pos bad), fun bad => faults (if_pos bad),
    fun bad => faults (if_pos bad)⟩

/-- Settles O49: the comparison of the code with the modulus is ENC's check, which every code fails at modulus 0. -/
theorem encOfALargeCodeFaults : Obligations.EncOfALargeCodeFaults :=
  fun _ _ _ _ _ _ _ busy large => exec_faultedWith (c := .precond) busy (if_pos large)

/-! ### The interrupt (R145) -/

/-- The completion step raises `irq` exactly where it is enabled. -/
@[simp] theorem State.irq_finish (s : State) : s.finish.irq = s.ie := Bool.and_true s.ie

/-- When a command ends, completed or faulted, `irq` is `IE`: no command writes `CTRL`. -/
theorem irq_of_exec_of_ended {i : Instr} {s t : State} (busy : s.busy = true) (step : exec i s = .next t)
    (ended : t.busy = false) : t.irq = s.ie := by
  rcases exec_cases step with ⟨c, -, rfl⟩ | ⟨f, rest, -, work, rfl⟩ | ⟨-, -, rfl⟩
  · exact State.irq_finish _
  · rw [State.irq_finish, ((workOf_writes work).control _).ie, State.consume_ie]
  · rw [State.busy_hold, busy] at ended
    cases ended

/-- A write of `STATUS` that clears `DONE` drops `irq`, also while BUSY (R25). -/
theorem irq_hostWrite_status {s : State} {v : W32} (hr : s.rst = false) (clears : v.getLsbD 1 = true) :
    (s.hostWrite 0x00C v).irq = false := by
  rw [hostWrite_ctrl hr 0x00C v .status rfl rfl (.inl (by decide))]
  simp [State.ctrlWrite, State.irq, clears]

/-- A write of `CTRL` takes effect on `irq` at once, also while BUSY (R24). -/
theorem irq_hostWrite_ctrl {s : State} (hr : s.rst = false) (v : W32) :
    (s.hostWrite 0x008 v).irq = (v.getLsbD 0 && s.done) := by
  rw [hostWrite_ctrl hr 0x008 v .ctrl rfl rfl (.inl (by decide))]
  rfl

/-- Settles O59: acceptance clears `DONE`, reset clears `IE` and `DONE`, and a refusal writes neither. -/
theorem interruptFollowsDoneAndEnable : Obligations.InterruptFollowsDoneAndEnable := by
  intro s
  exact ⟨rfl, fun _ _ => irq_of_exec_of_ended, fun _ => Bool.and_false s.ie, fun _ => irq_hostWrite_status,
    fun v hr => irq_hostWrite_ctrl hr v, rfl, fun _ => rfl⟩

end Sys2Proof.Machine
end

section
/-! Proof of the statement about reset (spec/70_reset_and_hazards.md rules R151 to R154). -/

namespace Sys2Proof.Machine

/-- The step in which `rst` is raised is the reset itself, whatever the phase (R151, R153). -/
theorem step_rst_true {s : State} {rest : List Event} (e : s.env = .rst true :: rest) :
    step s = .next (({ s with env := rest } : State).setRst true) := by
  simp only [step, e, perform]

/-- Reset clears every register, for every `W` (R35). -/
@[simp] theorem State.val_setRst_true (s : State) (r : Reg) : (s.setRst true).val r = 0 := by
  have cleared : (s.setRst true).b[r.val] = 0 := Vector.getElem_replicate r.isLt
  rw [State.val, cleared, Nat.zero_mod]

/-- `STATUS` reads 0 after reset: the phase is IDLE, and `DONE` and the flags are clear (R25, R35). -/
@[simp] theorem State.statusWord_setRst_true (s : State) : (s.setRst true).statusWord = 0#32 := by
  change bitAt false 0 ||| bitAt false 1 ||| bitAt false 8 ||| bitAt false 9 ||| bitAt false 10 = 0#32
  decide

/-- `irq` is low after reset, which clears `IE` and `DONE` (R145). -/
@[simp] theorem State.irq_setRst_true (s : State) : (s.setRst true).irq = false := rfl

/-- Settles O11: the step is `State.setRst true`, whose other fields are those of `State.reset` (R35) or, for the random
stream and the model's inputs, those of the state before (R154). -/
theorem resetClearsEverythingButTheStream : Obligations.ResetClearsEverythingButTheStream := by
  intro s rest e
  exact ⟨_, step_rst_true e, State.val_setRst_true _, rfl, rfl, rfl, rfl, rfl, rfl, rfl, rfl, rfl, rfl, rfl, rfl,
    State.statusWord_setRst_true _, State.irq_setRst_true _, rfl, rfl, rfl, rfl, rfl⟩

end Sys2Proof.Machine
end

section
/-! Proofs of the statements about command words and the opcode map (spec/30_encoding.md rules R58 to R66). -/

namespace Sys2Proof

/-! ### The row of a word (R61, R65) -/

/-- A word hits at most one row: the rows it hits share its `op`, which no two rows share. -/
theorem rows_eq_of_hits {r r' : Row} {w : W32} (h : r ∈ rows) (h' : r' ∈ rows) (hit : r.hits w = true)
    (hit' : r'.hits w = true) : r = r' :=
  rows_op_inj h h' ((opField_of_hits h hit).symm.trans (opField_of_hits h' hit'))

theorem Row.hits_iff (r : Row) (w : W32) : r.hits w = true ↔ w &&& r.mask = r.pattern := beq_iff_eq

/-- A word that hits a row decodes to the row's command. -/
theorem decode_of_hits {r : Row} {w : W32} (h : r ∈ rows) (hit : r.hits w = true) : decode w = .ok (r.build w) := by
  unfold decode
  split
  · rename_i r' first
    have hit' : r'.hits w = true := List.find?_some (p := fun r : Row => r.hits w) first
    rw [rows_eq_of_hits (List.mem_of_find?_eq_some first) h hit' hit]
  · rename_i none_hit
    exact absurd hit (List.find?_eq_none.1 none_hit r h)

/-- A word decodes to an error exactly where it hits no row. -/
theorem decode_error_iff (w : W32) : (∃ why, decode w = .error why) ↔ ∀ r ∈ rows, w &&& r.mask ≠ r.pattern := by
  constructor
  · rintro ⟨why, illegal⟩ r h hit
    cases (decode_of_hits h ((r.hits_iff w).2 hit)).symm.trans illegal
  · intro no_row
    cases decoded : decode w with
    | error why => exact ⟨why, rfl⟩
    | ok i =>
      obtain ⟨r, h, hit, -⟩ := decode_ok decoded
      exact absurd ((r.hits_iff w).1 hit) (no_row r h)

/-! ### From the command to its word and back -/

/-- Every well-formed command's word hits a row that reads the command back: the family OpcodeRow, all of it. -/
theorem row_of_wellFormed : ∀ i : Instr, Laws.OpcodeRow.Statement i
  | .nop => Laws.OpcodeRow.nop
  | .ldi rd imm16 => Laws.OpcodeRow.ldi rd imm16
  | .mov rd ra => Laws.OpcodeRow.mov rd ra
  | .mfhi rd => Laws.OpcodeRow.mfhi rd
  | .mthi ra => Laws.OpcodeRow.mthi ra
  | .add rd ra rb => Laws.OpcodeRow.add rd ra rb
  | .sub rd ra rb => Laws.OpcodeRow.sub rd ra rb
  | .cmp ra rb => Laws.OpcodeRow.cmp ra rb
  | .mul rd ra rb => Laws.OpcodeRow.mul rd ra rb
  | .mod rd ra rc => Laws.OpcodeRow.mod rd ra rc
  | .modw rd ra rc => Laws.OpcodeRow.modw rd ra rc
  | .mulmod rd ra rb rc => Laws.OpcodeRow.mulmod rd ra rb rc
  | .modexp rd ra rb rc => Laws.OpcodeRow.modexp rd ra rb rc
  | .gcd rd ra rb => Laws.OpcodeRow.gcd rd ra rb
  | .modinv rd ra rc => Laws.OpcodeRow.modinv rd ra rc
  | .mrtest ra => Laws.OpcodeRow.mrtest ra
  | .randbits rd imm16 => Laws.OpcodeRow.randbits rd imm16
  | .randrange rd ra rb => Laws.OpcodeRow.randrange rd ra rb
  | .primegen rd imm16 => Laws.OpcodeRow.primegen rd imm16
  | .keygen imm16 => Laws.OpcodeRow.keygen imm16
  | .enc rd ra rb rc => Laws.OpcodeRow.enc rd ra rb rc

theorem decode_encode {i : Instr} (h : i.wellFormed = true) : decode (encode i) = .ok i := by
  obtain ⟨r, mem, hit, built⟩ := row_of_wellFormed i h
  rw [decode_of_hits mem hit, built]

/-- Settles O4: the command's word hits a row that reads it back, and no other row. -/
theorem decodeOfEncode : Obligations.DecodeOfEncode := fun _ => decode_encode

/-! ### From the word to its command and back -/

/-- A 16-bit field is an unsigned number below 65536 (R60). -/
theorem immFits_immField (w : W32) : immFits (immField w) = true := decide_eq_true (BitVec.isLt _)

/-- A field that the mask covers and that is 0 in the pattern is 0 in a word that matches (R62). -/
theorem field_zero_of_mask {w m p : W32} (hit : w &&& m = p) {a n : Nat}
    (covered : m.extractLsb' a n = BitVec.allOnes n) (zero : p.extractLsb' a n = 0#n) : w.extractLsb' a n = 0#n :=
  (field_of_mask hit a covered).trans zero

/-- A word is the format R word of its operands (R58). -/
theorem formatR_of_operands {w : W32} {op : BitVec 8} {d a b c : Reg} (hop : opField w = op) (hd : rdField w = d)
    (ha : raField w = a) (hb : rbField w = b) (hc : rcField w = c) (zero : w.extractLsb' 0 8 = 0#8) :
    formatR op d a b c = w := by
  rw [← hop, ← hd, ← ha, ← hb, ← hc, formatR_fields zero]

/-- A word is the format I word of its operands (R59). -/
theorem formatI_of_operands {w : W32} {op : BitVec 8} {d : Reg} (hop : opField w = op) (hd : rdField w = d)
    (zero : w.extractLsb' 16 4 = 0#4) : formatI op d (immField w) = w := by
  rw [← hop, ← hd, formatI_fields zero]

/-- The command of a row that a word hits is well-formed, and its word is that word: each field of the word is an
operand, or is covered by the row's mask and 0 in its pattern. -/
theorem encode_build_of_hits {r : Row} {w : W32} (h : r ∈ rows) (hit : r.hits w = true) :
    (r.build w).wellFormed = true ∧ encode (r.build w) = w := by
  have op := opField_of_hits h hit
  rw [Row.hits_iff] at hit
  have rd := fun covered zero => rdField_zero (field_zero_of_mask hit covered zero)
  have ra := fun covered zero => raField_zero (field_zero_of_mask hit covered zero)
  have rb := fun covered zero => rbField_zero (field_zero_of_mask hit covered zero)
  have rc := fun covered zero => rcField_zero (field_zero_of_mask hit covered zero)
  have low := fun covered zero => field_zero_of_mask (a := 0) (n := 8) hit covered zero
  have gap := fun covered zero => field_zero_of_mask (a := 16) (n := 4) hit covered zero
  have fits := immFits_immField w
  simp only [rows, moveRows, arithRows, modularRows, macroRows, List.cons_append, List.nil_append,
    List.mem_cons, List.not_mem_nil, or_false] at h
  rcases h with rfl | rfl | rfl | rfl | rfl | rfl | rfl | rfl | rfl | rfl | rfl | rfl | rfl | rfl | rfl | rfl | rfl |
    rfl | rfl | rfl | rfl
  · exact ⟨rfl, formatR_of_operands op (rd rfl rfl) (ra rfl rfl) (rb rfl rfl) (rc rfl rfl) (low rfl rfl)⟩
  · exact ⟨fits, formatI_of_operands op rfl (gap rfl rfl)⟩
  · exact ⟨rfl, formatR_of_operands op rfl rfl (rb rfl rfl) (rc rfl rfl) (low rfl rfl)⟩
  · exact ⟨rfl, formatR_of_operands op rfl (ra rfl rfl) (rb rfl rfl) (rc rfl rfl) (low rfl rfl)⟩
  · exact ⟨rfl, formatR_of_operands op (rd rfl rfl) rfl (rb rfl rfl) (rc rfl rfl) (low rfl rfl)⟩
  · exact ⟨rfl, formatR_of_operands op rfl rfl rfl (rc rfl rfl) (low rfl rfl)⟩
  · exact ⟨rfl, formatR_of_operands op rfl rfl rfl (rc rfl rfl) (low rfl rfl)⟩
  · exact ⟨rfl, formatR_of_operands op (rd rfl rfl) rfl rfl (rc rfl rfl) (low rfl rfl)⟩
  · exact ⟨rfl, formatR_of_operands op rfl rfl rfl (rc rfl rfl) (low rfl rfl)⟩
  · exact ⟨rfl, formatR_of_operands op rfl rfl (rb rfl rfl) rfl (low rfl rfl)⟩
  · exact ⟨rfl, formatR_of_operands op rfl rfl (rb rfl rfl) rfl (low rfl rfl)⟩
  · exact ⟨rfl, formatR_of_operands op rfl rfl rfl rfl (low rfl rfl)⟩
  · exact ⟨rfl, formatR_of_operands op rfl rfl rfl rfl (low rfl rfl)⟩
  · exact ⟨rfl, formatR_of_operands op rfl rfl rfl (rc rfl rfl) (low rfl rfl)⟩
  · exact ⟨rfl, formatR_of_operands op rfl rfl (rb rfl rfl) rfl (low rfl rfl)⟩
  · exact ⟨rfl, formatR_of_operands op (rd rfl rfl) rfl (rb rfl rfl) (rc rfl rfl) (low rfl rfl)⟩
  · exact ⟨fits, formatI_of_operands op rfl (gap rfl rfl)⟩
  · exact ⟨rfl, formatR_of_operands op rfl rfl rfl (rc rfl rfl) (low rfl rfl)⟩
  · exact ⟨fits, formatI_of_operands op rfl (gap rfl rfl)⟩
  · exact ⟨fits, formatI_of_operands op (rd rfl rfl) (gap rfl rfl)⟩
  · exact ⟨rfl, formatR_of_operands op rfl rfl rfl rfl (low rfl rfl)⟩

/-- Settles O5: a decoded command is read by a row that the word hits. -/
theorem encodeOfDecode : Obligations.EncodeOfDecode := by
  intro w i decoded
  obtain ⟨r, mem, hit, rfl⟩ := decode_ok decoded
  exact encode_build_of_hits mem hit

/-- Settles O6: the two rows are one. -/
theorem noTwoRowsMatchOneWord : Obligations.NoTwoRowsMatchOneWord := by
  intro w r r' mem mem' hit hit'
  rw [rows_eq_of_hits mem mem' ((r.hits_iff w).2 hit) ((r'.hits_iff w).2 hit')]

/-- A word that encodes a well-formed command decodes to it. -/
theorem decode_of_encode_eq {w : W32} {i : Instr} (word : encode i = w) (h : i.wellFormed = true) : decode w = .ok i :=
  word ▸ decode_encode h

/-- Settles O3: each word is the encoding of its line's command. -/
theorem exampleWordsDecode : Obligations.ExampleWordsDecode :=
  ⟨decode_of_encode_eq rfl rfl, decode_of_encode_eq rfl rfl, decode_of_encode_eq rfl rfl, decode_of_encode_eq rfl rfl,
    decode_of_encode_eq rfl rfl, decode_of_encode_eq rfl rfl, decode_of_encode_eq rfl rfl, decode_of_encode_eq rfl rfl,
    decode_of_encode_eq rfl rfl, decode_of_encode_eq rfl rfl, decode_of_encode_eq rfl rfl, decode_of_encode_eq rfl rfl,
    decode_of_encode_eq rfl rfl⟩

end Sys2Proof
end

section
/-! Proofs of the statements about one step of the engine (spec/30_encoding.md rule R70, spec/60_exceptions.md rule
R142) and about the totality of `step`. -/

namespace Sys2Proof.Machine

/-! ### The engine's step while BUSY (R70) -/

theorem engineTurn_of_busy {s : State} {w k : W32} (hr : s.rst = false) (busy : s.phase = .busy w k) :
    engineTurn s = runWord w s := by
  simp [engineTurn, hr, busy]

theorem step_of_env_nil {s : State} (e : s.env = []) : step s = engineTurn s := by
  simp only [step, e]

/-- A step with an event left performs it in the state with the event taken off. -/
theorem step_of_env_cons {s : State} {event : Event} {rest : List Event} (e : s.env = event :: rest) :
    step s = perform event { s with env := rest } := by
  simp only [step, e]

/-- With no event left the engine's step runs the accepted word. -/
theorem step_runs_word {s : State} {w k : W32} (hr : s.rst = false) (busy : s.phase = .busy w k) (e : s.env = []) :
    step s = runWord w s :=
  (step_of_env_nil e).trans (engineTurn_of_busy hr busy)

/-- A turn runs the accepted word in the state with the event taken off. -/
theorem step_turn_runs_word {s : State} {w k : W32} {rest : List Event} (hr : s.rst = false)
    (busy : s.phase = .busy w k) (e : s.env = .turn :: rest) : step s = runWord w { s with env := rest } :=
  (step_of_env_cons e).trans (engineTurn_of_busy (s := { s with env := rest }) hr busy)

/-- In the step of an acknowledgement the accepted word runs with the bits of `ERR` cleared first (R28). -/
theorem step_ackWithTurn_runs_word {s : State} {w k v : W32} {rest : List Event} (hr : s.rst = false)
    (busy : s.phase = .busy w k) (e : s.env = .ackWithTurn v :: rest) :
    step s = runWord w { s.clearErr v with env := rest } := by
  have low : ¬ ({ s with env := rest } : State).rst = true := by simp [hr]
  rw [step_of_env_cons e, perform, ackTurn, if_neg low]
  exact engineTurn_of_busy (s := { s.clearErr v with env := rest }) hr busy

theorem runWord_of_decode {w : W32} {i : Instr} (legal : decode w = .ok i) (s : State) : runWord w s = exec i s := by
  rw [runWord, legal]

/-- An illegal word ends in the fault ILLCMD with the word in `EINFO` (R142). -/
theorem runWord_faultedWith_of_illegal {s : State} {w k : W32} {why : Illegal} (busy : s.phase = .busy w k)
    (illegal : decode w = .error why) : ∃ t, runWord w s = .next t ∧ FaultedWith s t 5 w :=
  ⟨s.raise .illcmd, by rw [runWord, illegal]; rfl, State.raise_faultedWith_of_busy busy .illcmd⟩

/-- Settles O1: each of the three ways to an engine step runs the word, and a legal word's run is its command. -/
theorem stepRunsTheDecodedCommand : Obligations.StepRunsTheDecodedCommand := by
  intro s w k i hr busy legal
  exact ⟨fun e => (step_runs_word hr busy e).trans (runWord_of_decode legal _),
    fun _ e => (step_turn_runs_word hr busy e).trans (runWord_of_decode legal _),
    fun _ _ e => (step_ackWithTurn_runs_word hr busy e).trans (runWord_of_decode legal _)⟩

/-- Settles O7: a word is illegal where no row matches (`decode_error_iff`), and each of the three ways to an engine
step runs it into ILLCMD. -/
theorem illegalWordsEndInIllcmd : Obligations.IllegalWordsEndInIllcmd := by
  refine ⟨decode_error_iff, fun s w k why hr busy illegal => ⟨fun e => ?_, fun rest e => ?_, fun v rest e => ?_⟩⟩
  · rw [step_runs_word hr busy e]
    exact runWord_faultedWith_of_illegal busy illegal
  · rw [step_turn_runs_word hr busy e]
    exact runWord_faultedWith_of_illegal (s := { s with env := rest }) busy illegal
  · rw [step_ackWithTurn_runs_word hr busy e]
    exact runWord_faultedWith_of_illegal (s := { s.clearErr v with env := rest }) busy illegal

/-! ### While `rst` is held (R152) -/

theorem engineTurn_of_rst {s : State} (hr : s.rst = true) : engineTurn s = .next s := if_pos hr

theorem hostRead_of_rst {s : State} (hr : s.rst = true) (a : Nat) : s.hostRead a = { s with rdata := 0#32 } := by
  simp [State.hostRead, State.memRead, hr]

theorem hostWrite_of_rst {s : State} (hr : s.rst = true) (a : Nat) (v : W32) : s.hostWrite a v = s := if_pos hr

theorem ackTurn_of_rst {s : State} (hr : s.rst = true) (v : W32) : ackTurn v s = .next s := by
  rw [ackTurn, if_pos hr, engineTurn_of_rst hr]

/-! ### A placed word (notes/assumptions/9.md) -/

/-- Placing a word is issuing it: no bit of it is cut off. -/
theorem State.withFetchWord_toNat (s : State) (w : W32) : s.withFetchWord 32 w.toNat = s.issue w := by
  rw [State.withFetchWord, Nat.mod_eq_of_lt w.isLt, BitVec.ofNat_toNat, BitVec.setWidth_eq]

/-- An issued word runs in the very next step, whatever the environment has still to do. -/
theorem step_issue (s : State) (w : W32) : step (s.issue w) = runWord w { s.accept w with rst := false } := by
  cases e : s.env with
  | nil =>
    have issued : s.issue w = { s.accept w with rst := false } := by simp [State.issue, State.accept, e]
    rw [issued]
    exact step_runs_word rfl rfl e
  | cons event rest =>
    have issued : s.issue w = { s.accept w with rst := false, env := .turn :: s.env } := by simp [State.issue, e]
    rw [issued]
    exact step_turn_runs_word (rest := s.env) rfl rfl rfl

/-- Settles O2: the placed word is issued and runs next. -/
theorem placedWordRunsNext : Obligations.PlacedWordRunsNext := by
  intro s w i legal
  rw [State.withFetchWord_toNat, step_issue, runWord_of_decode legal]

/-! ### Every step answers -/

theorem perform_next (e : Event) (s : State) : ∃ t, perform e s = .next t := by
  cases e with
  | turn => exact engineTurn_next s
  | ackWithTurn v => exact engineTurn_next _
  | hostRead | hostWrite | offer | rst => exact ⟨_, rfl⟩

/-- Settles O8: an event answers, and so does the engine's turn. -/
theorem everyStepAnswersANextState : Obligations.EveryStepAnswersANextState := by
  intro s
  cases e : s.env with
  | nil =>
    rw [step_of_env_nil e]
    exact engineTurn_next s
  | cons event rest =>
    rw [step_of_env_cons e]
    exact perform_next event _

end Sys2Proof.Machine
end

section
/-! Proofs of the statements about the invariant (spec/10_state.md rule R37). -/

namespace Sys2Proof.Machine

/-! ### Each shared operation keeps the invariant -/

/-- The code of a cause is not 0, so a recorded fault shows in `ECAUSE` (R29, R132). -/
theorem Cause.code_toNat (c : Cause) : (BitVec.ofNat 32 c.code).toNat = c.code := by cases c <;> rfl

theorem State.Inv.record {s : State} (h : s.Inv) (c : Cause) (info : W32) : (s.record c info).Inv :=
  { h with
    err_reserved := by rw [State.record_err, BitVec.and_or_distrib_right, h.err_reserved, c.bit_reserved]; rfl
    ecause_legal := by rw [State.record_ecause, c.code_toNat]; exact c.code_le.2
    no_cause_no_fault := fun none => by
      have code : c.code = 0 := by rw [← c.code_toNat]; exact congrArg BitVec.toNat none
      exact absurd c.code_le.1 (by omega) }

theorem State.Inv.finish {s : State} (h : s.Inv) : s.finish.Inv :=
  { h with
    busy_not_done := fun busy => by cases busy
    cmd_is_running := fun _ _ busy => by cases busy
    idle_no_scratch := fun _ => rfl
    reset_idle := fun _ => rfl }

theorem State.Inv.raise {s : State} (h : s.Inv) (c : Cause) : (s.raise c).Inv := (h.record c _).finish

theorem State.Inv.consume {s : State} (h : s.Inv) (rest : List Rnd) : (s.consume rest).Inv := { h with }

/-- Only a running command holds, so no scratch is left while IDLE (R32, R53). -/
theorem State.Inv.hold {s : State} (h : s.Inv) (busy : s.busy = true) : s.hold.Inv :=
  { h with
    idle_no_scratch := fun idle => by
      have not_busy : s.busy = false := (State.busy_eq_false_iff s).2 idle
      cases busy.symm.trans not_busy }

theorem State.Inv.accept {s : State} (h : s.Inv) (hr : s.rst = false) (v : W32) : (s.accept v).Inv :=
  { h with
    busy_not_done := fun _ => rfl
    cmd_is_running := fun _ _ busy => by cases busy; rfl
    idle_no_scratch := fun _ => rfl
    reset_idle := fun high => by cases hr.symm.trans high }

theorem State.Inv.clearErr {s : State} (h : s.Inv) (v : W32) : (s.clearErr v).Inv :=
  { h with
    err_reserved := by
      rw [State.clearErr_err, BitVec.and_assoc, BitVec.and_comm (~~~_), ← BitVec.and_assoc, h.err_reserved,
        BitVec.zero_and]
    no_cause_no_fault := fun none => by
      obtain ⟨err, einfo⟩ := h.no_cause_no_fault none
      exact ⟨by rw [State.clearErr_err, err, BitVec.zero_and], einfo⟩ }

/-- Registers that fit are all the invariant says of a write of the registers or `HI` alone. -/
theorem State.Inv.setWide {s : State} (h : s.Inv) (r : WideReg) (x : Nat) : (s.setWide r x).Inv := by
  cases r with
  | b i => exact { h with regs_fit := (h.fits.setReg i x).1 }
  | hi => exact { h with hi_fits := (h.fits.setHi x).2 }

/-- The write of a completion step keeps the invariant: its registers fit, and it writes neither the phase nor a control
or a fault register. -/
theorem State.Inv.write {i : Instr} {s t : State} {ws rest : List Rnd} {f : State → State} (h : t.Inv)
    (work : workOf i s ws = some (f, rest)) : (f t).Inv := by
  obtain ⟨regs, hi⟩ := workOf_fits work h.fits
  have w := workOf_writes work
  obtain ⟨width, -, -, cmd, rst, -, -⟩ := w.control t
  obtain ⟨err, ecause, einfo⟩ := w.faults t
  exact {
    regs_fit := regs
    hi_fits := hi
    busy_not_done := by rw [State.busy_congr (w.phase t), w.done t]; exact h.busy_not_done
    cmd_is_running := by rw [w.phase t, cmd]; exact h.cmd_is_running
    idle_no_scratch := by rw [w.phase t, w.drawn t]; exact h.idle_no_scratch
    err_reserved := by rw [err]; exact h.err_reserved
    ecause_legal := by rw [ecause]; exact h.ecause_legal
    no_cause_no_fault := by rw [ecause, err, einfo]; exact h.no_cause_no_fault
    reset_idle := by rw [rst, w.phase t]; exact h.reset_idle }

/-! ### Every engine step keeps it -/

/-- What a step keeps: the invariant, and the `W` of the machine (R5, R37). -/
def State.Keeps (s t : State) : Prop := t.Inv ∧ t.width = s.width

theorem exec_keeps {i : Instr} {s t : State} (h : s.Inv) (busy : s.busy = true) (step : exec i s = .next t) :
    s.Keeps t := by
  rcases exec_cases step with ⟨c, -, rfl⟩ | ⟨f, rest, -, work, rfl⟩ | ⟨-, -, rfl⟩
  · exact ⟨h.raise c, rfl⟩
  · exact ⟨((h.consume rest).write work).finish, ((workOf_writes work).control _).width⟩
  · exact ⟨h.hold busy, rfl⟩

theorem engineTurn_keeps {s t : State} (h : s.Inv) (turn : engineTurn s = .next t) : s.Keeps t := by
  rcases engineTurn_cases turn with rfl | ⟨w, k, -, busy, run⟩
  · exact ⟨h, rfl⟩
  · rcases runWord_cases run with ⟨i, -, step⟩ | ⟨-, rfl⟩
    · exact exec_keeps h ((State.busy_iff s).2 ⟨w, k, busy⟩) step
    · exact ⟨h.raise .illcmd, rfl⟩

/-! ### Every event keeps it -/

theorem ctrlWrite_keeps {s : State} (h : s.Inv) (hr : s.rst = false) (r : CtrlReg) (v : W32) :
    s.Keeps (s.ctrlWrite r v) := by
  cases r with
  | id | param | ecause | einfo => exact ⟨h, rfl⟩
  | ctrl | rounds => exact ⟨{ h with }, rfl⟩
  | status => exact ⟨{ h with busy_not_done := fun busy => by simp [State.ctrlWrite, h.busy_not_done busy] }, rfl⟩
  | cmd => exact ⟨h.accept hr v, rfl⟩
  | err => exact ⟨h.clearErr v, rfl⟩

theorem hostWrite_keeps {s : State} (h : s.Inv) (a : Nat) (v : W32) : s.Keeps (s.hostWrite a v) := by
  cases hr : s.rst with
  | true =>
    rw [hostWrite_of_rst hr]
    exact ⟨h, rfl⟩
  | false =>
    rcases hostWrite_cases hr a v with ⟨-, e⟩ | ⟨l, -, -, e⟩
    · rw [e]
      exact ⟨h.record .access _, rfl⟩
    · rw [e]
      cases l with
      | ctrl r => exact ctrlWrite_keeps h hr r v
      | limb r j => exact ⟨h.setWide r _, by cases r <;> rfl⟩

theorem hostRead_keeps {s : State} (h : s.Inv) (a : Nat) : s.Keeps (s.hostRead a) := by
  unfold State.hostRead
  split_ifs
  · exact ⟨{ h with }, rfl⟩
  · exact ⟨{ h.record .access _ with }, rfl⟩
  · exact ⟨{ h with }, rfl⟩

/-- Settles O9: the registers are 0, the phase is IDLE and no fault is on record. -/
theorem resetStateMeetsTheInvariant : Obligations.ResetStateMeetsTheInvariant where
  regs_fit r := by
    have cleared : State.reset.b[r.val] = 0 := Vector.getElem_replicate r.isLt
    rw [cleared]
    exact Nat.two_pow_pos _
  hi_fits := Nat.two_pow_pos _
  busy_not_done _ := rfl
  cmd_is_running _ _ busy := by cases busy
  idle_no_scratch _ := rfl
  err_reserved := rfl
  ecause_legal := by decide
  no_cause_no_fault _ := ⟨rfl, rfl⟩
  reset_idle _ := rfl

/-- The state that reset gives, at any `W`: the registers are 0 there too (R35, R152). -/
theorem State.Inv.setRst {s : State} (h : s.Inv) (level : Bool) : (s.setRst level).Inv := by
  cases level with
  | true =>
    exact {
      resetStateMeetsTheInvariant with
      regs_fit := fun r => by
        have cleared : (s.setRst true).b[r.val] = 0 := Vector.getElem_replicate r.isLt
        rw [cleared]
        exact Nat.two_pow_pos _
      hi_fits := Nat.two_pow_pos _
      reset_idle := fun _ => rfl }
  | false => exact { h with reset_idle := fun high => by cases high }

theorem perform_keeps {e : Event} {s t : State} (h : s.Inv) (move : perform e s = .next t) : s.Keeps t := by
  cases e with
  | turn => exact engineTurn_keeps h move
  | hostRead a => cases move; exact hostRead_keeps h _
  | hostWrite a v => cases move; exact hostWrite_keeps h _ v
  | ackWithTurn v =>
    cases hr : s.rst with
    | true =>
      cases (ackTurn_of_rst hr v).symm.trans move
      exact ⟨h, rfl⟩
    | false =>
      rw [perform, ackTurn, if_neg (by simp [hr])] at move
      exact engineTurn_keeps (s := s.clearErr v) (h.clearErr v) move
  | offer w => cases move; exact ⟨{ h with }, rfl⟩
  | rst level => cases move; exact ⟨h.setRst level, by cases level <;> rfl⟩

/-- Settles O10: the engine's turn keeps the invariant, and so does every event. -/
theorem stepKeepsTheInvariant : Obligations.StepKeepsTheInvariant := by
  intro s t h move
  cases e : s.env with
  | nil => exact engineTurn_keeps h ((step_of_env_nil e).symm.trans move)
  | cons event rest =>
    exact perform_keeps (s := { s with env := rest }) { h with } ((step_of_env_cons e).symm.trans move)

end Sys2Proof.Machine
end

section
/-! Proofs of the statements about every command: what it writes (spec/10_state.md rules R15 to R18), what it does not
read (rules R17, R28, spec/20_memory.md rule R47, spec/70_reset_and_hazards.md rule R159), how it ends (rules R53, R70)
and how a hold goes on. -/

namespace Sys2Proof.Machine

/-! ### What a command writes (R15, R16, R18) -/

/-- Settles O13: a fault and a hold write no register, a completion what its write does (`Writes`). -/
theorem commandsWriteOnlyTheirDestinations : Obligations.CommandsWriteOnlyTheirDestinations := by
  intro i s t step
  rcases exec_cases step with ⟨c, -, rfl⟩ | ⟨f, rest, -, work, rfl⟩ | ⟨-, -, rfl⟩
  · exact ⟨fun _ _ => rfl, fun _ => rfl, (s.raise_faultedWith c).control⟩
  · have w := workOf_writes work
    exact ⟨w.regs (s.consume rest), fun no => w.hi no (s.consume rest), { w.control (s.consume rest) with }⟩
  · exact ⟨fun _ _ => rfl, fun _ => rfl, ⟨rfl, rfl, rfl, rfl, rfl, rfl, rfl⟩⟩

/-- Settles O14: a fault and a hold write no flag, a completion what its write does (`Writes`). -/
theorem commandsWriteOnlyTheirFlags : Obligations.CommandsWriteOnlyTheirFlags := by
  intro i s t step
  rcases exec_cases step with ⟨c, -, rfl⟩ | ⟨f, rest, -, work, rfl⟩ | ⟨-, -, rfl⟩
  · exact ⟨fun _ => rfl, fun _ => rfl, fun _ => rfl⟩
  · have w := workOf_writes work
    exact ⟨fun no => w.z no (s.consume rest), fun no => w.c no (s.consume rest), fun no => w.p no (s.consume rest)⟩
  · exact ⟨fun _ => rfl, fun _ => rfl, fun _ => rfl⟩

/-! ### How a command ends (R53, R70, R162) -/

/-- The work of a command that draws nothing is a write alone. -/
theorem workOf_of_not_draws {i : Instr} (h : i.draws = false) (s : State) : ∃ f, workOf i s = noDraw f := by
  cases i
  case mrtest | randbits | randrange | primegen | keygen => cases h
  all_goals exact ⟨_, rfl⟩

/-- Settles O15: a fault and a completion end the command; a command without a draw has nothing to hold for and leaves
the words on hand as they are. -/
theorem commandsEndOrHold : Obligations.CommandsEndOrHold := by
  intro i s t step
  cases draws : i.draws with
  | true =>
    refine ⟨?_, fun no => by cases no⟩
    rcases exec_cases step with ⟨c, -, rfl⟩ | ⟨f, rest, -, -, rfl⟩ | ⟨-, -, rfl⟩
    · exact .inl (s.raise_faultedWith c).ended
    · exact .inl (State.finish_ended _)
    · exact .inr ⟨rfl, s.hold_held⟩
  | false =>
    obtain ⟨f, work⟩ := workOf_of_not_draws draws s
    cases check : checkOf i s with
    | some c =>
      cases (exec_fault check).symm.trans step
      exact ⟨.inl (s.raise_faultedWith c).ended, fun _ => ⟨rfl, rfl⟩⟩
    | none =>
      obtain ⟨completes, -, words, done⟩ := exec_noDraw check work
      cases completes.symm.trans step
      exact ⟨.inl done.ended, fun _ => words⟩

/-! ### What a command reads (R17, R47, R159) -/

/-- The two states hold the same operands: `W`, the registers, the phase, the latched round count and the words on hand.
The flags, the control and the fault registers may differ. -/
structure SameOperands (s t : State) : Prop where
  width : t.width = s.width
  b : t.b = s.b
  hi : t.hi = s.hi
  phase : t.phase = s.phase
  rounds : t.latchedRounds = s.latchedRounds
  drawn : t.drawn = s.drawn
  offered : t.offered = s.offered

/-- While BUSY the round count stands in the phase (R20, R159). -/
theorem latchedRounds_congr_of_busy {s t : State} (busy : s.busy = true) (h : t.phase = s.phase) :
    t.latchedRounds = s.latchedRounds := by
  obtain ⟨w, k, e⟩ := (State.busy_iff s).1 busy
  rw [State.latchedRounds_of_busy e, State.latchedRounds_of_busy (h.trans e)]

theorem SameOperands.onHand {s t : State} (h : SameOperands s t) : t.onHand = s.onHand := by
  rw [State.onHand, State.onHand, h.drawn, h.offered]

theorem SameOperands.fresh {s t : State} (h : SameOperands s t) (rest : List Rnd) : t.fresh rest = s.fresh rest := by
  rw [State.fresh, State.fresh, h.onHand, h.drawn]

/-- From the same operands a command does the same: it faults by the same cause, completes with the same write, or holds
for want of the same word. -/
theorem SameOperands.exec_cases {i : Instr} {s t u : State} (h : SameOperands s t) (step : exec i s = .next u) :
    (∃ c, checkOf i s = some c ∧ u = s.raise c ∧ exec i t = .next (t.raise c)) ∨
    (∃ f rest, workOf i s s.onHand = some (f, rest) ∧ u = (f (s.consume rest)).finish ∧
      exec i t = .next (f (t.consume rest)).finish) ∨
    (workOf i s s.onHand = none ∧ u = s.hold ∧ exec i t = .next t.hold) := by
  have check : checkOf i t = checkOf i s := checkOf_congr h.width h.b i
  have work : workOf i t t.onHand = workOf i s s.onHand := by rw [workOf_congr h.width h.b h.hi h.rounds, h.onHand]
  rcases Machine.exec_cases step with ⟨c, faults, rfl⟩ | ⟨f, rest, passes, draws, rfl⟩ | ⟨passes, holds, rfl⟩
  · exact .inl ⟨c, faults, rfl, exec_fault (check.trans faults)⟩
  · exact .inr (.inl ⟨f, rest, draws, rfl, exec_done (check.trans passes) (work.trans draws)⟩)
  · exact .inr (.inr ⟨holds, rfl, exec_hold (check.trans passes) (work.trans holds)⟩)

/-- Every cause has a bit in `ERR`, so a recorded fault shows there (R28, R132). -/
theorem Cause.bit_ne_zero (c : Cause) : c.bit ≠ 0#32 := by cases c <;> decide

/-- A command that completes passes its check and finds the words of its draw on hand (R10). -/
theorem Completes.work {i : Instr} {s : State} (h : Completes i s) :
    checkOf i s = none ∧ ∃ p, workOf i s s.onHand = some p := by
  obtain ⟨busy, t, step, ended, clean⟩ := h
  rcases Machine.exec_cases step with ⟨c, -, rfl⟩ | ⟨f, rest, passes, draws, -⟩ | ⟨-, -, rfl⟩
  · exact absurd (by simpa using clean) c.bit_ne_zero
  · exact ⟨passes, _, draws⟩
  · have idle : s.busy = false := (State.busy_eq_false_iff s).2 ended.idle
    cases busy.symm.trans idle

/-- Settles O17: the check and the work of a command do not depend on the flags, and the write of its completion gives a
flag it writes one value. -/
theorem noCommandReadsAFlag : Obligations.NoCommandReadsAFlag := by
  intro i s t z c p step
  have same : SameOperands s { s with z := z, c := c, p := p } := ⟨rfl, rfl, rfl, rfl, rfl, rfl, rfl⟩
  rcases same.exec_cases step with ⟨cause, faults, rfl, step'⟩ | ⟨f, rest, draws, rfl, step'⟩ | ⟨holds, rfl, step'⟩
  · refine ⟨_, step', rfl, fun completes => ?_⟩
    cases completes.work.1.symm.trans faults
  · obtain ⟨shape⟩ := workOf_shape draws
    refine ⟨_, step', ?_, fun _ => workOf_flags draws _ _⟩
    rw [shape.eq, shape.eq]
    rfl
  · refine ⟨_, step', rfl, fun completes => ?_⟩
    obtain ⟨-, _, draws⟩ := completes.work
    cases draws.symm.trans holds

/-- Settles O18: while BUSY the operands do not depend on `ROUNDS`, and no write of a completion touches it. -/
theorem roundCountIsLatched : Obligations.RoundCountIsLatched := by
  intro i s t v busy step
  have same : SameOperands s { s with rounds := v } :=
    ⟨rfl, rfl, rfl, rfl, latchedRounds_congr_of_busy busy rfl, rfl, rfl⟩
  rcases same.exec_cases step with ⟨cause, -, rfl, step'⟩ | ⟨f, rest, draws, rfl, step'⟩ | ⟨-, rfl, step'⟩
  · exact step'
  · obtain ⟨shape⟩ := workOf_shape draws
    rw [step', shape.eq, shape.eq]
    rfl
  · exact step'

/-! ### A host access beside a running command (R47, R143) -/

/-- What a host access leaves of a running command: its operands, the flags and the count of the words taken. -/
structure Undisturbed (s t : State) : Prop where
  operands : SameOperands s t
  flags : SameFlags s t
  rpos : t.rpos = s.rpos

/-- A write that is not refused while BUSY goes to a control register other than `CMD` (R47 (c)). -/
theorem ctrl_of_not_refused {s : State} {a : Nat} {l : Loc} (busy : s.busy = true) (ok : s.refuses true a = false)
    (at_a : locate s.width a = some l) : ∃ r, l = .ctrl r ∧ r ≠ .cmd := by
  have is_open : l.closedWhileBusy true = false := by
    simp only [State.refuses, at_a, busy] at ok
    split_ifs at ok
    simpa using ok
  cases l with
  | limb r j => cases is_open
  | ctrl r => exact ⟨r, rfl, by rintro rfl; cases is_open⟩

theorem undisturbed_hostRead {s : State} (a : Nat) : Undisturbed s (s.hostRead a) := by
  unfold State.hostRead
  split_ifs <;> exact ⟨⟨rfl, rfl, rfl, rfl, rfl, rfl, rfl⟩, ⟨rfl, rfl, rfl⟩, rfl⟩

theorem undisturbed_hostWrite {s : State} (busy : s.busy = true) (a : Nat) (v : W32) :
    Undisturbed s (s.hostWrite a v) := by
  have kept {t : State} (phase : t.phase = s.phase) := latchedRounds_congr_of_busy busy phase
  cases hr : s.rst with
  | true =>
    rw [hostWrite_of_rst hr]
    exact ⟨⟨rfl, rfl, rfl, rfl, rfl, rfl, rfl⟩, ⟨rfl, rfl, rfl⟩, rfl⟩
  | false =>
    rcases hostWrite_cases hr a v with ⟨-, e⟩ | ⟨l, ok, at_a, e⟩
    · rw [e]
      exact ⟨⟨rfl, rfl, rfl, rfl, rfl, rfl, rfl⟩, ⟨rfl, rfl, rfl⟩, rfl⟩
    · obtain ⟨r, rfl, ne⟩ := ctrl_of_not_refused busy ok at_a
      rw [e]
      cases r with
      | cmd => exact absurd rfl ne
      | id | param | ctrl | status | rounds | err | ecause | einfo =>
        exact ⟨⟨rfl, rfl, rfl, rfl, kept rfl, rfl, rfl⟩, ⟨rfl, rfl, rfl⟩, rfl⟩

/-- Settles O20: a host access leaves a running command its operands, and a command does the same from the same
operands. -/
theorem hostAccessesDoNotDisturbACommand : Obligations.HostAccessesDoNotDisturbACommand := by
  intro i s t u a v busy access step
  obtain ⟨same, ⟨z, c, p⟩, rpos⟩ : Undisturbed s t := by
    rcases access with rfl | rfl
    · exact undisturbed_hostRead a
    · exact undisturbed_hostWrite busy a v
  rcases same.exec_cases step with ⟨cause, -, rfl, step'⟩ | ⟨f, rest, draws, rfl, step'⟩ | ⟨-, rfl, step'⟩
  · exact ⟨_, step', same.b, same.hi, ⟨z, c, p⟩, rfl, ⟨rpos, same.offered⟩, rfl⟩
  · obtain ⟨shape⟩ := workOf_shape draws
    refine ⟨_, step', ?_⟩
    rw [shape.eq, shape.eq]
    refine ⟨?_, ?_, ⟨?_, ?_, ?_⟩, rfl, ⟨?_, ?_⟩, rfl⟩ <;>
      simp [same.b, same.width, same.hi, same.offered, same.fresh, z, c, p, rpos]
  · exact ⟨_, step', same.b, same.hi, ⟨z, c, p⟩, same.phase, ⟨by simp [rpos, same.offered], rfl⟩,
      by simp [same.drawn, same.offered]⟩

/-! ### A fault in the step of an acknowledgement (R28) -/

/-- A run from a clear `ERR` shows in `ERR` what the same run adds to any `ERR`. -/
theorem runWord_err {w : W32} {s t u : State} (same : SameOperands s t) (clean : s.err = 0#32)
    (run : runWord w s = .next u) : ∃ u', runWord w t = .next u' ∧ u'.err = u.err ||| t.err := by
  rcases runWord_cases run with ⟨i, legal, step⟩ | ⟨⟨why, illegal⟩, rfl⟩
  · rw [runWord_of_decode legal]
    rcases same.exec_cases step with ⟨c, -, rfl, step'⟩ | ⟨f, rest, draws, rfl, step'⟩ | ⟨-, rfl, step'⟩
    · exact ⟨_, step', by simp [clean, BitVec.or_comm]⟩
    · have w := workOf_writes draws
      exact ⟨_, step', by simp [(w.faults _).err, clean]⟩
    · exact ⟨_, step', by simp [clean]⟩
  · exact ⟨t.raise .illcmd, by rw [runWord, illegal]; rfl, by simp [clean, BitVec.or_comm]⟩

/-- An acknowledgement clears the bits 1 to 6 of `ERR` that are written 1 (R28). -/
theorem getLsbD_clearErr_err (s : State) (v : W32) {n : Nat} (low : 1 ≤ n) (high : n ≤ 6) :
    (s.clearErr v).err.getLsbD n = (s.err.getLsbD n && !v.getLsbD n) := by
  rw [State.clearErr_err]
  interval_cases n <;> simp

/-- Settles O60: the bits are cleared first, and the run sets in `ERR` what it sets from a clear one. -/
theorem faultWinsOverSameStepAcknowledge : Obligations.FaultWinsOverSameStepAcknowledge := by
  intro s u w k v rest n hr busy e run low high
  have same : SameOperands { s with env := rest, err := 0#32 } { s.clearErr v with env := rest } :=
    ⟨rfl, rfl, rfl, rfl, rfl, rfl, rfl⟩
  obtain ⟨t, run', err⟩ := runWord_err same rfl run
  refine ⟨t, (step_ackWithTurn_runs_word hr busy e).trans run', ?_⟩
  rw [err, BitVec.getLsbD_or, ← getLsbD_clearErr_err s v low high]

/-! ### A hold goes on as if it had not been (R53) -/

/-- Where the words on hand are too few for a draw and with `more` of them enough, the draw takes all of the first. -/
theorem Draw.Local.length_add_length_le {α : Type} {d : Draw α} (l : Draw.Local d) {ws more rest : List Rnd} {a : α}
    (few : d ws = none) (enough : d (ws ++ more) = some (a, rest)) : ws.length + rest.length ≤ (ws ++ more).length := by
  obtain ⟨used, front, any⟩ := l _ _ _ enough
  by_contra short
  have fits : used.length ≤ ws.length := by
    have := congrArg List.length front
    simp only [List.length_append] at this short
    omega
  obtain ⟨tail, rfl⟩ := List.prefix_of_prefix_length_le (List.prefix_append used rest)
    (front ▸ List.prefix_append ws more) fits
  cases few.symm.trans (any tail)

/-- The resumed command and the one that had all its words at once consume the same words: those that the hold has taken
are counted by it. -/
theorem fresh_hold {s : State} {more rest : List Rnd} (h : s.onHand.length + rest.length ≤ (s.onHand ++ more).length) :
    ({ s with offered := s.offered ++ more } : State).fresh rest =
      s.offered.length + ({ s.hold with offered := more } : State).fresh rest := by
  simp only [State.fresh, State.onHand, State.hold_drawn, List.length_append] at h ⊢
  omega

/-- Settles O19: a command that stays BUSY has held; the resumed command finds the same words on hand, and takes at
least those that the hold has taken. -/
theorem holdIsTransparent : Obligations.HoldIsTransparent := by
  intro i s t more busy step still
  rcases exec_cases step with ⟨c, -, rfl⟩ | ⟨f, rest, -, -, rfl⟩ | ⟨passes, few, rfl⟩
  · cases still
  · cases still
  refine ⟨s.hold_held, ?_⟩
  have resumed : ({ s.hold with offered := more } : State).onHand = s.onHand ++ more := rfl
  have atOnce : ({ s with offered := s.offered ++ more } : State).onHand = s.onHand ++ more :=
    (List.append_assoc _ _ _).symm
  cases draw : workOf i s (s.onHand ++ more) with
  | none =>
    rw [exec_hold (s := { s.hold with offered := more }) passes (by rw [resumed]; exact draw),
      exec_hold (s := { s with offered := s.offered ++ more }) passes (by rw [atOnce]; exact draw)]
    simp [State.hold, Nat.add_assoc]
  | some p =>
    obtain ⟨f, rest⟩ := p
    obtain ⟨shape⟩ := workOf_shape draw
    have taken := fresh_hold ((workOf_local passes).length_add_length_le few draw)
    rw [exec_done (s := { s.hold with offered := more }) passes (by rw [resumed]; exact draw),
      exec_done (s := { s with offered := s.offered ++ more }) passes (by rw [atOnce]; exact draw)]
    simp [shape.eq, State.consume, State.finish, taken, State.hold, Nat.add_assoc]

end Sys2Proof.Machine
end

section
/-! Proofs of the statements about the reducer, modular multiplication and the inverter (spec/40_bigint.md rules R81,
R82, spec/41_modexp.md rule R87, spec/44_euclid.md rules R109 to R112). -/

namespace Sys2Proof.Machine

/-! ### The reducers (R81, R82, R87) -/

/-- Settles O26: each remainder fits in the destination. -/
theorem reducersLeaveTheRemainder : Obligations.ReducersLeaveTheRemainder := by
  intro s rd ra rc modulus
  exact ⟨⟨_, (exec_noDraw (i := .mod rd ra rc) (if_neg modulus) rfl).1,
      s.result_finish rd (State.mod_val_lt_two_pow modulus _)⟩,
    ⟨_, (exec_noDraw (i := .modw rd ra rc) (if_neg modulus) rfl).1,
      s.result_finish rd (State.mod_val_lt_two_pow modulus _)⟩⟩

/-- Settles O28: the exact product is reduced, and the remainder fits in the destination. -/
theorem mulmodReducesTheFullProduct : Obligations.MulmodReducesTheFullProduct := by
  intro s rd ra rb rc modulus
  exact ⟨_, (exec_noDraw (i := .mulmod rd ra rb rc) (if_neg modulus) rfl).1,
    s.result_finish rd (State.mod_val_lt_two_pow modulus _)⟩

/-- Settles O27: MUL leaves the exact product in `HI` and `rp` and the modulus as it is, and MODW reduces what MULMOD
reduces. -/
theorem mulThenModwIsMulmod : Obligations.MulThenModwIsMulmod := by
  intro s rp rd ra rb rc ne modulus
  obtain ⟨-, t, mul, product, -, -, -, regs, -, -, ⟨width, -⟩, -⟩ := mulIsExactOverTwoRegisters s rp ra rb
  have kept : t.val rc = s.val rc := regs rc (by simpa using ne)
  obtain ⟨u, modw, reduced, zero, -⟩ := (reducersLeaveTheRemainder t rd rp rc (kept ▸ modulus)).2
  obtain ⟨v, mulmod, reduced', zero', -⟩ := mulmodReducesTheFullProduct s rd ra rb rc modulus
  have value : u.val rd = v.val rd := by rw [reduced, reduced', kept, width, product]
  exact ⟨t, u, v, mul, modw, mulmod, value, Bool.eq_iff_iff.2 (by rw [zero, zero', value])⟩

/-! ### The inverter's sequence (R109, R110, R111) -/

/-- What the sequence starts from meets the loop's invariant (`bezoutLoop_spec`): above modulus 1 and from a number that
is not 0 the loop ends with 1 and an inverse exactly where the two are coprime. -/
theorem bezoutLoop_start {a m : Nat} (ha : 1 ≤ a) (hm : 1 < m) :
    (bezoutLoop (m + 2) a m 1 0 = none → Nat.gcd a m ≠ 1) ∧
    (∀ a' x, bezoutLoop (m + 2) a m 1 0 = some (a', x) →
      a' = 1 ∧ Nat.gcd a m = 1 ∧ (m : Int) ∣ x * a - 1 ∧ 2 * |x| ≤ m) :=
  bezoutLoop_spec a m (m + 2) a m 1 0 (by omega) ha (by simp) (by simp) (by simp) (by simp) (by simp; omega)

/-- A coefficient at most half the modulus in size, shifted up by the modulus where it is negative, is below the modulus
and the same modulo it. -/
theorem toNat_shift_spec {m : Nat} (hm : 1 < m) {x : Int} (half : 2 * |x| ≤ m) :
    (if x < 0 then x + m else x).toNat < m ∧ (m : Int) ∣ (if x < 0 then x + m else x).toNat - x := by
  have low := neg_abs_le x
  have high := le_abs_self x
  split_ifs with neg
  · rw [Int.toNat_of_nonneg (by omega)]
    exact ⟨by omega, ⟨1, by ring⟩⟩
  · rw [Int.toNat_of_nonneg (by omega)]
    exact ⟨by omega, ⟨0, by ring⟩⟩

/-- An inverse modulo `m` below `m` is the only one (R109). -/
theorem modInverse_unique {a d d' m : Nat} (hd : d < m) (hd' : d' < m) (inv : a * d ≡ 1 [MOD m])
    (inv' : a * d' ≡ 1 [MOD m]) : d' = d := by
  refine Nat.ModEq.eq_of_lt_of_lt ?_ hd' hd
  calc d' = d' * 1 := (mul_one d').symm
    _ ≡ d' * (a * d) [MOD m] := inv.symm.mul_left d'
    _ = a * d' * d := by ring
    _ ≡ 1 * d [MOD m] := inv'.mul_right d
    _ = d := one_mul d

/-- Above modulus 1 the sequence raises NOINV where the two numbers share a factor, and otherwise returns an inverse
(R109, R111). -/
theorem modInvSeq_cases {m : Nat} (hm : 1 < m) (a : Nat) :
    (Nat.gcd a m ≠ 1 ∧ modInvSeq a m = none) ∨
    (Nat.gcd a m = 1 ∧ ∃ d, modInvSeq a m = some d ∧ d < m ∧ a * d ≡ 1 [MOD m]) := by
  rw [modInvSeq, if_neg hm.ne']
  rcases Nat.eq_zero_or_pos a with rfl | ha
  · have ends : bezoutLoop (m + 2) 0 m 1 0 = some (0, 1) := if_pos (by decide)
    exact .inl ⟨by rw [Nat.gcd_zero_left]; exact hm.ne', by rw [ends]; rfl⟩
  obtain ⟨raises, returns⟩ := bezoutLoop_start ha hm
  cases ends : bezoutLoop (m + 2) a m 1 0 with
  | none => exact .inl ⟨raises ends, rfl⟩
  | some p =>
    obtain ⟨a', x⟩ := p
    obtain ⟨rfl, coprime, inverse, half⟩ := returns a' x ends
    obtain ⟨below, shifted⟩ := toNat_shift_spec hm half
    refine .inr ⟨coprime, _, rfl, below, ((Nat.modEq_iff_dvd).2 ?_).symm⟩
    generalize (if x < 0 then x + m else x).toNat = d at shifted ⊢
    have product : ((a * d : Nat) : Int) - (1 : Nat) = (d - x) * a + (x * a - 1) := by push_cast; ring
    rw [product]
    exact dvd_add (shifted.mul_right _) inverse

/-- Settles O35: modulus 1 has the one value 0; above it by `modInvSeq_cases`, and the inverse is unique. -/
theorem inverterSequenceMeetsItsDefinition : Obligations.InverterSequenceMeetsItsDefinition := by
  intro a m hm
  refine ⟨?_, ?_, rfl⟩
  · rcases hm.eq_or_lt with rfl | above
    · exact ⟨fun raised => (nomatch raised), fun h => absurd h.1 (lt_irrefl 1)⟩
    · rcases modInvSeq_cases above a with ⟨shared, raised⟩ | ⟨coprime, d, returned, -⟩
      · exact ⟨fun _ => ⟨above, shared⟩, fun _ => raised⟩
      · exact ⟨fun raised => (nomatch returned.symm.trans raised), fun h => absurd coprime h.2⟩
  · intro d returned
    rcases hm.eq_or_lt with rfl | above
    · cases returned
      exact ⟨Nat.one_pos, by rw [Nat.mod_one], fun d' below _ => Nat.lt_one_iff.1 below⟩
    · rcases modInvSeq_cases above a with ⟨-, raised⟩ | ⟨-, d₀, returned', below, inverse⟩
      · cases returned.symm.trans raised
      · cases returned.symm.trans returned'
        exact ⟨below, inverse, fun d' below' inverse' => modInverse_unique below below' inverse inverse'⟩

/-! ### MODINV where the inverse exists (R110, R112) -/

/-- Where the inverse exists `ModInv` is it (R109). -/
theorem modInv_spec {a m : Nat} (hm : 1 < m) (coprime : Nat.gcd a m = 1) : modInv a m < m ∧ a * modInv a m % m = 1 := by
  rcases modInvSeq_cases hm a with ⟨shared, -⟩ | ⟨-, d, returned, below, inverse⟩
  · exact absurd coprime shared
  · have value : modInv a m = d := by rw [modInv, returned]; rfl
    rw [value]
    exact ⟨below, Eq.trans inverse (Nat.mod_eq_of_lt hm)⟩

/-- With modulus 1 MODINV completes with 0. -/
theorem exec_modinv_of_eq_one {s : State} {rc : Reg} (rd ra : Reg) (one : s.val rc = 1) :
    exec (.modinv rd ra rc) s = .next (s.result rd 0).finish := by
  have passes : checkOf (.modinv rd ra rc) s = none := by simp [checkOf, one]
  have completes := (exec_noDraw passes rfl).1
  rwa [if_pos one] at completes

/-- Above modulus 1 MODINV of a coprime argument completes with `ModInv`. -/
theorem exec_modinv_of_coprime {s : State} {ra rc : Reg} (rd : Reg) (modulus : 1 < s.val rc)
    (coprime : Nat.gcd (s.val ra) (s.val rc) = 1) :
    exec (.modinv rd ra rc) s = .next (s.result rd (modInv (s.val ra) (s.val rc))).finish := by
  have passes : checkOf (.modinv rd ra rc) s = none := by
    simp [checkOf, gcdOf_eq, coprime, Nat.ne_zero_of_lt modulus]
  have completes := (exec_noDraw passes rfl).1
  rwa [if_neg modulus.ne'] at completes

/-- Settles O33: modulus 1 gives 0, and above it the inverse is not 0, since 0 times the argument is not 1. -/
theorem modinvIsTheInverse : Obligations.ModinvIsTheInverse := by
  intro s rd ra rc nonzero exists_inverse
  rcases (Nat.one_le_iff_ne_zero.2 nonzero).eq_or_lt with one | modulus
  · obtain ⟨written, zero, frame⟩ := s.result_finish rd (Nat.two_pow_pos _)
    exact ⟨_, exec_modinv_of_eq_one rd ra one.symm, by rw [written, ← one]; exact Nat.one_pos,
      fun above => absurd one above.ne, by rw [zero, written, ← one]; simp, frame⟩
  · have coprime : Nat.gcd (s.val ra) (s.val rc) = 1 := exists_inverse.resolve_left modulus.ne'
    obtain ⟨below, inverse⟩ := modInv_spec modulus coprime
    have nonzero_inverse : modInv (s.val ra) (s.val rc) ≠ 0 := fun e => by simp [e] at inverse
    obtain ⟨written, zero, frame⟩ := s.result_finish rd (below.trans (s.val_lt rc))
    exact ⟨_, exec_modinv_of_coprime rd modulus coprime, by rw [written]; exact below,
      fun _ => by rw [written]; exact inverse,
      by rw [zero, written]; exact iff_of_false nonzero_inverse modulus.ne', frame⟩

end Sys2Proof.Machine
end

section
/-! Proofs of the statements about the cipher (spec/45_keypair_cipher.md rules R121, R122). -/

namespace Sys2Proof.Machine

/-! ### ENC (R122) -/

/-- ENC of a code below the modulus completes with the power of the code as its one result. -/
theorem exec_enc_of_lt {s : State} {ra rc : Reg} (rd rb : Reg) (code : s.val ra < s.val rc) :
    exec (.enc rd ra rb rc) s = .next (s.result rd (s.val ra ^ s.val rb % s.val rc)).finish := by
  rw [← modExp_eq (Nat.zero_lt_of_lt code)]
  exact (exec_noDraw (i := .enc rd ra rb rc) (if_neg (Nat.not_le.2 code)) rfl).1

/-- Settles O48: the power, once reduced, is below the modulus and fits in the destination. -/
theorem encIsThePowerOfTheCode : Obligations.EncIsThePowerOfTheCode := by
  intro s rd ra rb rc code
  have modulus : s.val rc ≠ 0 := Nat.ne_zero_of_lt code
  obtain ⟨written, frame⟩ := s.result_finish rd (State.mod_val_lt_two_pow modulus (s.val ra ^ s.val rb))
  have below : s.val ra ^ s.val rb % s.val rc < s.val rc := Nat.mod_lt _ (Nat.pos_of_ne_zero modulus)
  exact ⟨_, exec_enc_of_lt rd rb code, written, written.trans_lt below, frame⟩

/-! ### The round trip (R121) -/

/-- Modulo a prime, a power with exponent 1 modulo `p − 1` is the number itself: 0 to any such power is 0, and Fermat's
theorem takes the multiples of `p − 1` off the exponent of any other. -/
theorem pow_modEq_of_prime {p : Nat} (hp : p.Prime) (m k : Nat) : m ^ (1 + (p - 1) * k) ≡ m [MOD p] := by
  have := Fact.mk hp
  rw [← ZMod.natCast_eq_natCast_iff, Nat.cast_pow, pow_add, pow_one, pow_mul]
  by_cases zero : (m : ZMod p) = 0
  · rw [zero, zero_mul]
  · rw [ZMod.pow_card_sub_one_eq_one zero, one_pow, mul_one]

/-- Modulo the product of two different primes, a power with exponent 1 modulo `(p − 1)(q − 1)` is the number itself
(R121). -/
theorem pow_modEq_of_primes {p q x : Nat} (hp : p.Prime) (hq : q.Prime) (ne : p ≠ q)
    (hx : x % ((p - 1) * (q - 1)) = 1) (m : Nat) : m ^ x ≡ m [MOD p * q] := by
  obtain ⟨k, rfl⟩ : ∃ k, x = 1 + (p - 1) * (q - 1) * k := ⟨_, (hx ▸ Nat.mod_add_div x _).symm⟩
  rw [← Nat.modEq_and_modEq_iff_modEq_mul ((Nat.coprime_primes hp hq).2 ne)]
  constructor
  · rw [mul_assoc]
    exact pow_modEq_of_prime hp m _
  · rw [mul_comm (p - 1), mul_assoc]
    exact pow_modEq_of_prime hq m _

/-- Settles O50: MODEXP of the ciphertext is the code to the product of the two exponents, which the primes make the
code itself. -/
theorem encThenDecReturnsTheCode : Obligations.EncThenDecReturnsTheCode := by
  intro s p q rx ry rm re rd rn hp hq ne modulus exponents code
  obtain ⟨t, enc, cipher, -, -, -, -, -, regs, -⟩ := encIsThePowerOfTheCode s rx rm re rn code
  have dec (s' : State) (rx' rd' rn' : Reg) (hx : s'.val rx' = t.val rx) (hd : s'.val rd' = s.val rd)
      (hn : s'.val rn' = s.val rn) : ∃ u, exec (.modexp ry rx' rd' rn') s' = .next u ∧ u.val ry = s.val rm := by
    have nonzero : s'.val rn' ≠ 0 := hn ▸ Nat.ne_zero_of_lt code
    refine ⟨_, exec_modexp_of_ne_zero ry rx' rd' nonzero, ?_⟩
    rw [val_of_exec_modexp nonzero (exec_modexp_of_ne_zero ry rx' rd' nonzero), hx, hd, hn, cipher]
    calc (s.val rm ^ s.val re % s.val rn) ^ s.val rd % s.val rn
        = s.val rm ^ (s.val re * s.val rd) % s.val rn := by rw [← Nat.pow_mod, ← pow_mul]
      _ = s.val rm % s.val rn := by rw [modulus]; exact pow_modEq_of_primes hp hq ne exponents _
      _ = s.val rm := Nat.mod_eq_of_lt code
  refine ⟨t, enc, fun keeps_n keeps_d => ?_, dec⟩
  exact dec t rx rd rn rfl (regs rd (by simpa using keeps_d.symm)) (regs rn (by simpa using keeps_n.symm))

end Sys2Proof.Machine
end

section
/-! Proofs of the statements about the draws of MRTEST, PRIMEGEN and KEYGEN, and about the hold of RANDBITS
(spec/42_primality.md rules R95 to R99, spec/43_primegen.md, spec/45_keypair_cipher.md rules R114 to R121,
spec/20_memory.md rule R53). -/

namespace Sys2Proof.Machine

/-! ### A draw with too few words (R53) -/

/-- Where the words on offer are too few for its draw, a command that passes its check holds. -/
theorem exec_held {α : Type} {i : Instr} {s : State} {d : Draw α} {g : α → State → State} (hc : checkOf i s = none)
    (hd : s.drawn = []) (work : workOf i s = Draw.map g d) (few : ∀ a rest, d s.offered ≠ some (a, rest)) :
    ∃ t, exec i s = .next t ∧ Held s t := by
  have none_drawn : d s.offered = none := Option.eq_none_iff_forall_ne_some.2 fun p => few p.1 p.2
  exact ⟨_, exec_of_draw_none hc hd (by rw [work]; exact Draw.map_none.2 none_drawn), s.hold_held⟩

/-! ### RANDBITS (R53) -/

/-- Settles O37: the hold leaves no word on offer, so the next one offered is first in line. -/
theorem randbitsHoldsForAMissingWord : Obligations.RandbitsHoldsForAMissingWord := by
  intro s rd bits legal fresh few
  have passes : checkOf (.randbits rd bits) s = none := if_neg (Nat.not_lt.2 legal)
  exact ⟨_, exec_of_draw_none passes fresh (Draw.map_none.2 (if_pos few)), s.hold_held, fun _ _ => rfl⟩

/-! ### MRTEST (R95 to R99) -/

/-- Settles O39: the machine's tester is the relation, both ways (`millerRabin_iff`), with the round count of the
phase. -/
theorem mrtestRunsItsRounds : Obligations.MrtestRunsItsRounds := by
  intro s w k ra busy fresh
  have work : workOf (.mrtest ra) s = Draw.map (fun v t => t.setP v) (millerRabin (s.val ra) k.toNat) := by
    rw [← State.latchedRounds_of_busy busy]
    rfl
  refine ⟨fun v rest verdict => ?_, fun undecided => exec_held rfl fresh work fun v rest drawn => ?_⟩
  · have drawn : workOf (.mrtest ra) s s.offered = some (fun t => t.setP v, rest) := by
      rw [work, Draw.map, millerRabin_iff.2 verdict]
    obtain ⟨step, regs, took, done⟩ := exec_of_draw_some rfl fresh drawn
    exact ⟨_, step, rfl, rfl, rfl, rfl, regs, took, done⟩
  · exact undecided v rest (millerRabin_iff.1 drawn)

/-- On the fast paths the tester decides without a word: prime exactly for 2 and 3 (R95). -/
theorem verdict_of_fast_path {n : Nat} (fast : n ≤ 4 ∨ n % 2 = 0) (k : Nat) (ws : List Rnd) :
    Verdict n k ws (decide (n = 2 ∨ n = 3)) ws := by
  by_cases prime : n = 2 ∨ n = 3
  · rw [decide_eq_true prime]
    exact .prime prime
  · rw [decide_eq_false prime]
    by_cases small : n ≤ 1 ∨ n = 4
    · exact .small small
    · exact .even (by omega) (by omega)

/-- Settles O40: the verdict leaves all the words on hand. -/
theorem mrtestFastPathsTakeNoWord : Obligations.MrtestFastPathsTakeNoWord := by
  intro s ra fast
  have decided := millerRabin_iff.2 (verdict_of_fast_path fast s.latchedRounds s.onHand)
  have drawn : workOf (.mrtest ra) s s.onHand =
      some (fun t => t.setP (decide (s.val ra = 2 ∨ s.val ra = 3)), s.onHand) := by
    rw [workOf, Draw.map, decided]
  have step := exec_done rfl drawn
  rw [State.consume_onHand] at step
  exact ⟨_, step, decide_eq_true_iff, rfl, rfl, rfl, fun _ _ => rfl, ⟨rfl, rfl⟩,
    State.finish_completed ⟨rfl, rfl, rfl, rfl, rfl, rfl, rfl⟩ ⟨rfl, rfl, rfl⟩⟩

/-- Settles O41: the verdict on a prime is 1 (`Verdict.eq_true_of_prime`). -/
theorem primesAreNeverReportedComposite : Obligations.PrimesAreNeverReportedComposite := by
  intro s t ra busy prime step ended
  obtain ⟨w, k, running⟩ := (State.busy_iff s).1 busy
  obtain ⟨rest, verdict⟩ := verdict_of_exec_mrtest running step ended
  exact verdict.eq_true_of_prime prime

/-! ### PRIMEGEN (R102 to R106) -/

/-- A number of at most `W` bits fits in a register. -/
theorem lt_two_pow_bits {n bits : Nat} {w : Config.Width} (h : n < 2 ^ bits) (legal : bits ≤ w.bits) : n < 2 ^ w.bits :=
  h.trans_le (Nat.pow_le_pow_right (by decide) legal)

theorem checkOf_primegen {s : State} {rd : Reg} {bits : Nat} (low : 2 ≤ bits) (high : bits ≤ s.width.bits) :
    checkOf (.primegen rd bits) s = none := if_neg (by omega)

/-- Settles O43: the machine's generator is the relation, both ways (`primeGen_iff`), and a candidate fits in a
register. -/
theorem primegenReturnsThePassingCandidate : Obligations.PrimegenReturnsThePassingCandidate := by
  intro s w k rd bits busy fresh low high
  have pos : 0 < bits := by omega
  have passes := checkOf_primegen (rd := rd) low high
  have work : workOf (.primegen rd bits) s =
      Draw.map (fun c t => (t.setReg rd c).setP true) (primeGen bits k.toNat) := by
    rw [← State.latchedRounds_of_busy busy]
    rfl
  refine ⟨fun c rest run => ?_, fun noRun => exec_held passes fresh work fun c rest drawn => ?_⟩
  · have drawn : workOf (.primegen rd bits) s s.offered = some (fun t => (t.setReg rd c).setP true, rest) := by
      rw [work, Draw.map, (primeGen_iff pos).2 run]
    obtain ⟨step, regs, took, done⟩ := exec_of_draw_some passes fresh drawn
    obtain ⟨-, below, -⟩ := primeRun_facts pos run
    have written : ((s.consume rest).setReg rd c).val rd = c :=
      State.val_setReg_self (s := s.consume rest) (lt_two_pow_bits below high)
    exact ⟨_, step, written, rfl, rfl, rfl, rfl, regs, took, done⟩
  · exact noRun c rest ((primeGen_iff pos).1 drawn)

/-- A command that passes its check and ends has completed with the write of its work. -/
theorem exec_ended {i : Instr} {s t : State} (passes : checkOf i s = none) (busy : s.busy = true)
    (step : exec i s = .next t) (ended : t.busy = false) :
    ∃ f rest, workOf i s s.onHand = some (f, rest) ∧ t = (f (s.consume rest)).finish := by
  rcases exec_cases step with ⟨c, fails, -⟩ | ⟨f, rest, -, work, rfl⟩ | ⟨-, -, rfl⟩
  · cases passes.symm.trans fails
  · exact ⟨f, rest, work, rfl⟩
  · cases busy.symm.trans ended

/-- Settles O44: the result is a generated candidate (`primeRun_facts`). -/
theorem primegenResultIsOddOfExactLength : Obligations.PrimegenResultIsOddOfExactLength := by
  intro s t rd bits busy low high step ended
  have pos : 0 < bits := by omega
  obtain ⟨f, rest, work, rfl⟩ := exec_ended (checkOf_primegen low high) busy step ended
  obtain ⟨c, drawn, rfl⟩ := Draw.map_some work
  obtain ⟨length, below, odd⟩ := primeRun_facts pos ((primeGen_iff pos).1 drawn)
  have written : ((s.consume rest).setReg rd c).val rd = c :=
    State.val_setReg_self (s := s.consume rest) (lt_two_pow_bits below high)
  rw [State.val_finish, State.val_setP, written]
  exact ⟨length, below, odd, rfl⟩

/-! ### KEYGEN (R114 to R121) -/

theorem checkOf_keygen {s : State} {bits : Nat} (low : 3 ≤ bits / 2) (high : 2 * (bits / 2) ≤ s.width.bits) :
    checkOf (.keygen bits) s = none := if_neg (by omega)

/-- What the numbers of a key generation satisfy, whatever the words were (R114 to R117). -/
structure KeyFacts (h p q e : Nat) : Prop where
  differ : q ≠ p
  p_bits : 2 ^ (h - 1) ≤ p ∧ p < 2 ^ h ∧ p % 2 = 1
  q_bits : 2 ^ (h - 1) ≤ q ∧ q < 2 ^ h ∧ q % 2 = 1
  phi_big : 3 < (p - 1) * (q - 1)
  e_range : 2 ≤ e ∧ e ≤ (p - 1) * (q - 1) - 1
  coprime : Nat.gcd e ((p - 1) * (q - 1)) = 1

theorem KeyRun.facts {h k p q e : Nat} {ws rest : List Rnd} (h3 : 3 ≤ h) (run : KeyRun h k ws p q e rest) :
    KeyFacts h p q e := by
  obtain ⟨ws1, ws2, first, second, exponent⟩ := run
  have p_bits := primeRun_facts (by omega) first
  obtain ⟨differ, q_bits⟩ := second.facts (by omega)
  have phi_big := three_lt_phi h3 p_bits.1 q_bits.1
  obtain ⟨low, high, coprime⟩ := exponent.facts phi_big
  exact ⟨differ, p_bits, q_bits, phi_big, ⟨low, high⟩, coprime⟩

/-- The private exponent is below `φ` and the inverse of `e` (R117). -/
theorem KeyFacts.inverse {h p q e : Nat} (f : KeyFacts h p q e) :
    modInv e ((p - 1) * (q - 1)) < (p - 1) * (q - 1) ∧ e * modInv e ((p - 1) * (q - 1)) % ((p - 1) * (q - 1)) = 1 :=
  modInv_spec (by have := f.phi_big; omega) f.coprime

/-- The product of two numbers of `h` bits has at most `2h` bits, and `φ` is at most the product (R115). -/
theorem KeyFacts.product {h p q e : Nat} (f : KeyFacts h p q e) : p * q < 2 ^ (2 * h) ∧ (p - 1) * (q - 1) ≤ p * q := by
  obtain ⟨-, hp, -⟩ := f.p_bits
  obtain ⟨-, hq, -⟩ := f.q_bits
  refine ⟨?_, Nat.mul_le_mul (Nat.sub_le p 1) (Nat.sub_le q 1)⟩
  rw [two_mul, pow_add]
  exact Nat.mul_lt_mul'' hp hq

/-- What the six registers read after the write of KEYGEN: keys that fit, each in its register (R118). -/
structure HoldsKeys (t : State) (y : Keys) : Prop where
  p : t.val 8 = y.p
  q : t.val 9 = y.q
  n : t.val 10 = y.n
  phi : t.val 11 = y.phi
  e : t.val 12 = y.e
  d : t.val 13 = y.d

theorem State.setKeys_holdsKeys {s : State} {y : Keys} (p : y.p < 2 ^ s.width.bits) (q : y.q < 2 ^ s.width.bits)
    (n : y.n < 2 ^ s.width.bits) (phi : y.phi < 2 ^ s.width.bits) (e : y.e < 2 ^ s.width.bits)
    (d : y.d < 2 ^ s.width.bits) : HoldsKeys (s.setKeys y) y := by
  constructor <;> simp [State.setKeys, Nat.mod_eq_of_lt, *]

/-- The rest of KEYGEN's completion step writes no register. -/
theorem HoldsKeys.complete {t : State} {y : Keys} (h : HoldsKeys t y) (v : Bool) : HoldsKeys (t.setP v).finish y :=
  ⟨h.p, h.q, h.n, h.phi, h.e, h.d⟩

/-- The keys of a key generation with a legal count fit in registers. -/
theorem KeyFacts.holdsKeys {h p q e : Nat} {s : State} (f : KeyFacts h p q e) (legal : 2 * h ≤ s.width.bits) :
    HoldsKeys (s.setKeys (keysOf p q e)) (keysOf p q e) := by
  obtain ⟨-, hp, -⟩ := f.p_bits
  obtain ⟨-, hq, -⟩ := f.q_bits
  obtain ⟨n_lt, phi_le⟩ := f.product
  have n_fits : p * q < 2 ^ s.width.bits := lt_two_pow_bits n_lt legal
  have phi_fits := phi_le.trans_lt n_fits
  have e_le : e ≤ (p - 1) * (q - 1) := f.e_range.2.trans (Nat.sub_le _ 1)
  exact State.setKeys_holdsKeys (lt_two_pow_bits hp (by omega)) (lt_two_pow_bits hq (by omega)) n_fits phi_fits
    (e_le.trans_lt phi_fits) (f.inverse.1.trans phi_fits)

/-- Settles O46: the machine's draws are the relation, both ways (`keyGen_iff`), and the keys fit in their registers. -/
theorem keygenRunsItsSteps : Obligations.KeygenRunsItsSteps := by
  intro s w k bits busy fresh low high
  have passes := checkOf_keygen low high
  have work : workOf (.keygen bits) s = Draw.map (fun y t => (t.setKeys y).setP true) (keyGen (bits / 2) k.toNat) := by
    rw [← State.latchedRounds_of_busy busy]
    rfl
  refine ⟨fun p q e rest run => ?_, fun noRun => exec_held passes fresh work fun y rest drawn => ?_⟩
  · have drawn : workOf (.keygen bits) s s.offered = some (fun t => (t.setKeys (keysOf p q e)).setP true, rest) := by
      rw [work, Draw.map, (keyGen_iff low).2 ⟨p, q, e, run, rfl⟩]
    obtain ⟨step, regs, took, done⟩ := exec_of_draw_some passes fresh drawn
    have facts := run.facts low
    obtain ⟨v8, v9, v10, v11, v12, v13⟩ := (facts.holdsKeys (s := s.consume rest) high).complete true
    obtain ⟨z, c, -⟩ := commandsWriteOnlyTheirFlags _ _ _ step
    obtain ⟨-, hi, -⟩ := commandsWriteOnlyTheirDestinations _ _ _ step
    refine ⟨_, step, v8, v9, v10, v11, v12, ?_, ?_, rfl, z rfl, c rfl, hi rfl, regs, took, done⟩
    · exact v13.trans_lt facts.inverse.1
    · exact v13 ▸ facts.inverse.2
  · obtain ⟨p, q, e, run, -⟩ := (keyGen_iff low).1 drawn
    exact noRun p q e rest run

/-- Settles O47: an ended KEYGEN has completed a run of its draws, whose numbers satisfy `KeyFacts`. -/
theorem keygenKeysAreConsistent : Obligations.KeygenKeysAreConsistent := by
  intro s t bits busy low high step ended
  obtain ⟨f, rest, work, rfl⟩ := exec_ended (checkOf_keygen low high) busy step ended
  obtain ⟨y, drawn, rfl⟩ := Draw.map_some work
  obtain ⟨p, q, e, run, rfl⟩ := (keyGen_iff low).1 drawn
  have facts := run.facts low
  obtain ⟨v8, v9, v10, v11, v12, v13⟩ := (facts.holdsKeys (s := s.consume rest) high).complete true
  have phi_big := facts.phi_big
  obtain ⟨e_low, e_high⟩ := facts.e_range
  have e_below : e < (p - 1) * (q - 1) := by omega
  simp only [v8, v9, v10, v11, v12, v13, List.forall_mem_cons]
  exact ⟨facts.differ.symm, rfl, rfl, ⟨facts.p_bits, facts.q_bits, by simp⟩, e_low, e_below, facts.coprime,
    facts.inverse.2, rfl⟩

end Sys2Proof.Machine
end

section
/-! Proofs of the statements about the host window: reset, control registers, limb writes, SETB and the window's frame
of a command (spec/10_state.md rules R21 to R31, spec/20_memory.md rules R41 to R47, spec/30_encoding.md rules R68, R70,
spec/70_reset_and_hazards.md rule R152). -/

namespace Sys2Proof.Machine

/-! ### While `rst` is held (R152) -/

/-- Settles O12: each event is performed in the state with the event taken off, where `rst` is still held. -/
theorem hostAccessesAreIgnoredInReset : Obligations.HostAccessesAreIgnoredInReset := by
  intro s rest hr
  have held : ({ s with env := rest } : State).rst = true := hr
  refine ⟨fun a e => ?_, fun a v e => ?_, fun e => ?_, fun v e => ?_, fun e => ?_, fun w e => ?_⟩
  · rw [step_of_env_cons e, perform, hostRead_of_rst held]
  · rw [step_of_env_cons e, perform, hostWrite_of_rst held]
  · rw [step_of_env_cons e, perform, engineTurn_of_rst held]
  · rw [step_of_env_cons e, perform, ackTurn_of_rst held]
  · rw [step_of_env_nil e, engineTurn_of_rst hr]
  · rw [step_of_env_cons e]
    rfl

/-! ### The control block (R21 to R31) -/

/-- The address of a control register is in the window and holds it. -/
theorem locate_ctrl {w : Config.Width} {a : Nat} {r : CtrlReg} (low : a < 0x24) (at_a : ctrlAt (a / 4) = some r) :
    locate w a = some (.ctrl r) := by
  rw [locate_eq, if_pos low, at_a]
  rfl

/-- The step of a read of a control register. -/
theorem step_hostRead_ctrl {s : State} {a : Nat} {rest : List Event} (r : CtrlReg) (hr : s.rst = false)
    (e : s.env = .hostRead a :: rest) (low : a < 0x24) (aligned : a % 4 = 0) (at_a : ctrlAt (a / 4) = some r) :
    step s = .next { s with rdata := s.ctrlRead r, env := rest } := by
  have same : ({ s with env := rest } : State).ctrlRead r = s.ctrlRead r := by cases r <;> rfl
  rw [step_hostRead (by omega) e,
    hostRead_ctrl (s := { s with env := rest }) hr a r (locate_ctrl low at_a) aligned, same]

/-- The step of a write of a control register that is not refused. -/
theorem step_hostWrite_ctrl {s : State} {a : Nat} {v : W32} {rest : List Event} (r : CtrlReg) (hr : s.rst = false)
    (e : s.env = .hostWrite a v :: rest) (low : a < 0x24) (aligned : a % 4 = 0) (at_a : ctrlAt (a / 4) = some r)
    (is_open : r ≠ .cmd ∨ s.busy = false) : step s = .next (({ s with env := rest } : State).ctrlWrite r v) := by
  rw [step_hostWrite (by omega) e,
    hostWrite_ctrl (s := { s with env := rest }) hr a v r (locate_ctrl low at_a) aligned is_open]

/-- `PARAM` is `W` beside the two constants (R23). -/
theorem paramWord_eq (w : Config.Width) : paramWord w = BitVec.ofNat 32 (0x20100000 + w.bits) := by
  rw [paramWord, Config.NREG, Config.LIMB]
  congr 1
  omega

/-- `CTRL` as read is `IE` as a number (R24). -/
theorem State.ctrlWord_eq (s : State) : s.ctrlWord = if s.ie then 1#32 else 0#32 := by
  rw [State.ctrlWord]
  cases s.ie <;> rfl

/-- One bit at a place is that bit there and 0 elsewhere. -/
theorem getLsbD_bitAt (v : Bool) {i : Nat} (hi : i < 32) (j : Nat) : (bitAt v i).getLsbD j = (decide (j = i) && v) := by
  rw [bitAt, BitVec.getLsbD_shiftLeft, BitVec.getLsbD_setWidth, BitVec.getLsbD_ofBool]
  by_cases e : j = i
  · subst e
    simp [hi]
  · rcases Nat.lt_or_gt_of_ne e with lt | gt
    · simp [e, lt]
    · simp [e, Nat.sub_ne_zero_of_lt gt]

/-- `STATUS` bit by bit (R25). -/
theorem State.getLsbD_statusWord (s : State) (j : Nat) : s.statusWord.getLsbD j =
    (decide (j = 0) && s.busy || decide (j = 1) && s.done || decide (j = 8) && s.z || decide (j = 9) && s.c ||
      decide (j = 10) && s.p) := by
  simp only [State.statusWord, BitVec.getLsbD_or, getLsbD_bitAt _ (by decide : 0 < 32),
    getLsbD_bitAt _ (by decide : 1 < 32), getLsbD_bitAt _ (by decide : 8 < 32),
    getLsbD_bitAt _ (by decide : 9 < 32), getLsbD_bitAt _ (by decide : 10 < 32)]

/-- Settles O52: each address names one control register, and the word returned is what the register reads. -/
theorem controlRegistersReadAsSpecified : Obligations.ControlRegistersReadAsSpecified := by
  intro s a rest hr e
  have reads (r : CtrlReg) := step_hostRead_ctrl r hr e
  refine ⟨?_, ?_, ?_, ?_, ?_, ?_, ?_, ?_, ?_⟩ <;> rintro rfl
  · exact reads .id (by decide) rfl rfl
  · rw [← paramWord_eq]
    exact reads .param (by decide) rfl rfl
  · rw [← State.ctrlWord_eq]
    exact reads .ctrl (by decide) rfl rfl
  · refine ⟨_, reads .status (by decide) rfl rfl, ?_⟩
    simp only [State.ctrlRead, State.getLsbD_statusWord]
    refine ⟨by simp, by simp, by simp, by simp, by simp, fun j h0 h1 h8 h9 h10 => ?_⟩
    simp [h0, h1, h8, h9, h10]
  · exact reads .cmd (by decide) rfl rfl
  · exact reads .rounds (by decide) rfl rfl
  · exact reads .err (by decide) rfl rfl
  · exact reads .ecause (by decide) rfl rfl
  · exact reads .einfo (by decide) rfl rfl

/-- Where the reserved bits of `ERR` read 0, clearing by the bits 1 to 6 of a word clears by all of it (R28). -/
theorem and_not_and_of_reserved {err : W32} (reserved : err &&& 0xFFFFFF81#32 = 0#32) (v : W32) :
    err &&& ~~~(v &&& 0x7E#32) = err &&& ~~~v := by
  have kept : err &&& 0x7E#32 = err := by
    have split_err : err = err &&& 0xFFFFFF81#32 ||| err &&& 0x7E#32 := by
      rw [← BitVec.and_or_distrib_left]
      exact (BitVec.and_allOnes (x := err)).symm
    rw [reserved, BitVec.zero_or] at split_err
    exact split_err.symm
  have cleared : 0x7E#32 &&& ~~~(v &&& 0x7E#32) = 0x7E#32 &&& ~~~v := by
    rw [BitVec.not_and, BitVec.and_or_distrib_left, BitVec.and_not_self]
    exact BitVec.or_zero
  rw [← kept, BitVec.and_assoc, cleared, BitVec.and_assoc]

/-- Settles O53: each address names one control register; for `ERR` the reserved bits are 0 by the invariant. -/
theorem controlRegisterWritesDoWhatTheirAccessSays : Obligations.ControlRegisterWritesDoWhatTheirAccessSays := by
  intro s a v rest hr inv e
  have writes (r : CtrlReg) (ne : r ≠ .cmd) (low) (aligned) (at_a) :=
    step_hostWrite_ctrl r hr e low aligned at_a (.inl ne)
  refine ⟨fun read_only => ?_, ?_, ?_, ?_, ?_, ?_⟩
  · simp only [List.mem_cons, List.not_mem_nil, or_false] at read_only
    rcases read_only with rfl | rfl | rfl | rfl
    · exact writes .id (by decide) (by decide) rfl rfl
    · exact writes .param (by decide) (by decide) rfl rfl
    · exact writes .ecause (by decide) (by decide) rfl rfl
    · exact writes .einfo (by decide) (by decide) rfl rfl
  · rintro rfl
    exact writes .ctrl (by decide) (by decide) rfl rfl
  · rintro rfl clears
    rw [writes .status (by decide) (by decide) rfl rfl]
    simp only [State.ctrlWrite, clears, Bool.not_true, Bool.and_false]
  · rintro rfl keeps
    rw [writes .status (by decide) (by decide) rfl rfl]
    simp only [State.ctrlWrite, keeps, Bool.not_false, Bool.and_true]
  · rintro rfl
    exact writes .rounds (by decide) (by decide) rfl rfl
  · rintro rfl
    rw [← and_not_and_of_reserved inv.err_reserved]
    exact writes .err (by decide) (by decide) rfl rfl

/-- Settles O54: the write is not refused while IDLE, and it is the acceptance of the word. -/
theorem cmdWriteIssuesTheCommand : Obligations.CmdWriteIssuesTheCommand := by
  intro s v rest hr idle fresh e
  have accepted : ({ s with env := rest } : State).ctrlWrite .cmd v =
      { s with cmd := v, phase := .busy v s.rounds, done := false, env := rest } := by
    simp [State.ctrlWrite, State.accept, fresh]
  have not_busy : s.busy = false := (State.busy_eq_false_iff s).2 idle
  refine ⟨_, step_hostWrite_ctrl .cmd hr e (by decide) rfl rfl (.inr not_busy), accepted, ?_⟩
  simp only [State.getLsbD_statusWord]
  exact ⟨rfl, rfl⟩

/-! ### Limb writes (R43, R44) -/

/-- The step of a write of limb `j` of the register at index `i ≤ 16` while IDLE, for `B` and `HI` alike. -/
theorem step_hostWrite_limb {s : State} {i j : Nat} {v : W32} {r : WideReg} {rest : List Event} (hr : s.rst = false)
    (hp : s.phase = .idle) (hi : i ≤ 16) (hj : j < s.width.nlimb)
    (hl : locate s.width (0x2000 + i * s.width.stride + 4 * j) = some (.limb r j))
    (e : s.env = .hostWrite (0x2000 + i * s.width.stride + 4 * j) v :: rest) :
    step s = .next
      (({ s with env := rest } : State).setWide r (setLimb (({ s with env := rest } : State).wide r) j v)) := by
  have idle : ({ s with env := rest } : State).busy = false := (State.busy_eq_false_iff _).2 hp
  rw [step_hostWrite (limb_lt _ hi hj) e]
  exact congrArg Host.Outcome.next
    (hostWrite_limb (s := { s with env := rest }) hr idle _ v r j hl (limb_aligned _ i j))

/-- Settles O56: the written register is `setLimb`, whose bits are those of the word or of the register before. -/
theorem limbWritesReplaceTheirBits : Obligations.LimbWritesReplaceTheirBits := by
  intro s i j v rest hr hp hj
  refine ⟨fun e => ⟨_, step_hostWrite_limb hr hp i.isLt.le hj (locate_limb_b _ i hj) e, fun n => ?_,
      fun r hne => ?_, rfl⟩,
    fun e => ⟨_, step_hostWrite_limb hr hp le_rfl hj (locate_limb_hi _ hj) e, fun n => ?_, rfl⟩⟩
  · rw [State.val_setWide { s with env := rest } i hj v, setLimb_testBit]
    rfl
  · exact State.val_setWide_ne { s with env := rest } (by simpa using hne) _
  · rw [State.hiVal_setWide { s with env := rest } hj v, setLimb_testBit]
    rfl

/-! ### SETB (R68) -/

/-- The writes of SETB from limb `j` on: `k` of them. -/
def setBTail (w : Config.Width) (i : Reg) (v j k : Nat) : List Event :=
  (List.range' j k).map fun j => .hostWrite (limbAddr w i.val j) (getLimb v j)

theorem setBTail_succ (w : Config.Width) (i : Reg) (v j k : Nat) :
    setBTail w i v j (k + 1) = .hostWrite (limbAddr w i.val j) (getLimb v j) :: setBTail w i v (j + 1) k := by
  rw [setBTail, List.range'_succ]
  rfl

theorem setBScript_eq (w : Config.Width) (i : Reg) (v : Nat) : setBScript w i v = setBTail w i v 0 w.nlimb := by
  rw [setBScript, List.range_eq_range']
  rfl

/-- Bit `n` of limb `j` is bit `32j + n` of the number. -/
theorem getLsbD_getLimb (x j n : Nat) (h : n < 32) : (getLimb x j).getLsbD n = x.testBit (32 * j + n) := by
  rw [getLimb, BitVec.getLsbD_ofNat, decide_eq_true h, Bool.true_and, Nat.testBit_div_two_pow, Nat.add_comm]

/-- Two steps that change only the registers and take events off, one after the other. -/
theorem frame_trans {s u t : State} {rest rest' : List Event} (first : { u with b := s.b } = { s with env := rest })
    (second : { t with b := u.b } = { u with env := rest' }) : { t with b := s.b } = { s with env := rest' } :=
  calc { t with b := s.b } = { u with b := s.b, env := rest' } := congrArg (fun x : State => { x with b := s.b }) second
    _ = { s with env := rest' } := congrArg (fun x : State => { x with env := rest' }) first

/-- A run of one step more is the step and then the run. -/
theorem run_succ {M : Host.Core} {k : Nat} {s u : M.State} (move : M.step s = .next u) :
    M.run (k + 1) s = M.run k u := by
  rw [Host.Core.run, move]

/-- The writes of SETB from limb `j` on, the lower limbs already those of `v`, leave the register with all its limbs up
to the last one written those of `v`, and nothing else changed. -/
theorem run_setBTail {i : Reg} {v : Nat} {rest : List Event} : ∀ (k j : Nat) {s : State}, s.rst = false →
    s.phase = .idle → j + k ≤ s.width.nlimb → s.env = setBTail s.width i v j k ++ rest →
    (∀ n, n < 32 * j → (s.val i).testBit n = v.testBit n) →
    ∃ t, Sys2Proof.core.run k s = .next t ∧ (∀ n, n < 32 * (j + k) → (t.val i).testBit n = v.testBit n) ∧
      SameRegsBut s t [i] ∧ { t with b := s.b } = { s with env := rest }
  | 0, j, s, _, _, _, e, written => by
    have env : s.env = rest := e
    exact ⟨s, rfl, written, fun _ _ => rfl, by rw [← env]⟩
  | k + 1, j, s, hr, hp, hle, e, written => by
    rw [setBTail_succ, List.cons_append] at e
    obtain ⟨u, move, limb, regs, frame⟩ := (limbWritesReplaceTheirBits s i j _ _ hr hp (by omega)).1 e
    have width : u.width = s.width := (congrArg State.width frame :)
    have low : u.rst = s.rst := (congrArg State.rst frame :)
    have idle : u.phase = s.phase := (congrArg State.phase frame :)
    have env : u.env = setBTail s.width i v (j + 1) k ++ rest := (congrArg State.env frame :)
    have written_limb (n : Nat) (hn : n < 32 * (j + 1)) : (u.val i).testBit n = v.testBit n := by
      rw [limb n]
      split_ifs with in_limb
      · rw [getLsbD_getLimb _ _ _ (by omega), Nat.add_sub_cancel' in_limb.1]
      · exact written n (by omega)
    obtain ⟨t, run, written', regs', frame'⟩ := run_setBTail k (j + 1) (s := u) (rest := rest) (low.trans hr)
      (idle.trans hp) (by rw [width]; omega) (by rw [width, env]) written_limb
    exact ⟨t, (run_succ (M := Sys2Proof.core) move).trans run, fun n hn => written' n (by omega),
      fun r hne => (regs' r hne).trans (regs r hne), frame_trans frame frame'⟩

/-- Settles O57: after the last limb every bit below `2^W` is that of the value, and there is none above. -/
theorem setbLoadsTheWholeRegister : Obligations.SetbLoadsTheWholeRegister := by
  intro s i v rest hr hp hv e
  rw [setBScript_eq] at e
  obtain ⟨t, run, written, regs, frame⟩ := run_setBTail s.width.nlimb 0 hr hp (by omega) e (fun n hn => by omega)
  refine ⟨t, run, Nat.eq_of_testBit_eq fun n => ?_, regs, frame⟩
  have fits : t.val i < 2 ^ s.width.bits := by
    have width : t.width = s.width := (congrArg State.width frame :)
    exact width ▸ t.val_lt i
  by_cases hn : n < s.width.bits
  · exact written n (by rw [Nat.zero_add]; exact hn)
  · have above : 2 ^ s.width.bits ≤ 2 ^ n := Nat.pow_le_pow_right (by decide) (Nat.not_lt.1 hn)
    rw [Nat.testBit_lt_two_pow (fits.trans_le above), Nat.testBit_lt_two_pow (hv.trans_le above)]

/-! ### The window's frame of a command -/

/-- Settles O58: the ended command is IDLE, so the window shows the limbs of its registers, and it has kept those that
are not its destinations. -/
theorem windowFrameOfCommands : Obligations.WindowFrameOfCommands := by
  intro i s t r j busy hr step ended hj
  obtain ⟨regs, hi, ⟨width, -, -, -, rst, -, -⟩⟩ := commandsWriteOnlyTheirDestinations i s t step
  have low : t.rst = false := rst.trans hr
  rw [← width] at hj ⊢
  constructor
  · intro kept
    rw [memRead_of_limb low ended _ _ j (locate_limb_b _ r hj) (limb_aligned _ _ j), ← regs r kept]
    rfl
  · intro no
    rw [memRead_of_limb low ended _ _ j (locate_limb_hi _ hj) (limb_aligned _ _ j), ← State.hiVal_congr width (hi no)]
    rfl

end Sys2Proof.Machine
end
